-- ==== Sys2Proof/Word.lean ====
section
/-! DEFINITION. The word types of TWBF (R13): bytes, 16-bit command, result and symbol words, 7-bit addresses. -/

namespace Sys2Proof

/-- A byte: 8 bits (R13). -/
abbrev Byte := BitVec 8

/-- A command word, a result word, a bus symbol or a FIFO index: 16 bits (R13). -/
abbrev Word := BitVec 16

/-- An own address or a matched address: 7 bits (R9). -/
abbrev Addr7 := BitVec 7

end Sys2Proof
end

