-- ==== Sys2Proof/Syntax.lean ====
section
/-! DEFINITION. The rows of spec/opcode_table.json as one inductive type, one constructor a row (30_encoding.md). -/

namespace Sys2Proof

/-- The five word spaces of the opcode table. The same number means different things in different spaces:
a command on the client port (R70), a symbol on the bus (R77), a flag bit (R82), a front-end command code
(R83), a FIFO port operation code (R84). -/
inductive Format where
  | cmd16
  | bus16
  | if8
  | fecmd2
  | fifoop3
  deriving DecidableEq, Repr

/-- The direction bit of an address byte (R28, R81). -/
inductive Dir where
  /-- 0: the controller writes. -/
  | write
  /-- 1: the controller reads. -/
  | read
  deriving DecidableEq, Repr

/-- Every row of the opcode table. -/
inductive Instr where
  -- CMD16, client commands (R71)
  | activateL
  | activateF (addr : Addr7)
  | deactivate
  | write (b : Byte)
  | read
  | available
  | onReceive (hid : Byte)
  | onRequest (hid : Byte)
  /-- Every CMD16 word that no other command row matches (R72). -/
  | illegal (w : Word)
  -- BUS16, input symbols (R78)
  | startAddr (a : Addr7) (d : Dir)
  | wbyte (b : Byte)
  | cack
  | cnack
  | stop
  | arblost
  | buserr
  -- BUS16, output symbols (R79)
  | outAck
  | outNack
  | outByte (b : Byte)
  -- IF8, event flag bits, each one service branch (R82)
  | ifArblost
  | ifBuserr
  | ifSstop
  | ifAddr
  | ifRxdatav
  | ifAck
  -- FECMD2, front-end commands (R83)
  | feAck
  | feNack
  -- FIFOOP3, FIFO port operations (R84)
  | fifoStore
  | fifoRead
  | fifoAvailable
  | fifoIsfull
  | fifoClear
  deriving DecidableEq, Repr

/-- The word space a row belongs to. -/
def Instr.format : Instr → Format
  | .activateL | .activateF _ | .deactivate | .write _ | .read | .available | .onReceive _ | .onRequest _
  | .illegal _ => .cmd16
  | .startAddr _ _ | .wbyte _ | .cack | .cnack | .stop | .arblost | .buserr | .outAck | .outNack
  | .outByte _ => .bus16
  | .ifArblost | .ifBuserr | .ifSstop | .ifAddr | .ifRxdatav | .ifAck => .if8
  | .feAck | .feNack => .fecmd2
  | .fifoStore | .fifoRead | .fifoAvailable | .fifoIsfull | .fifoClear => .fifoop3

/-- The number of bits of a word of each space. -/
def Format.width : Format → Nat
  | .cmd16 | .bus16 => 16
  | .if8 => 8
  | .fecmd2 => 2
  | .fifoop3 => 3

/-- A symbol the BUS agent may present (R77: kinds 0x1 to 0x7). -/
def Instr.isInputSymbol : Instr → Bool
  | .startAddr _ _ | .wbyte _ | .cack | .cnack | .stop | .arblost | .buserr => true
  | _ => false

/-- A row that the block issues inside another step, and that no agent of R6 issues as a step of its own:
an output symbol (R79), a front-end command (R83) or a FIFO port operation (R84). -/
def Instr.isInternal : Instr → Bool
  | .outAck | .outNack | .outByte _ | .feAck | .feNack | .fifoStore | .fifoRead | .fifoAvailable
  | .fifoIsfull | .fifoClear => true
  | _ => false

end Sys2Proof
end

