-- ==== Sys2Proof/WellFormed.lean ====
section
/-! DEFINITION. Which terms of Instr stand for a row: every one, but that ILLEGAL holds an illegal command word (R72). -/

namespace Sys2Proof

/-- R72: the words that spell no command. -/
def illegalWord (w : Word) : Bool :=
  let op := (w >>> 12).toNat
  let imm8 := w &&& 0x00FF#16
  (op == 0x0 || 0x9 ≤ op)
    || (w &&& 0x0F00#16 != 0#16)
    || ((op == 0x1 || op == 0x3 || op == 0x5 || op == 0x6) && imm8 != 0#16)
    || (op == 0x2 && w &&& 0x0080#16 != 0#16)

/-- The fields of every other row are bounded by their types. -/
def Instr.wellFormed : Instr → Bool
  | .illegal w => illegalWord w
  | .activateL | .activateF _ | .deactivate | .write _ | .read | .available | .onReceive _ | .onRequest _
  | .startAddr _ _ | .wbyte _ | .cack | .cnack | .stop | .arblost | .buserr | .outAck | .outNack | .outByte _
  | .ifArblost | .ifBuserr | .ifSstop | .ifAddr | .ifRxdatav | .ifAck | .feAck | .feNack
  | .fifoStore | .fifoRead | .fifoAvailable | .fifoIsfull | .fifoClear => true

end Sys2Proof
end

