-- ==== Sys2Proof/Decode.lean ====
section
/-! DEFINITION. Decoding, total on every word of every space and rejecting by name (R70 to R85, R89), and the encoder,
written from the same tables. -/

namespace Sys2Proof

/-- Why a word spells no row of its space. -/
inductive DecodeError where
  /-- BUS16 kind 0x0 or 0xB..0xF (R80). -/
  | reservedKind
  /-- BUS16 bits 11:8 not 0 (R80). -/
  | reservedField
  /-- A BUS16 symbol without operand whose payload is not 0 (R79, R80). -/
  | payloadNotZero
  /-- IF8: no flag bit is set (R82). -/
  | noFlag
  /-- A FECMD2 or FIFOOP3 code that is never issued (R83, R84), or a number too wide for the space. -/
  | neverIssued
  deriving DecidableEq, Repr

/-- What a word decodes to. -/
inductive Decoded where
  | instr (i : Instr)
  | rejected (e : DecodeError)
  deriving DecidableEq, Repr

def Decoded.toOption : Decoded → Option Instr
  | .instr i => some i
  | .rejected _ => none

/-- Bits 15:12: `op` of a command (R70), `kind` of a symbol (R77). -/
def opField (w : Word) : BitVec 4 := w.extractLsb' 12 4

/-- Bits 11:8: reserved, 0 (R70, R77). -/
def rsvField (w : Word) : BitVec 4 := w.extractLsb' 8 4

/-- Bits 7:0: `imm8` of a command (R70), `payload` of a symbol (R77). -/
def lowByte (w : Word) : Byte := w.extractLsb' 0 8

/-- `imm8[6:0]`, the own address of ACTIVATE_F (R73). -/
def addrField (b : Byte) : Addr7 := b.extractLsb' 0 7

/-- `payload[7:1]`, the address of START_ADDR (R81). -/
def addrOfPayload (b : Byte) : Addr7 := b.extractLsb' 1 7

/-- `payload[0]`: 1 = the controller reads (R81). -/
def dirOfPayload (b : Byte) : Dir := if b.getLsbD 0 then .read else .write

/-- A row without operand needs a zero operand byte (R72). -/
def bare (w : Word) (i : Instr) : Instr := if lowByte w = 0 then i else .illegal w

/-- A CMD16 word, by R71; what R71 does not spell is ILLEGAL (R72). -/
def decodeCmd (w : Word) : Instr :=
  if rsvField w ≠ 0 then .illegal w
  else match (opField w).toNat with
  | 0x1 => bare w .activateL
  | 0x2 => if (lowByte w).getLsbD 7 then .illegal w else .activateF (addrField (lowByte w))
  | 0x3 => bare w .deactivate
  | 0x4 => .write (lowByte w)
  | 0x5 => bare w .read
  | 0x6 => bare w .available
  | 0x7 => .onReceive (lowByte w)
  | 0x8 => .onRequest (lowByte w)
  | _   => .illegal w

/-- A symbol without operand needs a zero payload (R79, R80). -/
def bareSymbol (w : Word) (i : Instr) : Decoded := if lowByte w = 0 then .instr i else .rejected .payloadNotZero

/-- A BUS16 word, by R78 and R79; the rest is reserved (R80). -/
def decodeBus (w : Word) : Decoded :=
  if rsvField w ≠ 0 then .rejected .reservedField
  else match (opField w).toNat with
  | 0x1 => .instr (.startAddr (addrOfPayload (lowByte w)) (dirOfPayload (lowByte w)))
  | 0x2 => .instr (.wbyte (lowByte w))
  | 0x3 => bareSymbol w .cack
  | 0x4 => bareSymbol w .cnack
  | 0x5 => bareSymbol w .stop
  | 0x6 => bareSymbol w .arblost
  | 0x7 => bareSymbol w .buserr
  | 0x8 => bareSymbol w .outAck
  | 0x9 => bareSymbol w .outNack
  | 0xA => .instr (.outByte (lowByte w))
  | _   => .rejected .reservedKind

/-- An IF8 word: the row of its lowest flag bit, for "the flag bit number selects the service branch" and "ascending
bit order is the service order" (R82). Bits 7:6 select no branch. -/
def decodeFlags (w : Word) : Decoded :=
  if w.getLsbD 0 then .instr .ifArblost
  else if w.getLsbD 1 then .instr .ifBuserr
  else if w.getLsbD 2 then .instr .ifSstop
  else if w.getLsbD 3 then .instr .ifAddr
  else if w.getLsbD 4 then .instr .ifRxdatav
  else if w.getLsbD 5 then .instr .ifAck
  else .rejected .noFlag

/-- A front-end command code (R83). -/
def decodeFe (w : Word) : Decoded :=
  match w.toNat with
  | 0b01 => .instr .feAck
  | 0b10 => .instr .feNack
  | _    => .rejected .neverIssued

/-- A FIFO port operation code (R84). -/
def decodeFifo (w : Word) : Decoded :=
  match w.toNat with
  | 0 => .instr .fifoStore
  | 1 => .instr .fifoRead
  | 2 => .instr .fifoAvailable
  | 3 => .instr .fifoIsfull
  | 4 => .instr .fifoClear
  | _ => .rejected .neverIssued

/-- The decoder: a word of a space. Every word is decided by itself (R89). -/
def decode : Format → Word → Decoded
  | .cmd16, w => .instr (decodeCmd w)
  | .bus16, w => decodeBus w
  | .if8, w => decodeFlags w
  | .fecmd2, w => decodeFe w
  | .fifoop3, w => decodeFifo w

/-! ### The encoder -/

/-- A word of `op` or `kind` and an operand byte, the reserved field 0 (R70, R77). -/
def makeWord (op : BitVec 4) (low : Byte) : Word := op ++ 0#4 ++ low

/-- `{a[6:0], d}` (R81). -/
def addressByte (a : Addr7) (d : Dir) : Byte := a ++ (match d with | .read => 1#1 | .write => 0#1)

/-- The word of a row in its own space (R71, R78, R79, R82, R83, R84). -/
def encode : Instr → Word
  | .activateL => makeWord 0x1 0
  | .activateF addr => makeWord 0x2 (0#1 ++ addr)
  | .deactivate => makeWord 0x3 0
  | .write b => makeWord 0x4 b
  | .read => makeWord 0x5 0
  | .available => makeWord 0x6 0
  | .onReceive hid => makeWord 0x7 hid
  | .onRequest hid => makeWord 0x8 hid
  | .illegal w => w
  | .startAddr a d => makeWord 0x1 (addressByte a d)
  | .wbyte b => makeWord 0x2 b
  | .cack => makeWord 0x3 0
  | .cnack => makeWord 0x4 0
  | .stop => makeWord 0x5 0
  | .arblost => makeWord 0x6 0
  | .buserr => makeWord 0x7 0
  | .outAck => makeWord 0x8 0
  | .outNack => makeWord 0x9 0
  | .outByte b => makeWord 0xA b
  | .ifArblost => 1#16 <<< 0
  | .ifBuserr => 1#16 <<< 1
  | .ifSstop => 1#16 <<< 2
  | .ifAddr => 1#16 <<< 3
  | .ifRxdatav => 1#16 <<< 4
  | .ifAck => 1#16 <<< 5
  | .feAck => 0b01
  | .feNack => 0b10
  | .fifoStore => 0
  | .fifoRead => 1
  | .fifoAvailable => 2
  | .fifoIsfull => 3
  | .fifoClear => 4

/-! ### The opcode table's numbers

The table numbers the words of five spaces with the same numbers (0x3000 is DEACTIVATE on the command port and CACK on
the bus; 1 is a flag bit, a front-end command and a FIFO operation), so a number alone does not name a row. Which space
a bare number is read in is a choice of the model (log 6); inside the machine every word is read in the space it is
fetched from. -/

/-- The space a bare table number is read in: the first, in the table's order, in which it spells a row; ILLEGAL, the
row that matches every other word, comes last (log 6). -/
def tableFormat (nbits : Nat) (w : Word) : Format :=
  if nbits ≤ 2 then .fecmd2
  else if nbits = 3 then .fifoop3
  else if nbits ≤ 8 then
    if w = encode .ifArblost ∨ w = encode .ifBuserr ∨ w = encode .ifSstop ∨ w = encode .ifAddr
        ∨ w = encode .ifRxdatav ∨ w = encode .ifAck then .if8
    else if (decodeFe w).toOption.isSome then .fecmd2
    else if (decodeFifo w).toOption.isSome then .fifoop3
    else .if8
  else if illegalWord w && (decodeBus w).toOption.isSome then .bus16
  else .cmd16

/-- The instruction the decoder reads from the opcode table's number `w` of `nbits` bits. -/
def decodeTableWord (nbits w : Nat) : Option Instr :=
  if 16 < nbits ∨ 2 ^ nbits ≤ w then none
  else (decode (tableFormat nbits (BitVec.ofNat 16 w)) (BitVec.ofNat 16 w)).toOption

end Sys2Proof
end

