-- ==== Sys2Proof/Config.lean ====
section
/-! DEFINITION. What one TWBF is configured with (R7, R8, R10, R20), whose turn it is, and the one free value: the
choice of the next agent (R197). -/

namespace Sys2Proof

/-- The parameters of the step relation, fixed for an instance; no step writes them (R20).
`capIx` and `depthIx` hold N - 1 and T - 1, so that 1 <= N <= 32767 (R7) and 1 <= T <= 255 (R8) hold of
every value of the type. -/
structure Params where
  capIx     : Fin 32767
  depthIx   : Fin 255
  /-- HANDLERS (R10): handler id and program, the first entry of an id counting (log 15). -/
  handlers  : List (Byte × List Word)
  /-- The FG program (R20, R70). -/
  fgProgram : List Word
  deriving DecidableEq, Repr

/-- FIFO_CAP, written N (R7). -/
def Params.fifoCap (p : Params) : Nat := p.capIx.val + 1

/-- TX_DEPTH, written T (R8). -/
def Params.txDepth (p : Params) : Nat := p.depthIx.val + 1

theorem Params.fifoCap_pos (p : Params) : 0 < p.fifoCap := Nat.succ_pos _

theorem Params.fifoCap_le (p : Params) : p.fifoCap ≤ 32767 := p.capIx.isLt

theorem Params.txDepth_pos (p : Params) : 0 < p.txDepth := Nat.succ_pos _

/-- One step of one of the four agents (R6); the BUS agent's names the symbol it presents. -/
inductive AgentTurn where
  | fg
  | svc
  | cb
  | bus (w : Word)
  deriving DecidableEq, Repr, Inhabited

/-- FREE VALUE (R197, log 2): which agent's step comes next once the schedule of the state is used up, by the number of
the turn. It has no body, so nothing can be proved of its values. -/
opaque Config.freeTurn : Nat → AgentTurn

/-- DESIGN CHOICE (log 1): the parameters of `State.reset`. The spec leaves every one of them open (R7, R8, R10). -/
def Params.atReset : Params := { capIx := 1, depthIx := 0, handlers := [], fgProgram := [] }

end Sys2Proof
end

