-- ==== Sys2Proof/Machine/State.lean ====
section
/-! DEFINITION. The state of one TWBF instance (R20), the reasons a step can stop, and the state after reset (R46). -/

namespace Sys2Proof.Machine

/-- ROLE (R22, R86). -/
inductive Role where
  | uninit
  | leader
  | follower
  deriving DecidableEq, Repr

/-- PHASE (R30, R85, R111). -/
inductive Phase where
  | off
  | idle
  | aholdW
  | aholdR
  | rx
  | rxhold
  | txbusy
  | txhold
  | nacked
  deriving DecidableEq, Repr

/-- The event flags, the bits of IF and IEN (R24, R82). -/
inductive Flag where
  | arblost
  | buserr
  | sstop
  | addr
  | rxdatav
  | ack
  deriving DecidableEq, Repr

/-- SV_STATE (R39). -/
inductive SvState where
  | idle
  | run
  | call
  deriving DecidableEq, Repr

/-- CB_KIND (R40). -/
inductive CbKind where
  | rx
  | req
  deriving DecidableEq, Repr

/-- FG_MICRO (R37). -/
inductive FgMicro where
  | none
  | open1 (r : Word)
  | open2 (r : Word) (b : Byte)
  deriving DecidableEq, Repr

/-- An entry of BUS_OUT (R42). -/
inductive BusOut where
  | ack
  | nack
  | byte (b : Byte)
  deriving DecidableEq, Repr

/-- An entry of CB_LOG (R43). -/
inductive CbEntry where
  | rx (count : Word)
  | req
  deriving DecidableEq, Repr

/-- The context a command is issued in (R165, R207). -/
inductive Ctx where
  | fg
  | cb (kind : CbKind)
  deriving DecidableEq, Repr

/-- The FAULT record: a reason of R191 with the information R191 records. -/
inductive FaultRecord where
  /-- Code 1: the word spells no command (R72). -/
  | illegalCommand (w : Word) (ctx : Ctx)
  /-- Code 2: a role or registration command from a callback (R156). -/
  | cbIllegalOp (w : Word)
  /-- Code 3: WRITE with FTIP = 1 outside the on-request handler (R169). -/
  | writeContext (w : Word) (ctx : Ctx)
  /-- Code 4: a callback READ while a foreground READ is open (R104). -/
  | consumerRace (w : Word)
  deriving DecidableEq, Repr

/-- The REFUSED reason (R195). -/
inductive RefusedReason where
  /-- Code 1: a follower data command in LEADER. -/
  | leaderPath
  deriving DecidableEq, Repr

/-- What a FIFO port operation returns to its issuer (R91 to R98). -/
inductive FifoReply where
  /-- STORE took the byte. -/
  | ok
  /-- STORE found the FIFO full. -/
  | rejected
  /-- READ returns a byte. -/
  | byte (b : Byte)
  /-- READ found the FIFO empty. -/
  | empty
  /-- A foreground READ is between C1 and C3 and has returned nothing yet. -/
  | pending
  /-- AVAILABLE. -/
  | count (c : Nat)
  /-- ISFULL. -/
  | full (f : Bool)
  /-- CLEAR returns nothing. -/
  | done
  deriving DecidableEq, Repr

/-- The state of one instance. Every element R20 names, under its own name, then the parameters and the model's own
fields. `ifReg` and `ien` are read and written through Machine/Flags.lean only, where bits 7:6 are hard-wired 0. -/
structure State where
  role       : Role            -- R22
  ownAddr    : Addr7           -- R23
  ifReg      : BitVec 8        -- IF, R24
  ien        : BitVec 8        -- IEN, R26
  addrStatus : BitVec 8        -- R28
  rxData     : Byte            -- R29
  phase      : Phase           -- R30
  addressed  : Bool            -- R32
  txq        : List Byte       -- R33, oldest first
  ftip       : Bool            -- R34
  fifoMem    : List Host.Cell  -- FIFO_MEM, R35, R52: slot and byte, slots rising, no 0x00 entry (log 7)
  wr         : Word            -- WR, R35
  rd         : Word            -- RD, R35
  regRx      : Byte            -- R38
  regReq     : Byte            -- R38
  svState    : SvState         -- R39
  svSnap     : BitVec 6        -- R39
  svNext     : Fin 7           -- R39
  cbKind     : CbKind          -- R40
  cbHid      : Byte            -- R40
  cbPc       : Nat             -- R40
  cbArg      : Word            -- R40
  fgPc       : Nat             -- R41
  fgMicro    : FgMicro         -- R37
  busOut     : List BusOut     -- R42
  cbLog      : List CbEntry    -- R43
  fgRes      : List Word       -- R45
  cbRes      : List Word       -- R45
  fault      : Option FaultRecord    -- R44
  refused    : Option RefusedReason  -- R44
  /-- The parameters (R20): never written by a step (log 1). -/
  params     : Params
  /-- The turns still to come: the free choice of R197 as data (log 2). -/
  sched      : List AgentTurn
  /-- How many turns were taken: the index of the free turn once `sched` is used up (log 2). -/
  tick       : Nat
  /-- What a FIFO port operation returned to its issuer (log 10). -/
  fifoReply  : Option FifoReply
  deriving DecidableEq, Repr

/-- Why a step stops with a fault. -/
inductive Fault where
  /-- Raised by `step`: FAULT is set, so no agent has a step (R190, R197). Safe: the spec calls the state terminal. -/
  | modelFault (r : FaultRecord)
  deriving DecidableEq, Repr

/-- Why a step answers no state without FAULT being set. -/
inductive Refusal where
  /-- Raised by an arm of `exec` whose instruction has no meaning yet. Safe. -/
  | notModelled (mnemonic : String)
  /-- Raised by `step`: REFUSED is LEADER_PATH, so no agent has a step (R194, R197). Safe. -/
  | leaderPath
  /-- Raised where the agent whose turn it is has no step in this state (R165, R197), and by an internal row outside the
  context R90 or R129 has it issued in. Safe: R197 chooses among enabled steps only. -/
  | noStep
  /-- Raised by a bus symbol that R113 does not allow in the present phase. Safe: "the BUS agent has no such step". -/
  | notAdmitted
  /-- Raised by a BUS turn whose word spells no input symbol (R80). Safe: "the BUS agent never presents one". -/
  | reservedSymbol
  deriving DecidableEq, Repr

/-- What a meaning answers. -/
abbrev Out := Host.Outcome State Fault Refusal

/-- The reset state (R46, R216) of an instance with parameters `p`, whose FIFO storage holds `mem` ("unspecified: any
bytes") and whose agents take the turns `sched`. -/
def State.resetWith (p : Params) (mem : List Host.Cell) (sched : List AgentTurn) : State where
  role := .uninit
  ownAddr := 0x00
  ifReg := 0x00
  ien := 0x00
  addrStatus := 0x00
  rxData := 0x00
  phase := .off
  addressed := false
  txq := []
  ftip := false
  fifoMem := mem
  wr := 0
  rd := 0
  regRx := 0
  regReq := 0
  svState := .idle
  svSnap := 0
  svNext := 0
  cbKind := .rx
  cbHid := 0
  cbPc := 0
  cbArg := 0
  fgPc := 0
  fgMicro := .none
  busOut := []
  cbLog := []
  fgRes := []
  cbRes := []
  fault := none
  refused := none
  params := p
  sched := sched
  tick := 0
  fifoReply := none

/-- The machine right after reset: the parameters of `Params.atReset` (log 1), no FIFO slot listed (log 7), no program
and no turn placed (log 9). -/
def State.reset : State := State.resetWith Params.atReset [] []

end Sys2Proof.Machine
end

