-- ==== Sys2Proof/Machine/Flags.lean ====
section
/-! DEFINITION. The event flag registers IF and IEN, the request IRQ, the hold, and the numbers of ROLE and PHASE
(R22, R24 to R27, R31, R82, R85, R86). -/

namespace Sys2Proof.Machine

/-- The bit number of a flag (R24, R82). -/
def Flag.bit : Flag → Fin 6
  | .arblost => 0
  | .buserr => 1
  | .sstop => 2
  | .addr => 3
  | .rxdatav => 4
  | .ack => 5

/-- The one bit of a flag in IF or IEN. -/
def Flag.mask (f : Flag) : BitVec 8 := 1#8 <<< f.bit.val

/-- Bits 5:0, the bits that exist: bits 7:6 of IF and IEN are hard-wired 0 (R24, R26, R47). -/
def flagBits : BitVec 8 := 0x3F

/-- Reading IF (R24). -/
def State.readIF (s : State) : BitVec 8 := s.ifReg &&& flagBits

/-- Reading IEN (R26). -/
def State.readIEN (s : State) : BitVec 8 := s.ien &&& flagBits

/-- Writing all of IF. -/
def State.writeIF (s : State) (v : BitVec 8) : State := { s with ifReg := v &&& flagBits }

/-- Writing all of IEN. -/
def State.writeIEN (s : State) (v : BitVec 8) : State := { s with ien := v &&& flagBits }

/-- `IF[j] <- 1`: the front end raises a flag (R25). -/
def State.setFlag (s : State) (f : Flag) : State := s.writeIF (s.readIF ||| f.mask)

/-- `IF[j] <- 0`: the service engine clears one flag (R25, R144). -/
def State.clearFlag (s : State) (f : Flag) : State := s.writeIF (s.readIF &&& ~~~ f.mask)

/-- Bit j of IF. -/
def State.flag (s : State) (f : Flag) : Bool := s.readIF.getLsbD f.bit.val

/-- `IRQ = ((IF & IEN) != 0)` (R27). -/
def State.irq (s : State) : Bool := (s.readIF &&& s.readIEN) != 0

/-- `HOLD` of a phase (R31). -/
def Phase.hold : Phase → Bool
  | .aholdW | .aholdR | .rxhold | .txhold => true
  | .off | .idle | .rx | .txbusy | .nacked => false

/-- The code of PHASE (R85). -/
def Phase.code : Phase → BitVec 4
  | .off => 0
  | .idle => 1
  | .aholdW => 2
  | .aholdR => 3
  | .rx => 4
  | .rxhold => 5
  | .txbusy => 6
  | .txhold => 7
  | .nacked => 8

/-- The code of ROLE (R22, R86). -/
def Role.code : Role → BitVec 2
  | .uninit => 0
  | .leader => 1
  | .follower => 2

/-- The code of a fault (R191). -/
def FaultRecord.code : FaultRecord → Nat
  | .illegalCommand _ _ => 1
  | .cbIllegalOp _ => 2
  | .writeContext _ _ => 3
  | .consumerRace _ => 4

/-- The code of a refusal (R195). -/
def RefusedReason.code : RefusedReason → Nat
  | .leaderPath => 1

end Sys2Proof.Machine
end

