-- ==== Sys2Proof/Machine/Operands.lean ====
section
/-! DEFINITION. Where operands come from and results go: the issuing context, the words the agents fetch, result words
and output words, and the numbered view of the registers (R49, R76, R79, R165). -/

namespace Sys2Proof.Machine

/-- The context that issues the next command word: FG while the service engine is idle and no READ of its own is open, CB
while a callback runs, nobody while the engine services flags (R165, R197; log 12). -/
def State.issuer (s : State) : Option Ctx :=
  match s.svState with
  | .idle => if s.fgMicro = .none then some .fg else none
  | .call => some (.cb s.cbKind)
  | .run => none

/-- `HANDLERS` has an entry for a handler id; id 0 means no handler (R10, R153; log 15). -/
def State.handlerOf (s : State) (h : Byte) : Option (List Word) :=
  if h = 0 then none else s.params.handlers.lookup h

/-- The FG program's word at FG_PC (R41, R165). -/
def State.fgWord (s : State) : Option Word := s.params.fgProgram[s.fgPc]?

/-- The running handler's word at CB_PC; none once the program is at its end (R151, R152; log 16). -/
def State.cbWord (s : State) : Option Word := ((s.handlerOf s.cbHid).getD [])[s.cbPc]?

/-- The snapshot bits not yet considered, as an IF8 word: `SV_SNAP[j]` for `SV_NEXT <= j` (R144). -/
def State.svcWord (s : State) : Word :=
  (s.svSnap.setWidth 16 >>> s.svNext.val) <<< s.svNext.val

/-- `zext_16` of a byte (R76). -/
def byteResult (b : Byte) : Word := b.setWidth 16

/-- "No data" (R76, R103). -/
def noData : Word := 0xFFFF

/-- COUNT as a result word (R76). -/
def countResult (c : Nat) : Word := BitVec.ofNat 16 c

/-- The BUS16 word of an output symbol (R79). -/
def BusOut.word : BusOut → Word
  | .ack => encode .outAck
  | .nack => encode .outNack
  | .byte b => encode (.outByte b)

/-- The elements that R49 numbers. -/
inductive Element where
  | role
  | ownAddr
  | if_
  | ien
  | addrStatus
  | rxData
  | phase
  | addressed
  | ftip
  | wr
  | rd
  | regRx
  | regReq
  deriving DecidableEq, Repr

/-- The element numbers (R49). -/
def Element.number : Element → Nat
  | .role => 0
  | .ownAddr => 1
  | .if_ => 2
  | .ien => 3
  | .addrStatus => 4
  | .rxData => 5
  | .phase => 6
  | .addressed => 7
  | .ftip => 8
  | .wr => 9
  | .rd => 10
  | .regRx => 11
  | .regReq => 12

/-- The value of a numbered element, in the codes of R85 and R86; an observer's view, no command reads it (R47). -/
def State.element (s : State) : Element → Word
  | .role => s.role.code.setWidth 16
  | .ownAddr => s.ownAddr.setWidth 16
  | .if_ => s.readIF.setWidth 16
  | .ien => s.readIEN.setWidth 16
  | .addrStatus => s.addrStatus.setWidth 16
  | .rxData => s.rxData.setWidth 16
  | .phase => s.phase.code.setWidth 16
  | .addressed => (BitVec.ofBool s.addressed).setWidth 16
  | .ftip => (BitVec.ofBool s.ftip).setWidth 16
  | .wr => s.wr
  | .rd => s.rd
  | .regRx => s.regRx.setWidth 16
  | .regReq => s.regReq.setWidth 16

end Sys2Proof.Machine
end

