-- ==== Sys2Proof/Machine/Ops.lean ====
section
/-! DEFINITION. The operations every meaning is made of: the FIFO storage and the FIFO port (41_ring_buffer.md), the
transmit queue and the front-end commands (42_bus_protocol.md sections 3 and 4), faults and refusals (R190, R194),
interrupt entry and exit, callback call and return (43_event_service.md), and issuing a command (R165). -/

namespace Sys2Proof.Machine

/-! ### FIFO storage (R52) -/

/-- What a slot that is not listed reads as (log 7). -/
def Memory.unlisted : Byte := 0x00

/-- The byte of a slot. -/
def Memory.read : List Host.Cell → Nat → Byte
  | [], _ => Memory.unlisted
  | (k, b) :: m, a => if k = a then b else Memory.read m a

/-- Put a byte into a slot, keeping the slots rising and listing no `Memory.unlisted`. -/
def Memory.write : List Host.Cell → Nat → Byte → List Host.Cell
  | [], a, v => if v = Memory.unlisted then [] else [(a, v)]
  | (k, b) :: m, a, v =>
    if a < k then (if v = Memory.unlisted then (k, b) :: m else (a, v) :: (k, b) :: m)
    else if a = k then (if v = Memory.unlisted then m else (a, v) :: m)
    else (k, b) :: Memory.write m a v

/-- Every slot listed is at least `lo`, the slots rise, and no entry reads as an unlisted slot does. -/
def Memory.wfFrom : Nat → List Host.Cell → Bool
  | _, [] => true
  | lo, (k, b) :: m => decide (lo ≤ k) && b != Memory.unlisted && Memory.wfFrom (k + 1) m

/-- The canonical form: equal memories are equal lists. -/
def Memory.wf (m : List Host.Cell) : Bool := Memory.wfFrom 0 m

/-- `MemRead(i, 1)`, for a slot 0 <= i < N (R52). -/
def State.memRead (s : State) (i : Fin s.params.fifoCap) : Byte := Memory.read s.fifoMem i.val

/-- `MemWrite(i, 1, v)`, for a slot 0 <= i < N (R52). -/
def State.memWrite (s : State) (i : Fin s.params.fifoCap) (v : Byte) : State :=
  { s with fifoMem := Memory.write s.fifoMem i.val v }

/-! ### Index arithmetic (R12, R99) -/

/-- `(w - r) mod m`, the non-negative remainder (R12). -/
def modSub (w r m : Nat) : Nat := (((w : Int) - (r : Int)) % (m : Int)).toNat

/-- `(x + 1) mod 2N` (R99). -/
def State.advance (s : State) (x : Word) : Word := BitVec.ofNat 16 ((x.toNat + 1) % (2 * s.params.fifoCap))

/-- The slot of an index, `x mod N`: no slot outside 0..N-1 is ever formed (R52, R99). -/
def State.slot (s : State) (x : Word) : Fin s.params.fifoCap :=
  ⟨x.toNat % s.params.fifoCap, Nat.mod_lt _ s.params.fifoCap_pos⟩

/-- `COUNT = (WR - RD) mod 2N` (R36). -/
def State.count (s : State) : Nat := modSub s.wr.toNat s.rd.toNat (2 * s.params.fifoCap)

/-- `FULL = (COUNT = N)` (R36), and ISFULL's answer (R97). -/
def State.isFull (s : State) : Bool := s.count == s.params.fifoCap

/-- `CONS_OPEN = (FG_MICRO != NONE)` (R37). -/
def State.consOpen (s : State) : Bool := s.fgMicro != .none

/-! ### FIFO port operations (R91 to R98): the new state and what the issuer is told -/

/-- STORE (R91): P1 rejects when full, P2 writes the slot, P3 publishes the index. -/
def State.fifoPut (s : State) (b : Byte) : State × FifoReply :=
  if s.isFull then (s, .rejected)
  else
    ({ s.memWrite (s.slot s.wr) b with wr := s.advance s.wr }, .ok)

/-- READ in one step (R92), from a callback; the check of CONS_OPEN is the command's. -/
def State.fifoGet (s : State) : State × FifoReply :=
  if s.wr = s.rd then (s, .empty)
  else
    ({ s with rd := s.advance s.rd }, .byte (s.memRead (s.slot s.rd)))

/-- READ from the foreground, the step that FG_MICRO says is next: C1 (R93), C2 (R94) or C3 (R95). -/
def State.fifoGetFg (s : State) : State × FifoReply :=
  match s.fgMicro with
  | .none => if s.wr = s.rd then (s, .empty) else ({ s with fgMicro := .open1 s.rd }, .pending)
  | .open1 r => ({ s with fgMicro := .open2 r (s.memRead (s.slot r)) }, .pending)
  | .open2 r b => ({ s with rd := s.advance r, fgMicro := .none }, .byte b)

/-- CLEAR (R98): FIFO_MEM is not written. -/
def State.fifoReset (s : State) : State := { s with wr := 0, rd := 0 }

/-! ### Transmit queue and front-end commands -/

/-- `emit` (R14, R42). -/
def State.emit (s : State) (o : BusOut) : State := { s with busOut := s.busOut ++ [o] }

/-- Pop the head of TXQ and send it (R126); it is used on a queue that holds a byte only, and does nothing on an empty
one. -/
def State.sendHead (s : State) : State :=
  match s.txq with
  | [] => s
  | b :: rest => { s.emit (.byte b) with txq := rest, phase := .txbusy }

/-- `fe_cmd(ACK)` (R128). -/
def State.feCmdAck (s : State) : State :=
  match s.phase with
  | .aholdW | .rxhold => { s.emit .ack with phase := .rx }
  | .aholdR => if s.txq = [] then s else (s.emit .ack).sendHead
  | .txhold => s.sendHead
  | .off | .idle | .rx | .txbusy | .nacked => s

/-- `fe_cmd(NACK)` (R129). -/
def State.feCmdNack (s : State) : State :=
  match s.phase with
  | .aholdW | .rxhold | .aholdR => { s.emit .nack with phase := .nacked }
  | .off | .idle | .rx | .txbusy | .txhold | .nacked => s

/-! ### Faults and refusals: the one operation each (R190, R194) -/

/-- `raise Fault(reason)`: FAULT takes the reason if it holds none; nothing else changes (R190, R44). -/
def State.raiseFault (s : State) (r : FaultRecord) : State :=
  { s with fault := match s.fault with | some f => some f | none => some r }

/-- `refuse(reason)`: REFUSED takes the reason if it holds none; nothing else changes (R194, R44). -/
def State.refuse (s : State) (r : RefusedReason) : State :=
  { s with refused := match s.refused with | some q => some q | none => some r }

/-! ### Issuing a command (R165) -/

/-- `result(v)` and the step to the next word, for the issuing agent (R14, R45, R165). -/
def State.result (s : State) (ctx : Ctx) (v : Word) : State :=
  match ctx with
  | .fg => { s with fgRes := s.fgRes ++ [v], fgPc := s.fgPc + 1 }
  | .cb _ => { s with cbRes := s.cbRes ++ [v], cbPc := s.cbPc + 1 }

/-- A command only FG may issue (ACTIVATE_L, ACTIVATE_F, DEACTIVATE, ON_RECEIVE, ON_REQUEST): from a callback it is
Fault(CB_ILLEGAL_OP) (R156, R165, R207). `w` is the word, for the record. -/
def State.issueFgOnly (s : State) (w : Word) (rule : State) : Out :=
  match s.issuer with
  | some .fg => .next rule
  | some (.cb _) => .next (s.raiseFault (.cbIllegalOp w))
  | none => .refused .noStep

/-- A data command (WRITE, READ, AVAILABLE): refused LEADER_PATH in LEADER, else its rule in its context (R165, R195). -/
def State.issueData (s : State) (rule : Ctx → State) : Out :=
  match s.issuer with
  | some ctx => if s.role = .leader then .next (s.refuse .leaderPath) else .next (rule ctx)
  | none => .refused .noStep

/-! ### Interrupt entry and exit, the service step, callbacks -/

/-- The entry step (R142): latch the enabled pending flags; nothing of FG is saved (R202). -/
def State.serviceEntry (s : State) : State :=
  { s with svSnap := (s.readIF &&& s.readIEN).setWidth 6, svNext := 0, svState := .run }

/-- The exit step (R154): nothing is restored (R204). -/
def State.serviceExit (s : State) : State :=
  { s with svState := .idle, svSnap := 0, svNext := 0 }

/-- The service step of one flag (R144): its bit is cleared and SV_NEXT moves past it before its branch runs. -/
def State.serviceStep (s : State) (f : Flag) (branch : State → State) : Out :=
  match s.svState with
  | .run => .next (branch { s.clearFlag f with svNext := f.bit.succ })
  | .idle | .call => .refused .noStep

/-- The service engine is in its RXDATAV branch (R149): the service step has moved SV_NEXT past that bit (R144). -/
def State.inRxdatavBranch (s : State) : Bool := s.svState == .run && s.svNext == Flag.rxdatav.bit.succ

/-- The handler registered for a kind of call (R38, R151). -/
def State.registered (s : State) : CbKind → Byte
  | .rx => s.regRx
  | .req => s.regReq

/-- The CB_LOG entry of a call (R43, R151). -/
def CbKind.entry (kind : CbKind) (arg : Word) : CbEntry :=
  match kind with
  | .rx => .rx arg
  | .req => .req

/-- `call(kind, arg)` (R151); with no handler it does nothing (R153). -/
def State.callHandler (s : State) (kind : CbKind) (arg : Word) : State :=
  match s.handlerOf (s.registered kind) with
  | none => s
  | some _ =>
    { s with cbLog := s.cbLog ++ [kind.entry arg], cbKind := kind, cbHid := s.registered kind, cbPc := 0,
             cbArg := arg, svState := .call }

/-- The return of a callback (R152). -/
def State.callbackReturn (s : State) : State := { s with svState := .run }

end Sys2Proof.Machine
end

