-- ==== Sys2Proof/Machine/BusSymbols.lean ====
section
/-! DEFINITION. The seven input symbols of the bus (R114 to R124) and their admission (R113). -/

namespace Sys2Proof.Machine

/-- An entry of the table of R113. -/
inductive Admission where
  /-- E: admitted with the symbol's effect. -/
  | effect
  /-- I: admitted and ignored. -/
  | ignored
  /-- -: the BUS agent has no such step. -/
  | notAdmitted
  deriving DecidableEq, Repr

/-- The START_ADDR column of R113, which is the STOP column too. -/
def Phase.admitsStartStop : Phase → Admission
  | .off => .ignored
  | .idle | .rx | .nacked => .effect
  | .aholdW | .aholdR | .rxhold | .txbusy | .txhold => .notAdmitted

/-- The WBYTE column of R113. -/
def Phase.admitsWbyte : Phase → Admission
  | .off | .idle | .nacked => .ignored
  | .rx => .effect
  | .aholdW | .aholdR | .rxhold | .txbusy | .txhold => .notAdmitted

/-- The CACK and CNACK columns of R113. -/
def Phase.admitsAnswer : Phase → Admission
  | .off | .idle | .rx | .nacked => .ignored
  | .txbusy => .effect
  | .aholdW | .aholdR | .rxhold | .txhold => .notAdmitted

/-- The ARBLOST and BUSERR columns of R113. -/
def Phase.admitsFault : Phase → Admission
  | .off => .ignored
  | .idle | .aholdW | .aholdR | .rx | .rxhold | .txbusy | .txhold | .nacked => .effect

/-- One BUS step: the symbol's effect, nothing, or no such step (R113). -/
def State.admitSymbol (s : State) (a : Admission) (effect : State) : Out :=
  match a with
  | .effect => .next effect
  | .ignored => .next s
  | .notAdmitted => .refused .notAdmitted

/-- START_ADDR admitted with effect: an address match (R114), or another target's address (R115). -/
def State.startAddr (s : State) (a : Addr7) (d : Dir) : State :=
  if a = s.ownAddr then
    State.setFlag
      { s with addrStatus := addressByte a d, addressed := true, txq := [],
               phase := match d with | .read => .aholdR | .write => .aholdW } .addr
  else { s with phase := .idle }

/-- START_ADDR (R114, R115). -/
def execStartAddr (a : Addr7) (d : Dir) (s : State) : Out := s.admitSymbol s.phase.admitsStartStop (s.startAddr a d)

/-- WBYTE (R116, R117): RXDATA is written before the flag is raised (R130). -/
def execWbyte (b : Byte) (s : State) : Out :=
  s.admitSymbol s.phase.admitsWbyte (State.setFlag { s with rxData := b, phase := .rxhold } .rxdatav)

/-- CACK in TXBUSY (R118): a queued byte goes out at once, else the bus is held. -/
def State.acknowledged (s : State) : State :=
  if s.txq = [] then { s.setFlag .ack with phase := .txhold } else (s.setFlag .ack).sendHead

/-- CACK (R118, R120). -/
def execCack (s : State) : Out := s.admitSymbol s.phase.admitsAnswer s.acknowledged

/-- CNACK (R119, R120): no flag, and TXQ is kept. -/
def execCnack (s : State) : Out := s.admitSymbol s.phase.admitsAnswer { s with phase := .nacked }

/-- STOP (R121): SSTOP only if the block was addressed. -/
def execStop (s : State) : Out :=
  s.admitSymbol s.phase.admitsStartStop
    { (if s.addressed then s.setFlag .sstop else s) with addressed := false, txq := [], phase := .idle }

/-- What a bus fault does to the front end (R122, R123): the abort; RXDATA, the FIFO and the other flags are kept. -/
def State.busFault (s : State) (f : Flag) : State :=
  { s.setFlag f with phase := .idle, addressed := false, txq := [] }

/-- ARBLOST (R122). -/
def execArblost (s : State) : Out := s.admitSymbol s.phase.admitsFault (s.busFault .arblost)

/-- BUSERR (R123). -/
def execBuserr (s : State) : Out := s.admitSymbol s.phase.admitsFault (s.busFault .buserr)

end Sys2Proof.Machine
end

