-- ==== Sys2Proof/Machine/DataCommands.lean ====
section
/-! DEFINITION. WRITE, READ, AVAILABLE (R169 to R171). -/

namespace Sys2Proof.Machine

/-- The rule of WRITE, after the checks of R165: FTIP = 0 fails before the context is looked at (R193); TXQ takes a byte
only below T (R125, log 13), and the ACK follows in the same step (R169). -/
def State.writeRule (s : State) (b : Byte) (ctx : Ctx) : State :=
  if s.ftip = false then s.result ctx 0x0000
  else if ctx ≠ .cb .req then s.raiseFault (.writeContext (encode (.write b)) ctx)
  else if s.txq.length < s.params.txDepth then
    (State.feCmdAck { s with txq := s.txq ++ [b] }).result ctx 0x0001
  else s.result ctx 0x0000

/-- WRITE (R169). -/
def execWrite (b : Byte) (s : State) : Out := s.issueData (s.writeRule b)

/-- A READ that has returned: its result word (R76, R170). A READ that is still open returns nothing yet. -/
def State.readResult (ctx : Ctx) : State × FifoReply → State
  | (s, .byte b) => s.result ctx (byteResult b)
  | (s, .empty) => s.result ctx noData
  | (s, _) => s

/-- The rule of READ, after the checks of R165: three steps from FG (R93 to R95), one from CB (R92), which faults while a
foreground READ is open (R104). -/
def State.readRule (s : State) : Ctx → State
  | .fg => State.readResult .fg s.fifoGetFg
  | .cb k =>
    if s.consOpen then s.raiseFault (.consumerRace (encode .read)) else State.readResult (.cb k) s.fifoGet

/-- READ (R170). Steps C2 and C3 of an open foreground READ pass no check again: the word was decoded and checked at C1. -/
def execRead (s : State) : Out :=
  if s.svState = .idle ∧ s.consOpen then .next (s.readRule .fg) else s.issueData s.readRule

/-- AVAILABLE (R171): COUNT, in one step, in any context. -/
def execAvailable (s : State) : Out := s.issueData fun ctx => s.result ctx (countResult s.count)

end Sys2Proof.Machine
end

