-- ==== Sys2Proof/Machine/FifoPort.lean ====
section
/-! DEFINITION. The FIFO port operations as rows of their own (R91 to R98), each for the issuers R90 gives it. No step is
such a row alone: the agents' steps issue them, by the same operations of Machine/Ops.lean (log 3). The reply goes to
`fifoReply` (log 10). -/

namespace Sys2Proof.Machine

/-- Keep what the operation returned. -/
def State.withReply : State × FifoReply → State
  | (s, r) => { s with fifoReply := some r }

/-- An operation that only the RXDATAV branch issues (R90). -/
def State.engineOp (s : State) (op : State × FifoReply) : Out :=
  if s.inRxdatavBranch then .next (State.withReply op) else .refused .noStep

/-- FIFO_STORE (R91) of the received byte, the only byte ever stored (R90, R149; log 10). -/
def execFifoStore (s : State) : Out := s.engineOp (s.fifoPut s.rxData)

/-- FIFO_READ (R92 to R95): the next step of the foreground's READ, or the one step of a callback's, which the consumer
race of R104 faults. -/
def execFifoRead (s : State) : Out :=
  match s.svState with
  | .idle => .next (State.withReply s.fifoGetFg)
  | .call =>
    if s.consOpen then .next (s.raiseFault (.consumerRace (encode .read))) else .next (State.withReply s.fifoGet)
  | .run => .refused .noStep

/-- FIFO_AVAILABLE (R96), from FG or CB. -/
def execFifoAvailable (s : State) : Out :=
  match s.issuer with
  | some _ => .next (State.withReply (s, .count s.count))
  | none => .refused .noStep

/-- FIFO_ISFULL (R97). -/
def execFifoIsfull (s : State) : Out := s.engineOp (s, .full s.isFull)

/-- FIFO_CLEAR (R98), in foreground context with no READ open (R90, R105). -/
def execFifoClear (s : State) : Out :=
  match s.issuer with
  | some .fg => .next (State.withReply (s.fifoReset, .done))
  | some (.cb _) => .refused .noStep
  | none => .refused .noStep

end Sys2Proof.Machine
end

