-- ==== Sys2Proof/Machine/OutputSymbols.lean ====
section
/-! DEFINITION. The output symbols (R79) and the front-end commands (R128, R129) as rows of their own. No step
is such a row alone: the agents' steps issue them, by the same operations of Machine/Ops.lean (log 3). -/

namespace Sys2Proof.Machine

/-- OUT_ACK: the symbol is appended to BUS_OUT (R14, R42). -/
def execOutAck (s : State) : Out := .next (s.emit .ack)

/-- OUT_NACK. -/
def execOutNack (s : State) : Out := .next (s.emit .nack)

/-- OUT_BYTE. -/
def execOutByte (b : Byte) (s : State) : Out := .next (s.emit (.byte b))

/-- FE_ACK (R128). -/
def execFeAck (s : State) : Out := .next s.feCmdAck

/-- FE_NACK (R129), "issued only by the service engine's RXDATAV branch when the FIFO is full". -/
def execFeNack (s : State) : Out :=
  if s.inRxdatavBranch && s.isFull then .next s.feCmdNack else .refused .noStep

end Sys2Proof.Machine
end

