-- ==== Sys2Proof/Machine/Registration.lean ====
section
/-! DEFINITION. ON_RECEIVE, ON_REQUEST, and a word that spells no command (R172 to R174). -/

namespace Sys2Proof.Machine

/-- ON_RECEIVE (R172): in every role; replaces the earlier registration. -/
def execOnReceive (hid : Byte) (s : State) : Out :=
  s.issueFgOnly (encode (.onReceive hid)) (State.result { s with regRx := hid } .fg 0x0000)

/-- ON_REQUEST (R173). -/
def execOnRequest (hid : Byte) (s : State) : Out :=
  s.issueFgOnly (encode (.onRequest hid)) (State.result { s with regReq := hid } .fg 0x0000)

/-- An illegal command word, from any context, before every other check (R165, R174, R193). -/
def execIllegal (w : Word) (s : State) : Out :=
  match s.issuer with
  | some ctx => .next (s.raiseFault (.illegalCommand w ctx))
  | none => .refused .noStep

end Sys2Proof.Machine
end

