-- ==== Sys2Proof/Machine/RoleCommands.lean ====
section
/-! DEFINITION. ACTIVATE_L, ACTIVATE_F, DEACTIVATE (R166 to R168). -/

namespace Sys2Proof.Machine

/-- ACTIVATE_L (R166): a no-op unless the role is UNINIT; leader setup is out of scope (R5 (b)). -/
def execActivateL (s : State) : Out :=
  s.issueFgOnly (encode .activateL)
    (State.result (if s.role = .uninit then { s with role := .leader } else s) .fg 0x0000)

/-- The state ACTIVATE_F sets up in UNINIT (R167). -/
def State.activate (s : State) (addr : Addr7) : State :=
  { (({ s with role := .follower, ownAddr := addr }.fifoReset).writeIF 0x00).writeIEN 0x3F with
    ftip := false, txq := [], addressed := false, phase := .idle }

/-- ACTIVATE_F (R167): "valid only from Uninitialized", else "silently ignored". -/
def execActivateF (addr : Addr7) (s : State) : Out :=
  s.issueFgOnly (encode (.activateF addr))
    (State.result (if s.role = .uninit then s.activate addr else s) .fg 0x0000)

/-- The state DEACTIVATE leaves (R168); OWN_ADDR, ADDR_STATUS, RXDATA, REG_RX and REG_REQ are kept. -/
def State.deactivate (s : State) : State :=
  { ((s.writeIEN 0x00).writeIF 0x00).fifoReset with
    phase := .off, addressed := false, txq := [], ftip := false, role := .uninit }

/-- DEACTIVATE (R168), in every role. -/
def execDeactivate (s : State) : Out :=
  s.issueFgOnly (encode .deactivate) (s.deactivate.result .fg 0x0000)

end Sys2Proof.Machine
end

