-- ==== Sys2Proof/Machine/ServiceBranches.lean ====
section
/-! DEFINITION. The six service branches, each inside the service step that clears its flag (R144 to R150). -/

namespace Sys2Proof.Machine

/-- Branch 0 (R145): "no data recovery attempted"; the abort is the front end's. -/
def execIfArblost (s : State) : Out := s.serviceStep .arblost fun t => { t with ftip := false }

/-- Branch 1 (R146). -/
def execIfBuserr (s : State) : Out := s.serviceStep .buserr fun t => { t with ftip := false }

/-- Branch 2 (R147). -/
def execIfSstop (s : State) : Out := s.serviceStep .sstop fun t => { t with ftip := false }

/-- Branch 3 (R148): a reading controller calls the on-request handler, a writing one is acknowledged. -/
def State.addrBranch (s : State) : State :=
  let t := { s with ftip := true }
  match dirOfPayload t.addrStatus with
  | .read => t.callHandler .req 0
  | .write => t.feCmdAck

/-- Branch 3 (R148). -/
def execIfAddr (s : State) : Out := s.serviceStep .addr State.addrBranch

/-- Branch 4 (R149): store, acknowledge and call, or refuse the byte. -/
def State.rxdatavBranch (s : State) : State :=
  if s.isFull then s.feCmdNack
  else
    let t := (s.fifoPut s.rxData).1.feCmdAck
    t.callHandler .rx (countResult t.count)

/-- Branch 4 (R149). -/
def execIfRxdatav (s : State) : Out := s.serviceStep .rxdatav State.rxdatavBranch

/-- Branch 5 (R150). -/
def execIfAck (s : State) : Out := s.serviceStep .ack fun t => t.callHandler .req 0

end Sys2Proof.Machine
end

