-- ==== Sys2Proof/Machine/Dispatch.lean ====
section
/-! DEFINITION. exec: one arm for each row of the opcode table, each one call of the row's meaning. -/

namespace Sys2Proof.Machine

def exec (i : Instr) (s : State) : Host.Outcome State Fault Refusal :=
  match i with
  | .activateL => Sys2Proof.Machine.execActivateL s
  | .activateF addr => Sys2Proof.Machine.execActivateF addr s
  | .deactivate => Sys2Proof.Machine.execDeactivate s
  | .write b => Sys2Proof.Machine.execWrite b s
  | .read => Sys2Proof.Machine.execRead s
  | .available => Sys2Proof.Machine.execAvailable s
  | .onReceive hid => Sys2Proof.Machine.execOnReceive hid s
  | .onRequest hid => Sys2Proof.Machine.execOnRequest hid s
  | .illegal w => Sys2Proof.Machine.execIllegal w s
  | .startAddr a d => Sys2Proof.Machine.execStartAddr a d s
  | .wbyte b => Sys2Proof.Machine.execWbyte b s
  | .cack => Sys2Proof.Machine.execCack s
  | .cnack => Sys2Proof.Machine.execCnack s
  | .stop => Sys2Proof.Machine.execStop s
  | .arblost => Sys2Proof.Machine.execArblost s
  | .buserr => Sys2Proof.Machine.execBuserr s
  | .outAck => Sys2Proof.Machine.execOutAck s
  | .outNack => Sys2Proof.Machine.execOutNack s
  | .outByte b => Sys2Proof.Machine.execOutByte b s
  | .ifArblost => Sys2Proof.Machine.execIfArblost s
  | .ifBuserr => Sys2Proof.Machine.execIfBuserr s
  | .ifSstop => Sys2Proof.Machine.execIfSstop s
  | .ifAddr => Sys2Proof.Machine.execIfAddr s
  | .ifRxdatav => Sys2Proof.Machine.execIfRxdatav s
  | .ifAck => Sys2Proof.Machine.execIfAck s
  | .feAck => Sys2Proof.Machine.execFeAck s
  | .feNack => Sys2Proof.Machine.execFeNack s
  | .fifoStore => Sys2Proof.Machine.execFifoStore s
  | .fifoRead => Sys2Proof.Machine.execFifoRead s
  | .fifoAvailable => Sys2Proof.Machine.execFifoAvailable s
  | .fifoIsfull => Sys2Proof.Machine.execFifoIsfull s
  | .fifoClear => Sys2Proof.Machine.execFifoClear s

end Sys2Proof.Machine
end

