-- ==== Sys2Proof/Machine/Agents.lean ====
section
/-! DEFINITION. One step of each agent (R197), where each fetches its word, and how a word is placed there. -/

namespace Sys2Proof.Machine

/-! ### The agents -/

/-- FG: the next step of its open READ, else its next command (R165, R197). -/
def State.fgStep (s : State) : Out :=
  match s.svState with
  | .idle =>
    if s.consOpen then exec .read s
    else match s.fgWord with
      | some w => exec (decodeCmd w) s
      | none => .refused .noStep
  | .run | .call => .refused .noStep

/-- SVC: entry while idle and requested (R141, R142), the next flag's service step (R144), or exit when no snapshot bit
remains (R154); none during a callback (R151). -/
def State.svcStep (s : State) : Out :=
  match s.svState with
  | .idle => if s.irq then .next s.serviceEntry else .refused .noStep
  | .run =>
    match decodeFlags s.svcWord with
    | .instr i => exec i s
    | .rejected _ => .next s.serviceExit
  | .call => .refused .noStep

/-- CB: the next word of the running handler (R151), or the return at its end (R152). -/
def State.cbStep (s : State) : Out :=
  match s.svState with
  | .call =>
    match s.cbWord with
    | some w => exec (decodeCmd w) s
    | none => .next s.callbackReturn
  | .idle | .run => .refused .noStep

/-- BUS: one input symbol (R132); the BUS agent presents no other word (R80). -/
def State.busStep (s : State) (w : Word) : Out :=
  match decodeBus w with
  | .instr i => if i.isInputSymbol then exec i s else .refused .reservedSymbol
  | .rejected _ => .refused .reservedSymbol

/-- The step of the agent whose turn it is. -/
def State.agentStep (s : State) : AgentTurn → Out
  | .fg => s.fgStep
  | .svc => s.svcStep
  | .cb => s.cbStep
  | .bus w => s.busStep w

/-! ### Whose turn it is (R197, log 2) -/

/-- The next turn: the schedule's, else the free turn. -/
def State.nextTurn (s : State) : AgentTurn :=
  match s.sched with
  | a :: _ => a
  | [] => Config.freeTurn s.tick

/-- The state with that turn taken off the schedule; no element of R20 changes. -/
def State.takeTurn (s : State) : State := { s with sched := s.sched.tail, tick := s.tick + 1 }

/-- One step of the machine: none from a faulted or refused state (R190, R194, R197), else one of the agent whose turn
it is (R6). -/
def State.machineStep (s : State) : Out :=
  match s.fault with
  | some r => .fault (.modelFault r)
  | none =>
    match s.refused with
    | some .leaderPath => .refused .leaderPath
    | none => s.takeTurn.agentStep s.nextTurn

/-! ### Placing a word where it is fetched (log 6, log 9) -/

/-- A program with a word at a position; words up to there that were missing are 0x0000, which is illegal. -/
def placeAt (prog : List Word) (pc : Nat) (w : Word) : List Word :=
  prog.take pc ++ List.replicate (pc - prog.length) 0 ++ w :: prog.drop (pc + 1)

/-- No fault and no refusal: only then has an agent a step. -/
def State.live (s : State) : State := { s with fault := none, refused := none }

/-- Put a turn first. -/
def State.withTurn (s : State) (a : AgentTurn) : State := { s with sched := a :: s.sched }

/-- A command word at FG_PC of the FG program, FG's turn, the service engine idle and no READ open. -/
def State.withCommand (s : State) (w : Word) : State :=
  { s.live.withTurn .fg with
    svState := .idle, fgMicro := .none,
    params := { s.params with fgProgram := placeAt s.params.fgProgram s.fgPc w } }

/-- A flag word as the snapshot of a running service engine, SVC's turn. -/
def State.withFlags (s : State) (w : Word) : State :=
  { s.live.withTurn .svc with svState := .run, svSnap := w.setWidth 6, svNext := 0 }

/-- A bus word presented by BUS. -/
def State.withSymbol (s : State) (w : Word) : State := s.live.withTurn (.bus w)

/-! A row that is no step of an agent is placed by placing a step that issues it (log 3, log 9). -/

/-- The ADDR flag of a writing controller, whose branch gives fe_cmd(ACK) (R148). -/
def State.withWriteMatch (s : State) : State :=
  { s.withFlags (encode .ifAddr) with addrStatus := s.addrStatus &&& 0xFE#8 }

/-- A FIFO that holds N unread bytes. -/
def State.filled (s : State) : State :=
  { s with wr := BitVec.ofNat 16 ((s.rd.toNat + s.params.fifoCap) % (2 * s.params.fifoCap)) }

/-- A FIFO with room for a byte: one that was full is emptied. -/
def State.withRoom (s : State) : State := if s.isFull then { s with rd := s.wr } else s

/-- A role in which a data command is not refused (R195). -/
def State.outOfLeader (s : State) : State := { s with role := if s.role = .leader then .uninit else s.role }

/-- An output symbol, by a step that emits it: the answer to a held address (R128) or byte (R129), or the byte sent on a
CACK (R118). Any other bus word is presented by BUS. -/
def State.withBusWord (s : State) (w : Word) : State :=
  match decodeBus w with
  | .instr .outAck => { s.withWriteMatch with phase := .aholdW }
  | .instr .outNack => { s.filled.withFlags (encode .ifRxdatav) with phase := .rxhold }
  | .instr (.outByte b) => { s.withSymbol (encode .cack) with phase := .txbusy, txq := [b] }
  | .instr _ => s.withSymbol w
  | .rejected _ => s.withSymbol w

/-- A front-end command, by the service branch that issues it (R128, R129). -/
def State.withFrontEndCode (s : State) (w : Word) : State :=
  match decodeFe w with
  | .instr .feNack => s.filled.withFlags (encode .ifRxdatav)
  | .instr _ => s.withWriteMatch
  | .rejected _ => s

/-- A FIFO port operation, by a step that issues it (R90). -/
def State.withFifoCode (s : State) (w : Word) : State :=
  match decodeFifo w with
  | .instr .fifoStore => s.withRoom.withFlags (encode .ifRxdatav)
  | .instr .fifoRead => s.outOfLeader.withCommand (encode .read)
  | .instr .fifoAvailable => s.outOfLeader.withCommand (encode .available)
  | .instr .fifoClear => s.withCommand (encode .deactivate)
  | .instr _ => s.withFlags (encode .ifRxdatav)
  | .rejected _ => s

/-- A word of a space, placed where the machine fetches words of that space. -/
def State.withWord (s : State) (f : Format) (w : Word) : State :=
  match f with
  | .cmd16 => s.withCommand w
  | .bus16 => s.withBusWord w
  | .if8 => s.withFlags w
  | .fecmd2 => s.withFrontEndCode w
  | .fifoop3 => s.withFifoCode w

end Sys2Proof.Machine
end

