-- ==== Sys2Proof/Machine/Step.lean ====
section
/-! DEFINITION. The machine's step, and the opcode table's word placed where the next step fetches it. -/

namespace Sys2Proof.Machine

/-- One step of the machine: one atomic step of the agent whose turn it is (R57, R197). -/
def step (s : State) : Host.Outcome State Fault Refusal := s.machineStep

/-- The opcode table's word `w` of `nbits` bits, in the space `tableFormat` reads it in, placed where the next step
fetches it: the FG program, the bus or the service snapshot; a row that is no step of an agent, by a step that issues it
(log 3, log 6, log 9). -/
def State.withFetchWord (s : State) (nbits w : Nat) : State :=
  s.withWord (tableFormat nbits (BitVec.ofNat 16 w)) (BitVec.ofNat 16 w)

end Sys2Proof.Machine
end

