-- ==== Sys2Proof/Machine/Assembler.lean ====
section
/-! DEFINITION. The assembler of the spec's programs (R87, R88), on lines whose operands are numbers already: it forms the
word with the reserved field 0 and rejects an operand out of range. How a number is spelt is left out (log 23). -/

namespace Sys2Proof.Machine

/-- A line of an `FG:` or `H<hid>:` block. -/
inductive CommandLine where
  | activateL
  | activateF (addr : Nat)
  | deactivate
  | write (b : Nat)
  | read
  | available
  | onReceive (hid : Nat)
  | onRequest (hid : Nat)
  /-- The pseudo-instruction WRITE_BYTES (R88). -/
  | writeBytes (bs : List Nat)
  deriving DecidableEq, Repr

/-- A line of a `BUS:` block. -/
inductive BusLine where
  | startAddr (a : Nat) (d : Dir)
  | wbyte (b : Nat)
  | cack
  | cnack
  | stop
  | arblost
  | buserr
  deriving DecidableEq, Repr

/-- An operand of at most `w` bits; none if it is out of range. -/
def operand (w n : Nat) : Option (BitVec w) := if n < 2 ^ w then some (BitVec.ofNat w n) else none

/-- The words of a line (R87, R88); none if an operand is out of range. -/
def CommandLine.assemble : CommandLine → Option (List Word)
  | .activateL => some [encode .activateL]
  | .activateF addr => (operand 7 addr).map fun a => [encode (.activateF a)]
  | .deactivate => some [encode .deactivate]
  | .write b => (operand 8 b).map fun v => [encode (.write v)]
  | .read => some [encode .read]
  | .available => some [encode .available]
  | .onReceive hid => (operand 8 hid).map fun h => [encode (.onReceive h)]
  | .onRequest hid => (operand 8 hid).map fun h => [encode (.onRequest h)]
  | .writeBytes bs => bs.mapM fun b => (operand 8 b).map fun v => encode (.write v)

/-- The symbol of a line (R88); none if an operand is out of range. -/
def BusLine.assemble : BusLine → Option Word
  | .startAddr a d => (operand 7 a).map fun v => encode (.startAddr v d)
  | .wbyte b => (operand 8 b).map fun v => encode (.wbyte v)
  | .cack => some (encode .cack)
  | .cnack => some (encode .cnack)
  | .stop => some (encode .stop)
  | .arblost => some (encode .arblost)
  | .buserr => some (encode .buserr)

/-- The program of a block, its lines in order. -/
def assembleProgram (ls : List CommandLine) : Option (List Word) := (ls.mapM CommandLine.assemble).map List.flatten

end Sys2Proof.Machine
end

