-- ==== Sys2Proof/Machine/Platform.lean ====
section
/-! DEFINITION. Several instances (R11, R210): each has its own copy of every element, and no step of one reads or writes
another's. -/

namespace Sys2Proof.Machine

/-- The instances of a platform, by their index. -/
abbrev Platform := List State

/-- One step of instance `k`: none where there is no such instance, or where that instance has no next state. -/
def platformStep (k : Nat) (p : Platform) : Option Platform :=
  match p[k]? with
  | none => none
  | some s =>
    match step s with
    | .next t => some (p.set k t)
    | .fault _ => none
    | .refused _ => none

end Sys2Proof.Machine
end

