-- ==== Sys2Proof/Safety.lean ====
section
/-! DEFINITION. The terms claims use: the invariant (R48 and what it rests on), which steps R197 enables, the queue the
FIFO stands for (R64, R102), finished and stuck states (R209), runs and fairness (R208). -/

namespace Sys2Proof.Machine

/-! ### The invariant -/

/-- R48, clause by clause. -/
structure Rule48 (s : State) : Prop where
  /-- (a) -/
  outOfFollower : s.role ≠ .follower →
    s.phase = .off ∧ s.readIEN = 0 ∧ s.readIF = 0 ∧ s.ftip = false ∧ s.txq = [] ∧ s.count = 0
  /-- (b) -/
  inFollower : s.role = .follower → s.phase ≠ .off ∧ s.readIEN = 0x3F
  /-- (c) -/
  countRange : s.count ≤ s.params.fifoCap
  /-- (d) -/
  txqRange : s.txq.length ≤ s.params.txDepth
  /-- (e) -/
  engineInFollower : s.svState ≠ .idle → s.role = .follower
  /-- (f) -/
  addressedPhases : s.phase ∈ [Phase.aholdW, .aholdR, .rx, .rxhold, .txbusy, .txhold] → s.addressed = true

/-- The FIFO storage is in canonical form and lists only slots 0..N-1 (R52). -/
def Memory.fits (m : List Host.Cell) (n : Nat) : Prop := Memory.wf m = true ∧ ∀ c ∈ m, c.1 < n

/-- An open foreground READ holds the oldest unread byte's index, and after C2 its byte (R37, R94, R95). -/
def State.openReadSound (s : State) : Prop :=
  match s.fgMicro with
  | .none => True
  | .open1 r => s.rd = r ∧ s.wr ≠ s.rd
  | .open2 r b => s.rd = r ∧ s.wr ≠ s.rd ∧ b = s.memRead (s.slot s.rd)

/-- The invariant that every step keeps: R48, the index ranges (R35), the storage form (R52), the open READ (R37), the
cleared sequencer of an idle engine (R39, R154), a running handler that exists (R151), and no address match while the
front end is off (R32, R124). -/
structure Inv (s : State) : Prop extends Rule48 s where
  wrRange : s.wr.toNat < 2 * s.params.fifoCap
  rdRange : s.rd.toNat < 2 * s.params.fifoCap
  memory : Memory.fits s.fifoMem s.params.fifoCap
  openRead : s.openReadSound
  idleCleared : s.svState = .idle → s.svSnap = 0 ∧ s.svNext = 0
  handlerExists : s.svState = .call → (s.handlerOf s.cbHid).isSome = true
  offNotAddressed : s.phase = .off → s.addressed = false

/-- The states that runs from reset reach: any parameters, any FIFO contents at reset (R216), any schedule (R197). -/
inductive Reachable : State → Prop where
  | reset (p : Params) (mem : List Host.Cell) (sched : List AgentTurn) (h : Memory.fits mem p.fifoCap) :
      Reachable (State.resetWith p mem sched)
  | step {s t : State} (hs : Reachable s) (h : Sys2Proof.Machine.step s = .next t) : Reachable t

/-! ### Enabled steps (R197) -/

/-- Kind and payload of a word that spells an input symbol (R78, R80). -/
def inputSymbolWord (w : Word) : Bool :=
  let kind := w.toNat / 0x1000
  w.toNat / 0x100 % 0x10 == 0 && 1 ≤ kind && kind ≤ 7 && (kind ≤ 2 || w.toNat % 0x100 == 0)

/-- The phases in which R113 has an entry other than "-" for a kind. -/
def admittedIn (kind : Nat) : List Phase :=
  if kind = 1 ∨ kind = 2 ∨ kind = 5 then [.off, .idle, .rx, .nacked]
  else if kind = 3 ∨ kind = 4 then [.off, .idle, .rx, .txbusy, .nacked]
  else [.off, .idle, .aholdW, .aholdR, .rx, .rxhold, .txbusy, .txhold, .nacked]

/-- R197: which agent has a step. -/
def Enabled (s : State) (a : AgentTurn) : Prop :=
  s.fault = none ∧ s.refused = none ∧
  match a with
  | .bus w => inputSymbolWord w = true ∧ s.phase ∈ admittedIn (w.toNat / 0x1000)
  | .svc => (s.svState = .idle ∧ s.irq = true) ∨ s.svState = .run
  | .cb => s.svState = .call
  | .fg => s.svState = .idle ∧ (s.fgMicro ≠ .none ∨ s.fgPc < s.params.fgProgram.length)

/-- A finished run (R209). -/
def State.finished (s : State) : Prop :=
  s.fault = none ∧ s.refused = none ∧ s.fgMicro = .none ∧ s.params.fgProgram.length ≤ s.fgPc ∧
  s.svState = .idle ∧ s.irq = false ∧ s.phase.hold = false

/-- A stuck state (R209): the bus is held and no agent but BUS can step. -/
def State.stuck (s : State) : Prop :=
  s.fault = none ∧ s.refused = none ∧ s.phase.hold = true ∧
  ¬ Enabled s .fg ∧ ¬ Enabled s .svc ∧ ¬ Enabled s .cb

/-! ### The queue the FIFO stands for (R64, R102) -/

/-- The unread bytes, oldest first. -/
def State.queue (s : State) : List Byte :=
  (List.range s.count).map fun k =>
    Memory.read s.fifoMem ((s.rd.toNat + k) % (2 * s.params.fifoCap) % s.params.fifoCap)

/-! ### Runs and fairness (R208) -/

/-- An infinite run of the four agents: the agent of each turn has a step, and the next state is the step's. -/
def IsRun (r : Nat → State) (c : Nat → AgentTurn) : Prop :=
  ∀ n, (r n).fault = none ∧ (r n).refused = none ∧ (r n).agentStep (c n) = .next (r (n + 1))

/-- R208: an SVC, CB or FG step that stays enabled is eventually taken; BUS has no obligation. -/
def IsFair (r : Nat → State) (c : Nat → AgentTurn) : Prop :=
  ∀ a ∈ [AgentTurn.svc, .cb, .fg], ∀ n, (∀ m, n ≤ m → Enabled (r m) a) → ∃ m, n ≤ m ∧ c m = a

/-- `k` SVC steps in a row. -/
def svcSteps : Nat → State → Out
  | 0, s => .next s
  | k + 1, s =>
    match s.svcStep with
    | .next t => svcSteps k t
    | .fault r => .fault r
    | .refused r => .refused r

end Sys2Proof.Machine
end

