-- ==== Sys2Proof/Certificates/Slice0/Obligations.lean ====
section
/-! DEFINITION. The statements for the provers. A record update in a conclusion says what changed and that every other
field of the state is as before: it is the frame. Where a flag register is written, the update leaves `ifReg` to the
next state and the value of IF stands beside it. -/

open Sys2Proof Sys2Proof.Machine

/-! ## Encodings (30_encoding.md) -/

/-- Section 1, 3, 4 of 30_encoding.md: no bit of an encoding is dropped, in any word space. -/
def Obligations.DecodeOfEncodeIsTheInstruction : Prop :=
  ∀ i : Instr, i.wellFormed = true → decode i.format (encode i) = .instr i

/-- R89: a decoded row is well formed, belongs to the space it was read in, and has no second word but in IF8, where a
row is one bit of the word. -/
def Obligations.DecodedWordsHaveOneMeaning : Prop :=
  ∀ (f : Format) (w : Word) (i : Instr), decode f w = .instr i →
    i.wellFormed = true ∧ i.format = f ∧ (f ≠ .if8 → encode i = w)

/-- R72, with the fields of a word taken as numbers. -/
def Obligations.IllegalCommandWordsAreExactlyThoseOfR72 : Prop :=
  ∀ w : Word,
    let op := w.toNat / 4096
    let rsv := w.toNat / 256 % 16
    let imm8 := w.toNat % 256
    let bad := (op = 0 ∨ 9 ≤ op) ∨ rsv ≠ 0 ∨ ((op = 1 ∨ op = 3 ∨ op = 5 ∨ op = 6) ∧ imm8 ≠ 0) ∨ (op = 2 ∧ 128 ≤ imm8)
    (bad → decodeCmd w = .illegal w ∧
      ∀ (s : State) (ctx : Ctx), s.issuer = some ctx → s.fault = none →
        exec (decodeCmd w) s = .next { s with fault := some (.illegalCommand w ctx) }) ∧
    (¬ bad → decodeCmd w ∈ [Instr.activateL, .deactivate, .read, .available] ∨
      (∃ addr, decodeCmd w = .activateF addr) ∨ (∃ b, decodeCmd w = .write b) ∨
      (∃ hid, decodeCmd w = .onReceive hid) ∨ (∃ hid, decodeCmd w = .onRequest hid))

/-- R80: the listed words spell no symbol, and a BUS turn that presents one has no step. -/
def Obligations.ReservedBusWordsAreNeverPresented : Prop :=
  ∀ w : Word,
    let kind := w.toNat / 4096
    (kind = 0 ∨ 11 ≤ kind ∨ w.toNat / 256 % 16 ≠ 0 ∨ (3 ≤ kind ∧ kind ≤ 7 ∧ w.toNat % 256 ≠ 0)) →
    (∀ i, decode .bus16 w ≠ .instr i) ∧ ∀ s : State, s.agentStep (.bus w) = .refused .reservedSymbol

/-- 95_test_vectors.md L2.5 and the flag, front-end and FIFO codes of R82 to R84. -/
def Obligations.WordsOfTheSpecDecodeAsListed : Prop :=
  decode .cmd16 0x2020 = .instr (.activateF 0x20) ∧ decode .cmd16 0x40A5 = .instr (.write 0xA5) ∧
  decode .cmd16 0x7000 = .instr (.onReceive 0) ∧ decode .cmd16 0x80FF = .instr (.onRequest 255) ∧
  decode .cmd16 0x6001 = .instr (.illegal 0x6001) ∧
  decode .bus16 0x1041 = .instr (.startAddr 0x20 .read) ∧ decode .bus16 0x10A0 = .instr (.startAddr 0x50 .write) ∧
  decode .bus16 0x2000 = .instr (.wbyte 0x00) ∧ decode .bus16 0x3001 = .rejected .payloadNotZero ∧
  decode .bus16 0x0000 = .rejected .reservedKind ∧ decode .bus16 0xA05A = .instr (.outByte 0x5A) ∧
  decode .bus16 0x9000 = .instr .outNack ∧ decode .if8 0x10 = .instr .ifRxdatav ∧
  decode .fecmd2 0b10 = .instr .feNack ∧ decode .fifoop3 4 = .instr .fifoClear

/-! ## Steps and scheduling (44_client_ops.md section 1, 60_exceptions.md section 2) -/

/-- Each agent's step runs the instruction its word decodes to, on the state with the turn taken off the schedule; and
every step is one of the four agents' (R6): a command, an input symbol or a service branch, or the sequencer's entry, exit
or callback return. No step is an output symbol, a front-end command or a FIFO port operation alone. -/
def Obligations.AStepRunsTheDecodedInstruction : Prop :=
  ∀ s : State, s.fault = none → s.refused = none →
    (∀ w, s.nextTurn = .fg → s.svState = .idle → s.fgMicro = .none → s.params.fgProgram[s.fgPc]? = some w →
      step s = exec (decodeCmd w) s.takeTurn) ∧
    (s.nextTurn = .fg → s.svState = .idle → s.fgMicro ≠ .none → step s = exec .read s.takeTurn) ∧
    (∀ prog w, s.nextTurn = .cb → s.svState = .call → s.handlerOf s.cbHid = some prog → prog[s.cbPc]? = some w →
      step s = exec (decodeCmd w) s.takeTurn) ∧
    (∀ i, s.nextTurn = .svc → s.svState = .run → decode .if8 s.svcWord = .instr i →
      step s = exec i s.takeTurn) ∧
    (∀ w i, s.nextTurn = .bus w → decode .bus16 w = .instr i → i.isInputSymbol = true →
      step s = exec i s.takeTurn) ∧
    (∀ w i, s.nextTurn = .bus w → decode .bus16 w = .instr i → i.isInternal = true →
      step s = .refused .reservedSymbol) ∧
    (∀ t, step s = .next t →
      (∃ i, i.isInternal = false ∧ exec i s.takeTurn = .next t) ∨
      (s.nextTurn = .svc ∧ s.svState = .idle ∧ t = s.takeTurn.serviceEntry) ∨
      (s.nextTurn = .svc ∧ s.svState = .run ∧ t = s.takeTurn.serviceExit) ∨
      (s.nextTurn = .cb ∧ s.svState = .call ∧ t = s.takeTurn.callbackReturn))

/-- The word `withFetchWord` places is the one the next step runs (log 6, log 9): it places the word in a space in which it
spells the instruction, and what follows holds for every word of every space. A row that is no step of an agent is run
inside the step that issues it (log 3): `exec` of that row, at the point of the step where it is issued, gives the step's
next state, or for a FIFO port operation the fields and the reply that the step uses. -/
def Obligations.AFetchWordIsRunByTheNextStep : Prop :=
  (∀ (s : State) (nbits w : Nat) (i : Instr), decodeTableWord nbits w = some i →
    ∃ f, decode f (BitVec.ofNat 16 w) = .instr i ∧ s.withFetchWord nbits w = s.withWord f (BitVec.ofNat 16 w)) ∧
  ∀ (s : State) (f : Format) (w : Word) (i : Instr), decode f w = .instr i →
    ∃ u, u = (s.withWord f w).takeTurn ∧
    (i.isInternal = false → step (s.withWord f w) = exec i u) ∧
    (i.isInternal = true → ∃ t, step (s.withWord f w) = .next t ∧
      (i = .outAck → exec i { u with ftip := true, svNext := 4, ifReg := t.ifReg, phase := .rx } = .next t) ∧
      (i = .outNack → exec i { u with svNext := 5, ifReg := t.ifReg, phase := .nacked } = .next t) ∧
      (∀ b, i = .outByte b → exec i { u with ifReg := t.ifReg, txq := [] } = .next t) ∧
      (i = .feAck → exec i { u with ftip := true, svNext := 4, ifReg := t.ifReg } = .next t) ∧
      (i = .feNack → exec i { u with svNext := 5, ifReg := t.ifReg } = .next t) ∧
      (i = .fifoStore → ∃ v, exec i { u with svNext := 5, ifReg := t.ifReg } = .next v ∧ v.fifoReply = some .ok ∧
        t.fifoMem = v.fifoMem ∧ t.wr = v.wr) ∧
      (i = .fifoIsfull → ∃ v full, exec i { u with svNext := 5, ifReg := t.ifReg } = .next v ∧
        v.fifoReply = some (.full full) ∧
        (full = true → t = State.feCmdNack { u with svNext := 5, ifReg := t.ifReg }) ∧
        (full = false → t.wr = BitVec.ofNat 16 ((u.wr.toNat + 1) % (2 * u.params.fifoCap)))) ∧
      (i = .fifoRead → ∃ v, exec i u = .next v ∧ t.rd = v.rd ∧ t.fgMicro = v.fgMicro ∧
        ((v.fifoReply = some .empty ∧ t.fgRes = s.fgRes ++ [0xFFFF]) ∨
          (v.fifoReply = some .pending ∧ t.fgRes = s.fgRes))) ∧
      (i = .fifoAvailable → ∃ v c, exec i u = .next v ∧ v.fifoReply = some (.count c) ∧
        t.fgRes = s.fgRes ++ [BitVec.ofNat 16 c]) ∧
      (i = .fifoClear → ∃ v, exec i u = .next v ∧ t.wr = v.wr ∧ t.rd = v.rd ∧ t.fifoMem = v.fifoMem))

/-- R197: an agent's turn gives a next state exactly when the rule enables the agent's step; every enabled step can be
the next one; FG and CB never both have a step, and FG has none while the engine runs or calls. -/
def Obligations.ExactlyTheEnabledStepsCanBeTaken : Prop :=
  ∀ (s : State) (a : AgentTurn),
    (s.nextTurn = a → ((∃ t, step s = .next t) ↔ Enabled s a)) ∧
    (Enabled s a → ∃ t, step { s with sched := [a] } = .next t) ∧
    ¬ (Enabled s .fg ∧ Enabled s .cb) ∧ (s.svState ≠ .idle → ¬ Enabled s .fg)

/-- R44, R190, R194, R197: a faulted or refused state is terminal; FAULT and REFUSED keep their first reason; a step that
sets one does nothing else. -/
def Obligations.FaultsAndRefusalsAreTerminalAndSticky : Prop :=
  (∀ s : State,
    (∀ r, s.fault = some r → step s = .fault (.modelFault r)) ∧
    (s.fault = none → s.refused = some .leaderPath → step s = .refused .leaderPath) ∧
    (∀ t, step s = .next t → s.fault = none ∧ s.refused = none)) ∧
  ∀ (i : Instr) (s t : State), exec i s = .next t →
    (∀ r, s.fault = some r → t.fault = some r) ∧ (∀ r, s.refused = some r → t.refused = some r) ∧
    (∀ r, s.fault = none → t.fault = some r → t = { s with fault := some r }) ∧
    (∀ r, s.refused = none → t.refused = some r → t = { s with refused := some r })

/-- R207: a context is entered and left only by interrupt entry, callback call, callback return and exit, so no row
other than a calling branch changes SV_STATE. -/
def Obligations.OnlyBranchesAndTheSequencerChangeTheContext : Prop :=
  ∀ (i : Instr) (s t : State), exec i s = .next t → t.svState ≠ s.svState →
    s.svState = .run ∧ t.svState = .call ∧ i ∈ [Instr.ifAddr, .ifRxdatav, .ifAck]

/-! ## Reset and the invariant (10_state.md section 7, 70_reset_and_hazards.md section 1) -/

/-- R46, R216: every element's reset value, for every value of the parameters and every FIFO contents, and the relation
to the state DEACTIVATE leaves. -/
def Obligations.ResetGivesEveryElementItsTableValue : Prop :=
  (∃ p m q, State.reset = State.resetWith p m q) ∧
  ∀ (p : Params) (m : List Host.Cell) (q : List AgentTurn), ∃ s, s = State.resetWith p m q ∧
    s.role = .uninit ∧ s.ownAddr = 0 ∧ s.readIF = 0 ∧ s.readIEN = 0 ∧ s.addrStatus = 0 ∧ s.rxData = 0 ∧
    s.phase = .off ∧ s.addressed = false ∧ s.txq = [] ∧ s.ftip = false ∧ s.fifoMem = m ∧ s.wr = 0 ∧ s.rd = 0 ∧
    s.fgMicro = .none ∧ s.regRx = 0 ∧ s.regReq = 0 ∧ s.svState = .idle ∧ s.svSnap = 0 ∧ s.svNext = 0 ∧
    s.cbKind = .rx ∧ s.cbHid = 0 ∧ s.cbPc = 0 ∧ s.cbArg = 0 ∧ s.fgPc = 0 ∧ s.busOut = [] ∧ s.cbLog = [] ∧
    s.fgRes = [] ∧ s.cbRes = [] ∧ s.fault = none ∧ s.refused = none ∧ s.deactivate = s

/-- R217: after reset FG is the only agent with a step that does anything: no interrupt, no callback, every bus symbol
ignored; the entry point is the first word. -/
def Obligations.OnlyTheForegroundActsAfterReset : Prop :=
  ∀ (p : Params) (m : List Host.Cell) (q : List AgentTurn),
    let s := State.resetWith p m q
    ¬ Enabled s .svc ∧ ¬ Enabled s .cb ∧ s.irq = false ∧ s.role = .uninit ∧
    (Enabled s .fg ↔ p.fgProgram ≠ []) ∧ s.fgWord = p.fgProgram.head? ∧
    ∀ i : Instr, i.isInputSymbol = true → exec i s = .next s

/-- The invariant holds after reset, for all parameters, schedules and FIFO contents in canonical form. -/
def Obligations.TheInvariantHoldsAtReset : Prop :=
  Inv State.reset ∧
  ∀ (p : Params) (m : List Host.Cell) (q : List AgentTurn), Memory.fits m p.fifoCap → Inv (State.resetWith p m q)

/-- R48 and what it rests on: every step keeps the invariant, whoever takes it. -/
def Obligations.EveryStepKeepsTheInvariant : Prop :=
  ∀ s t : State, Inv s → step s = .next t → Inv t

/-- R48, which the spec marks as derived from its other rules: its six clauses hold in every reachable state. -/
def Obligations.EveryReachableStateMeetsR48 : Prop :=
  ∀ s : State, Reachable s → Rule48 s

/-! ## Client commands (44_client_ops.md) -/

/-- R166, in every role and context. -/
def Obligations.ActivateLeaderTakesEffectOnlyInUninit : Prop :=
  ∀ s : State,
    (s.issuer = some .fg → s.role = .uninit →
      exec .activateL s = .next { s with role := .leader, fgRes := s.fgRes ++ [0x0000], fgPc := s.fgPc + 1 }) ∧
    (s.issuer = some .fg → s.role ≠ .uninit →
      exec .activateL s = .next { s with fgRes := s.fgRes ++ [0x0000], fgPc := s.fgPc + 1 }) ∧
    (∀ k, s.issuer = some (.cb k) → s.fault = none →
      exec .activateL s = .next { s with fault := some (.cbIllegalOp 0x1000) }) ∧
    (∀ imm8 : Byte, imm8 ≠ 0 → decode .cmd16 (0x10#8 ++ imm8) = .instr (.illegal (0x10#8 ++ imm8))) ∧
    (Inv s → s.role = .leader → s.phase = .off ∧ s.count = 0)

/-- R167, in every role and context; after reset and DEACTIVATE the clears have nothing to clear. -/
def Obligations.ActivateFollowerSetsUpOnlyFromUninit : Prop :=
  (∀ (s : State) (addr : Addr7),
    (s.issuer = some .fg → s.role = .uninit →
      ∃ t, exec (.activateF addr) s = .next t ∧
        t = { s with role := .follower, ownAddr := addr, wr := 0, rd := 0, ifReg := t.ifReg, ien := t.ien, ftip := false,
                     txq := [], addressed := false, phase := .idle, fgRes := s.fgRes ++ [0x0000], fgPc := s.fgPc + 1 } ∧
        t.readIF = 0x00 ∧ t.readIEN = 0x3F) ∧
    (s.issuer = some .fg → s.role ≠ .uninit →
      exec (.activateF addr) s = .next { s with fgRes := s.fgRes ++ [0x0000], fgPc := s.fgPc + 1 }) ∧
    (∀ k, s.issuer = some (.cb k) → s.fault = none →
      exec (.activateF addr) s = .next { s with fault := some (.cbIllegalOp (0x2000#16 ||| addr.setWidth 16)) }) ∧
    decode .cmd16 (0x2000#16 ||| addr.setWidth 16) = .instr (.activateF addr) ∧
    decode .cmd16 (0x2080#16 ||| addr.setWidth 16) = .instr (.illegal (0x2080#16 ||| addr.setWidth 16))) ∧
  (∀ (s : State) (p : Params) (m : List Host.Cell) (q : List AgentTurn), ∀ u ∈ [s.deactivate, State.resetWith p m q],
    u.wr = 0 ∧ u.rd = 0 ∧ u.readIF = 0 ∧ u.ftip = false ∧ u.txq = [] ∧ u.addressed = false)

/-- R168, in every role and context, and that no other row leads back to UNINIT. -/
def Obligations.DeactivateResetsAllButWhatItKeeps : Prop :=
  ∀ s : State,
    (s.issuer = some .fg →
      ∃ t, exec .deactivate s = .next t ∧
        t = { s with role := .uninit, phase := .off, addressed := false, txq := [], ftip := false, wr := 0, rd := 0,
                     ifReg := t.ifReg, ien := t.ien, fgRes := s.fgRes ++ [0x0000], fgPc := s.fgPc + 1 } ∧
        t.readIF = 0x00 ∧ t.readIEN = 0x00 ∧ t.count = 0 ∧ t.phase.hold = false) ∧
    (∀ k, s.issuer = some (.cb k) → s.fault = none →
      exec .deactivate s = .next { s with fault := some (.cbIllegalOp 0x3000) }) ∧
    (∀ imm8 : Byte, imm8 ≠ 0 → decode .cmd16 (0x30#8 ++ imm8) = .instr (.illegal (0x30#8 ++ imm8))) ∧
    (∀ i t, exec i s = .next t → s.role ≠ .uninit → t.role = .uninit → i = .deactivate)

/-- R172, R173: registration, in every role; id 0 names no handler; a call reads the registration then in force; a
callback may not register. -/
def Obligations.RegistrationReplacesTheHandlerId : Prop :=
  ∀ (s : State) (hid : Byte),
    decode .cmd16 (0x70#8 ++ hid) = .instr (.onReceive hid) ∧ decode .cmd16 (0x80#8 ++ hid) = .instr (.onRequest hid) ∧
    s.handlerOf 0 = none ∧ s.registered .rx = s.regRx ∧ s.registered .req = s.regReq ∧
    (s.issuer = some .fg →
      exec (.onReceive hid) s = .next { s with regRx := hid, fgRes := s.fgRes ++ [0x0000], fgPc := s.fgPc + 1 } ∧
      exec (.onRequest hid) s = .next { s with regReq := hid, fgRes := s.fgRes ++ [0x0000], fgPc := s.fgPc + 1 }) ∧
    (∀ k, s.issuer = some (.cb k) → s.fault = none →
      exec (.onReceive hid) s = .next { s with fault := some (.cbIllegalOp (0x7000#16 ||| hid.setWidth 16)) } ∧
      exec (.onRequest hid) s = .next { s with fault := some (.cbIllegalOp (0x8000#16 ||| hid.setWidth 16)) })

/-- R169: the checks in order, then by phase where the byte goes. -/
def Obligations.WriteFailsFaultsQueuesOrSends : Prop :=
  (∀ b : Byte, decode .cmd16 (0x40#8 ++ b) = .instr (.write b)) ∧
  (∀ s : State, Inv s → s.role = .uninit → s.ftip = false) ∧
  (∀ (s : State) (b : Byte) (ctx : Ctx), s.role = .leader → s.issuer = some ctx → s.refused = none →
    exec (.write b) s = .next { s with refused := some .leaderPath }) ∧
  ∀ (s : State) (b : Byte), s.role ≠ .leader →
    (s.issuer = some .fg → s.ftip = false →
      exec (.write b) s = .next { s with fgRes := s.fgRes ++ [0x0000], fgPc := s.fgPc + 1 }) ∧
    (∀ k, s.issuer = some (.cb k) → s.ftip = false →
      exec (.write b) s = .next { s with cbRes := s.cbRes ++ [0x0000], cbPc := s.cbPc + 1 }) ∧
    (∀ ctx, s.issuer = some ctx → s.ftip = true → ctx ≠ .cb .req → s.fault = none →
      exec (.write b) s = .next { s with fault := some (.writeContext (0x4000#16 ||| b.setWidth 16) ctx) }) ∧
    (s.issuer = some (.cb .req) → s.ftip = true → s.txq.length = s.params.txDepth →
      exec (.write b) s = .next { s with cbRes := s.cbRes ++ [0x0000], cbPc := s.cbPc + 1 }) ∧
    (s.issuer = some (.cb .req) → s.ftip = true → s.txq.length < s.params.txDepth →
      (s.phase ∈ [Phase.off, .idle, .rx, .txbusy, .nacked] →
        exec (.write b) s = .next { s with txq := s.txq ++ [b], cbRes := s.cbRes ++ [0x0001], cbPc := s.cbPc + 1 }) ∧
      (s.phase ∈ [Phase.aholdW, .rxhold] →
        exec (.write b) s = .next { s with txq := s.txq ++ [b], busOut := s.busOut ++ [.ack], phase := .rx,
                                           cbRes := s.cbRes ++ [0x0001], cbPc := s.cbPc + 1 }) ∧
      (∀ h rest, s.txq ++ [b] = h :: rest → s.phase = .aholdR →
        exec (.write b) s = .next { s with txq := rest, busOut := s.busOut ++ [.ack, .byte h], phase := .txbusy,
                                           cbRes := s.cbRes ++ [0x0001], cbPc := s.cbPc + 1 }) ∧
      (∀ h rest, s.txq ++ [b] = h :: rest → s.phase = .txhold →
        exec (.write b) s = .next { s with txq := rest, busOut := s.busOut ++ [.byte h], phase := .txbusy,
                                           cbRes := s.cbRes ++ [0x0001], cbPc := s.cbPc + 1 }))

/-- R92, R104, R170: READ from a callback, in one step. -/
def Obligations.CallbackReadTakesTheOldestByteInOneStep : Prop :=
  ∀ (s : State) (k : CbKind), s.issuer = some (.cb k) → s.role ≠ .leader →
    (s.fgMicro ≠ .none → s.fault = none →
      exec .read s = .next { s with fault := some (.consumerRace 0x5000) }) ∧
    (s.fgMicro = .none → s.wr = s.rd →
      exec .read s = .next { s with cbRes := s.cbRes ++ [0xFFFF], cbPc := s.cbPc + 1 }) ∧
    (s.fgMicro = .none → s.wr ≠ s.rd →
      exec .read s =
        .next { s with rd := BitVec.ofNat 16 ((s.rd.toNat + 1) % (2 * s.params.fifoCap)),
                       cbRes := s.cbRes ++
                         [(Memory.read s.fifoMem (s.rd.toNat % s.params.fifoCap)).setWidth 16],
                       cbPc := s.cbPc + 1 })

/-- R93, R94, R95, R170: READ from the foreground, step by step; C2 and C3 follow whatever the role. -/
def Obligations.ForegroundReadTakesThreeSteps : Prop :=
  ∀ s : State, s.svState = .idle →
    (s.fgMicro = .none → s.role ≠ .leader → s.wr = s.rd →
      exec .read s = .next { s with fgRes := s.fgRes ++ [0xFFFF], fgPc := s.fgPc + 1 }) ∧
    (s.fgMicro = .none → s.role ≠ .leader → s.wr ≠ s.rd →
      exec .read s = .next { s with fgMicro := .open1 s.rd }) ∧
    (∀ r, s.fgMicro = .open1 r →
      exec .read s =
        .next { s with fgMicro := .open2 r (Memory.read s.fifoMem (r.toNat % s.params.fifoCap)) }) ∧
    (∀ r b, s.fgMicro = .open2 r b →
      exec .read s =
        .next { s with rd := BitVec.ofNat 16 ((r.toNat + 1) % (2 * s.params.fifoCap)), fgMicro := .none,
                       fgRes := s.fgRes ++ [b.setWidth 16], fgPc := s.fgPc + 1 })

/-- R171: AVAILABLE returns COUNT and changes nothing else, in every context; COUNT is the number of unread bytes; LEADER
refuses it. -/
def Obligations.AvailableReturnsTheCount : Prop :=
  decode .cmd16 0x6000 = .instr .available ∧
  ∀ s : State,
    (s.role ≠ .leader → s.issuer = some .fg →
      exec .available s = .next { s with fgRes := s.fgRes ++ [BitVec.ofNat 16 s.count], fgPc := s.fgPc + 1 }) ∧
    (∀ k, s.role ≠ .leader → s.issuer = some (.cb k) →
      exec .available s = .next { s with cbRes := s.cbRes ++ [BitVec.ofNat 16 s.count], cbPc := s.cbPc + 1 }) ∧
    (∀ ctx, s.role = .leader → s.issuer = some ctx → s.refused = none →
      exec .available s = .next { s with refused := some .leaderPath }) ∧
    (Inv s → (BitVec.ofNat 16 s.count).toNat = s.queue.length ∧ s.queue.length ≤ s.params.fifoCap ∧
      (s.role = .uninit → s.count = 0))

/-- R195: the follower data commands in LEADER are refused, whatever the context, and nothing else happens. -/
def Obligations.DataCommandsAreRefusedInLeader : Prop :=
  RefusedReason.code .leaderPath = 1 ∧
  ∀ (s : State) (ctx : Ctx) (b : Byte), s.issuer = some ctx → s.role = .leader → s.refused = none →
    ∀ i ∈ [Instr.write b, .read, .available], exec i s = .next { s with refused := some .leaderPath }

/-- R156, R207: what a callback may issue, and what faults. -/
def Obligations.CallbacksMayIssueOnlyDataCommands : Prop :=
  ∀ (s : State) (k : CbKind), s.issuer = some (.cb k) → s.fault = none →
    (∀ i ∈ [Instr.activateL, .deactivate], exec i s = .next { s with fault := some (.cbIllegalOp (encode i)) }) ∧
    (∀ x : Byte, ∀ i ∈ [Instr.activateF (x.setWidth 7), .onReceive x, .onRequest x],
      exec i s = .next { s with fault := some (.cbIllegalOp (encode i)) }) ∧
    (∀ x : Byte, ∀ i ∈ [Instr.write x, .read, .available], ∃ t, exec i s = .next t ∧ ∀ w, t.fault ≠ some (.cbIllegalOp w)) ∧
    (∀ x : Byte, k = .rx → s.role ≠ .leader → s.ftip = true →
      exec (.write x) s = .next { s with fault := some (.writeContext (encode (.write x)) (.cb .rx)) })

/-- R174: an illegal word changes FAULT and nothing else, from any context, before every other check. -/
def Obligations.IllegalWordsFaultFromEveryContext : Prop :=
  ∀ (s : State) (ctx : Ctx) (w : Word), s.issuer = some ctx → s.fault = none →
    exec (.illegal w) s = .next { s with fault := some (.illegalCommand w ctx) }

/-- R165: no command is issued while the engine services flags, and none but READ while a foreground READ is open. -/
def Obligations.CommandsNeedAnIssuer : Prop :=
  ∀ (s : State) (x : Byte) (w : Word), s.svState = .run ∨ (s.svState = .idle ∧ s.fgMicro ≠ .none) →
    (∀ i ∈ [Instr.activateL, .activateF (x.setWidth 7), .deactivate, .write x, .available, .onReceive x, .onRequest x,
        .illegal w], exec i s = .refused .noStep) ∧
    (s.svState = .run → exec .read s = .refused .noStep)

/-! ## Bus front end (42_bus_protocol.md) -/

/-- R113: where each symbol is ignored, where it is not admitted, and where it has an effect. -/
def Obligations.SymbolsAreAdmittedAsTheTableSays : Prop :=
  ∀ (s : State) (a : Addr7) (d : Dir) (b : Byte),
    (s.phase = .off → ∀ i ∈ [Instr.startAddr a d, .wbyte b, .cack, .cnack, .stop, .arblost, .buserr],
      exec i s = .next s) ∧
    (s.phase ∈ [Phase.idle, .nacked] → ∀ i ∈ [Instr.wbyte b, .cack, .cnack], exec i s = .next s) ∧
    (s.phase = .rx → ∀ i ∈ [Instr.cack, .cnack], exec i s = .next s) ∧
    (s.phase.hold = true → ∀ i ∈ [Instr.startAddr a d, .wbyte b, .cack, .cnack, .stop],
      exec i s = .refused .notAdmitted) ∧
    (s.phase = .txbusy → ∀ i ∈ [Instr.startAddr a d, .wbyte b, .stop], exec i s = .refused .notAdmitted) ∧
    (s.phase ∈ [Phase.idle, .rx, .nacked] → ∀ i ∈ [Instr.startAddr a d, .stop], ∃ t, exec i s = .next t) ∧
    (s.phase = .rx → ∃ t, exec (.wbyte b) s = .next t ∧ t.phase = .rxhold) ∧
    (s.phase = .txbusy → ∀ i ∈ [Instr.cack, .cnack], ∃ t, exec i s = .next t) ∧
    (s.phase ≠ .off → ∀ i ∈ [Instr.arblost, .buserr], ∃ t, exec i s = .next t ∧ t.phase = .idle)

/-- R114, R115: an address match, and another target's address, after which a STOP still ends the transaction. -/
def Obligations.StartAddrMatchesTheOwnAddress : Prop :=
  (∀ a : Addr7, decode .bus16 (0x10#8 ++ (a ++ 1#1)) = .instr (.startAddr a .read) ∧
    decode .bus16 (0x10#8 ++ (a ++ 0#1)) = .instr (.startAddr a .write)) ∧
  ∀ (s : State) (a : Addr7) (d : Dir), s.phase ∈ [Phase.idle, .rx, .nacked] →
    (a = s.ownAddr →
      ∃ t, exec (.startAddr a d) s = .next t ∧
        t = { s with addrStatus := a ++ (if d = .read then 1#1 else 0#1), addressed := true, txq := [], ifReg := t.ifReg,
                     phase := if d = .read then .aholdR else .aholdW } ∧
        t.readIF = s.readIF ||| 0x08 ∧ t.phase.hold = true) ∧
    (a ≠ s.ownAddr → exec (.startAddr a d) s = .next { s with phase := .idle }) ∧
    (s.addressed = true → ∃ u, exec .stop { s with phase := .idle } = .next u ∧ u.flag .sstop = true)

/-- R117, and the step of R116: a byte arrives in RX and is ignored elsewhere. The last corner case of R116 is not
claimed: see NOTES.md. -/
def Obligations.AByteArrivesOnlyInRx : Prop :=
  ∀ (s : State) (b : Byte),
    (s.phase = .rx →
      ∃ t, exec (.wbyte b) s = .next t ∧ t = { s with rxData := b, phase := .rxhold, ifReg := t.ifReg } ∧
        t.readIF = s.readIF ||| 0x10) ∧
    (s.phase ∈ [Phase.idle, .nacked, .off] → exec (.wbyte b) s = .next s)

/-- R118, R119, R120: the controller's answer to a byte the block sent. -/
def Obligations.ControllerAnswersMoveTheTransmitter : Prop :=
  decode .bus16 0x3000 = .instr .cack ∧ decode .bus16 0x4000 = .instr .cnack ∧
  ∀ s : State,
    (s.phase = .txbusy →
      (∃ t, exec .cack s = .next t ∧ t.readIF = s.readIF ||| 0x20 ∧
        (s.txq = [] → t = { s with phase := .txhold, ifReg := t.ifReg }) ∧
        (∀ b rest, s.txq = b :: rest →
          t = { s with txq := rest, busOut := s.busOut ++ [.byte b], phase := .txbusy, ifReg := t.ifReg })) ∧
      exec .cnack s = .next { s with phase := .nacked }) ∧
    (s.phase ∈ [Phase.idle, .rx, .nacked, .off] → exec .cack s = .next s ∧ exec .cnack s = .next s)

/-- R121: STOP raises SSTOP exactly when the block was addressed. -/
def Obligations.StopEndsAnAddressedTransaction : Prop :=
  decode .bus16 0x5000 = .instr .stop ∧
  ∀ s : State, s.phase ∈ [Phase.idle, .rx, .nacked] →
    ∃ t, exec .stop s = .next t ∧
      t = { s with addressed := false, txq := [], phase := .idle, ifReg := t.ifReg } ∧
      t.readIF = if s.addressed then s.readIF ||| 0x04 else s.readIF

/-- R122, R123: a bus fault aborts the front end in every phase but OFF, and keeps everything else. -/
def Obligations.BusFaultsAbortTheFrontEnd : Prop :=
  ∀ s : State, s.phase ≠ .off →
    (∃ t, exec .arblost s = .next t ∧
      t = { s with phase := .idle, addressed := false, txq := [], ifReg := t.ifReg } ∧ t.readIF = s.readIF ||| 0x01) ∧
    (∃ t, exec .buserr s = .next t ∧
      t = { s with phase := .idle, addressed := false, txq := [], ifReg := t.ifReg } ∧ t.readIF = s.readIF ||| 0x02)

/-- R128: fe_cmd(ACK) in every phase. -/
def Obligations.FrontEndAckByPhase : Prop :=
  decode .fecmd2 0b01 = .instr .feAck ∧
  ∀ s : State,
    (s.phase ∈ [Phase.aholdW, .rxhold] →
      exec .feAck s = .next { s with busOut := s.busOut ++ [.ack], phase := .rx }) ∧
    (∀ b rest, s.phase = .aholdR → s.txq = b :: rest →
      exec .feAck s = .next { s with busOut := s.busOut ++ [.ack, .byte b], txq := rest, phase := .txbusy }) ∧
    (∀ b rest, s.phase = .txhold → s.txq = b :: rest →
      exec .feAck s = .next { s with busOut := s.busOut ++ [.byte b], txq := rest, phase := .txbusy }) ∧
    (s.phase ∈ [Phase.aholdR, .txhold] → s.txq = [] → exec .feAck s = .next s) ∧
    (s.phase ∈ [Phase.off, .idle, .rx, .txbusy, .nacked] → exec .feAck s = .next s)

/-- R129: fe_cmd(NACK) in every phase, for the one issuer it has; the RXDATAV branch issues it when the FIFO is full. -/
def Obligations.FrontEndNackByPhase : Prop :=
  decode .fecmd2 0b10 = .instr .feNack ∧
  ∀ s : State,
    (s.svState = .run → s.svNext = 5 → s.count = s.params.fifoCap →
      (s.phase ∈ [Phase.aholdW, .rxhold, .aholdR] →
        exec .feNack s = .next { s with busOut := s.busOut ++ [.nack], phase := .nacked }) ∧
      (s.phase ∈ [Phase.off, .idle, .rx, .txbusy, .txhold, .nacked] → exec .feNack s = .next s)) ∧
    (s.svState ≠ .run ∨ s.svNext ≠ 5 ∨ s.count ≠ s.params.fifoCap → exec .feNack s = .refused .noStep) ∧
    (s.svState = .run → s.count = s.params.fifoCap →
      ∃ t, exec .ifRxdatav s = .next t ∧ exec .feNack { s with svNext := 5, ifReg := t.ifReg } = .next t)

/-- R14, R42, R79: an output symbol is appended to BUS_OUT, under the word R79 gives it. -/
def Obligations.OutputSymbolsAreAppendedToBusOut : Prop :=
  ∀ (s : State) (b : Byte),
    exec .outAck s = .next { s with busOut := s.busOut ++ [.ack] } ∧
    exec .outNack s = .next { s with busOut := s.busOut ++ [.nack] } ∧
    exec (.outByte b) s = .next { s with busOut := s.busOut ++ [.byte b] } ∧
    BusOut.word .ack = 0x8000 ∧ BusOut.word .nack = 0x9000 ∧ BusOut.word (.byte b) = 0xA000#16 ||| b.setWidth 16

/-- R134, which the spec marks as derived: while HOLD, what can change PHASE and what flags can be raised, over every row; the states are those of the
invariant, for in the others ACTIVATE_F could find a hold. -/
def Obligations.AHoldEndsOnlyByAnAnswerOrAFault : Prop :=
  ∀ (i : Instr) (s t : State), Inv s → s.phase.hold = true → exec i s = .next t →
    (t.phase = s.phase ∨
      (i ∈ [Instr.arblost, .buserr] ∧ t.phase = .idle) ∨ (i = .deactivate ∧ t.phase = .off) ∨
      ((i ∈ [Instr.feAck, .ifAddr, .ifRxdatav] ∨ ∃ b, i = .write b) ∧ (t.phase = .rx ∨ t.phase = .txbusy)) ∨
      (i ∈ [Instr.feNack, .ifRxdatav] ∧ t.phase = .nacked)) ∧
    (∀ f, t.flag f = true → s.flag f = false → (f = .arblost ∧ i = .arblost) ∨ (f = .buserr ∧ i = .buserr))

/-! ## Event flags and the service engine (10_state.md section 2, 43_event_service.md) -/

/-- R24, R27: IRQ is raised exactly when some flag is pending and enabled, and bits 7:6 of IF and IEN read 0. -/
def Obligations.TheRequestIsAPendingEnabledFlag : Prop :=
  ∀ s : State,
    (s.irq = true ↔ ∃ f : Flag, s.readIF.getLsbD f.bit.val = true ∧ s.readIEN.getLsbD f.bit.val = true) ∧
    s.readIF.extractLsb' 6 2 = 0 ∧ s.readIEN.extractLsb' 6 2 = 0

/-- R25: who sets and who clears each bit of IF; the two commands that write the whole register write 0 (or, where they
do nothing, leave it). -/
def Obligations.FlagsAreSetByTheBusAndClearedByTheirBranch : Prop :=
  ∀ (i : Instr) (s t : State), exec i s = .next t →
    ((t.flag .arblost = true → s.flag .arblost = false → i = .arblost) ∧
     (t.flag .buserr = true → s.flag .buserr = false → i = .buserr) ∧
     (t.flag .sstop = true → s.flag .sstop = false → i = .stop) ∧
     (t.flag .addr = true → s.flag .addr = false → ∃ d, i = .startAddr s.ownAddr d) ∧
     (t.flag .rxdatav = true → s.flag .rxdatav = false → ∃ b, i = .wbyte b ∧ t.rxData = b) ∧
     (t.flag .ack = true → s.flag .ack = false → i = .cack)) ∧
    ((i ≠ .deactivate ∧ ∀ addr, i ≠ .activateF addr) →
     (t.flag .arblost = false → s.flag .arblost = true → i = .ifArblost) ∧
     (t.flag .buserr = false → s.flag .buserr = true → i = .ifBuserr) ∧
     (t.flag .sstop = false → s.flag .sstop = true → i = .ifSstop) ∧
     (t.flag .addr = false → s.flag .addr = true → i = .ifAddr) ∧
     (t.flag .rxdatav = false → s.flag .rxdatav = true → i = .ifRxdatav) ∧
     (t.flag .ack = false → s.flag .ack = true → i = .ifAck)) ∧
    ((i = .deactivate ∨ ∃ addr, i = .activateF addr) → t.readIF = s.readIF ∨ t.readIF = 0)

/-- R142: the entry step, that nothing else of the state changes in it, and that FG has no step before the exit. -/
def Obligations.InterruptEntryLatchesTheSnapshot : Prop :=
  (∀ s t : State, s.svState ≠ .idle → s.agentStep .fg ≠ .next t) ∧
  ∀ s : State, s.svState = .idle →
    (s.irq = true →
      s.agentStep .svc =
        .next { s with svSnap := (s.readIF &&& s.readIEN).extractLsb' 0 6, svNext := 0, svState := .run }) ∧
    (s.irq = false → s.agentStep .svc = .refused .noStep)

/-- R144, R154, R157, R200: the service step takes the lowest snapshot bit not yet considered, and exits when none is
left. -/
def Obligations.ServiceTakesTheLowestRemainingFlag : Prop :=
  ∀ s : State, s.svState = .run →
    (∀ f : Flag, s.svSnap.getLsbD f.bit.val = true → s.svNext.val ≤ f.bit.val →
      (∀ g : Flag, s.svSnap.getLsbD g.bit.val = true → s.svNext.val ≤ g.bit.val → f.bit ≤ g.bit) →
      s.agentStep .svc = exec (match f with
        | .arblost => Instr.ifArblost | .buserr => .ifBuserr | .sstop => .ifSstop
        | .addr => .ifAddr | .rxdatav => .ifRxdatav | .ack => .ifAck) s) ∧
    ((∀ f : Flag, s.svNext.val ≤ f.bit.val → s.svSnap.getLsbD f.bit.val = false) →
      s.agentStep .svc = .next { s with svState := .idle, svSnap := 0, svNext := 0 })

/-- R145, R146, R147: the bus fault branches and the stop branch clear their flag and FTIP. -/
def Obligations.FaultAndStopBranchesClearFtip : Prop :=
  ∀ s : State, s.svState = .run →
    (∃ t, exec .ifArblost s = .next t ∧ t = { s with ftip := false, svNext := 1, ifReg := t.ifReg } ∧
      t.readIF = s.readIF &&& 0x3E) ∧
    (∃ t, exec .ifBuserr s = .next t ∧ t = { s with ftip := false, svNext := 2, ifReg := t.ifReg } ∧
      t.readIF = s.readIF &&& 0x3D) ∧
    (∃ t, exec .ifSstop s = .next t ∧ t = { s with ftip := false, svNext := 3, ifReg := t.ifReg } ∧
      t.readIF = s.readIF &&& 0x3B)

/-- R148, R151, R153: the address branch, for a writing and a reading controller, with and without a handler. -/
def Obligations.AddressBranchAcknowledgesOrCalls : Prop :=
  ∀ s : State, s.svState = .run →
    ∃ t, exec .ifAddr s = .next t ∧ t.readIF = s.readIF &&& 0x37 ∧ t.ftip = true ∧
      (s.addrStatus.getLsbD 0 = false →
        t = State.feCmdAck { s with ftip := true, svNext := 4, ifReg := t.ifReg } ∧
        (s.phase = .aholdW →
          t = { s with ftip := true, svNext := 4, ifReg := t.ifReg, busOut := s.busOut ++ [.ack], phase := .rx }) ∧
        (s.phase = .idle → t = { s with ftip := true, svNext := 4, ifReg := t.ifReg })) ∧
      (s.addrStatus.getLsbD 0 = true →
        (s.regReq = 0 ∨ s.params.handlers.lookup s.regReq = none →
          t = { s with ftip := true, svNext := 4, ifReg := t.ifReg }) ∧
        (s.regReq ≠ 0 → (s.params.handlers.lookup s.regReq).isSome = true →
          t = { s with ftip := true, svNext := 4, ifReg := t.ifReg, cbLog := s.cbLog ++ [.req], cbKind := .req,
                       cbHid := s.regReq, cbPc := 0, cbArg := 0, svState := .call }))

/-- R149, R151, R153: the byte branch on a full FIFO, and on one with room: the slot it stores to is WR mod N, and every
other slot reads as before. -/
def Obligations.ByteBranchStoresOrRefuses : Prop :=
  ∀ s : State, Inv s → s.svState = .run →
    ∃ t, exec .ifRxdatav s = .next t ∧ t.readIF = s.readIF &&& 0x2F ∧
      (s.count = s.params.fifoCap → t = State.feCmdNack { s with svNext := 5, ifReg := t.ifReg }) ∧
      (s.count < s.params.fifoCap →
        (∃ u, u = State.feCmdAck { s with svNext := 5, ifReg := t.ifReg, fifoMem := t.fifoMem,
                                          wr := BitVec.ofNat 16 ((s.wr.toNat + 1) % (2 * s.params.fifoCap)) } ∧
          (s.regRx = 0 ∨ s.params.handlers.lookup s.regRx = none → t = u) ∧
          (s.regRx ≠ 0 → (s.params.handlers.lookup s.regRx).isSome = true →
            t = { u with cbLog := s.cbLog ++ [.rx (BitVec.ofNat 16 (s.count + 1))], cbKind := .rx, cbHid := s.regRx,
                         cbPc := 0, cbArg := BitVec.ofNat 16 (s.count + 1), svState := .call })) ∧
        (∀ a, Memory.read t.fifoMem a =
          if a = s.wr.toNat % s.params.fifoCap then s.rxData else Memory.read s.fifoMem a) ∧
        Memory.wf t.fifoMem = true ∧ t.count = s.count + 1)

/-- R150, R151, R153: the acknowledge branch calls the on-request handler, if there is one. -/
def Obligations.AcknowledgeBranchCalls : Prop :=
  ∀ s : State, s.svState = .run →
    ∃ t, exec .ifAck s = .next t ∧ t.readIF = s.readIF &&& 0x1F ∧
      (s.regReq = 0 ∨ s.params.handlers.lookup s.regReq = none → t = { s with svNext := 6, ifReg := t.ifReg }) ∧
      (s.regReq ≠ 0 → (s.params.handlers.lookup s.regReq).isSome = true →
        t = { s with svNext := 6, ifReg := t.ifReg, cbLog := s.cbLog ++ [.req], cbKind := .req, cbHid := s.regReq,
                     cbPc := 0, cbArg := 0, svState := .call })

/-- R152: at the end of the handler program the CB step is the return, and only then. -/
def Obligations.CallbacksReturnAtTheEndOfTheProgram : Prop :=
  ∀ (s : State) (prog : List Word), s.svState = .call → s.handlerOf s.cbHid = some prog →
    (s.cbPc = prog.length → s.agentStep .cb = .next { s with svState := .run }) ∧
    (∀ w, prog[s.cbPc]? = some w → s.agentStep .cb = exec (decodeCmd w) s) ∧
    (∀ t, s.cbPc < prog.length → s.agentStep .cb = .next t → t.svState = .call)

/-- R143, R155, R205: within an invocation there is no new entry: the snapshot stays, SV_NEXT never goes back, and each
SVC step either exits or moves SV_NEXT on. -/
def Obligations.InvocationsDoNotNestAndAreBounded : Prop :=
  ∀ s t : State, step s = .next t → s.svState ≠ .idle →
    (t.svState = .idle ∧ t.svSnap = 0 ∧ t.svNext = 0 ∧ s.nextTurn = .svc) ∨
    (t.svState ≠ .idle ∧ t.svSnap = s.svSnap ∧ s.svNext ≤ t.svNext ∧
      (s.nextTurn = .svc → s.svNext < t.svNext))

/-- R202, R203, R204: the service engine, the callbacks and the bus leave the foreground's position, its open READ and
its results as they are. -/
def Obligations.InterruptContextPreservesTheForeground : Prop :=
  ∀ (s t : State) (a : AgentTurn), s.nextTurn = a → a ≠ .fg → step s = .next t →
    t.fgPc = s.fgPc ∧ t.fgMicro = s.fgMicro ∧ t.fgRes = s.fgRes

/-- R155, R208: in a fair run the block always comes back to foreground context. -/
def Obligations.FairRunsReturnToTheForeground : Prop :=
  ∀ (r : Nat → State) (c : Nat → AgentTurn), IsRun r c → IsFair r c → ∀ n, ∃ m, n ≤ m ∧ (r m).svState = .idle

/-! ## FIFO (41_ring_buffer.md) -/

/-- R91, with the model's operand and reply (log 10): STORE puts RXDATA into slot WR mod N, or rejects it; it is the RXDATAV
branch's alone (R90). -/
def Obligations.StoreWritesOneSlotOrRejects : Prop :=
  ∀ s : State,
    (s.svState ≠ .run ∨ s.svNext ≠ 5 → exec .fifoStore s = .refused .noStep) ∧
    (s.svState = .run → s.svNext = 5 → s.count = s.params.fifoCap →
      exec .fifoStore s = .next { s with fifoReply := some .rejected }) ∧
    (s.svState = .run → s.svNext = 5 → s.count ≠ s.params.fifoCap → Memory.wf s.fifoMem = true →
      ∃ t, exec .fifoStore s = .next t ∧
        t = { s with fifoMem := t.fifoMem, wr := BitVec.ofNat 16 ((s.wr.toNat + 1) % (2 * s.params.fifoCap)),
                     fifoReply := some .ok } ∧
        Memory.wf t.fifoMem = true ∧
        ∀ a, Memory.read t.fifoMem a =
          if a = s.wr.toNat % s.params.fifoCap then s.rxData else Memory.read s.fifoMem a)

/-- R92 to R95, R104, with the model's reply (log 10): the READ operation, one step of a callback's or of the foreground's. -/
def Obligations.ReadPortFollowsTheContext : Prop :=
  ∀ s : State,
    let out (r : Word) : Word := BitVec.ofNat 16 ((r.toNat + 1) % (2 * s.params.fifoCap))
    let byte (r : Word) : Byte := Memory.read s.fifoMem (r.toNat % s.params.fifoCap)
    (s.svState = .run → exec .fifoRead s = .refused .noStep) ∧
    (s.svState = .call → s.fgMicro ≠ .none → s.fault = none →
      exec .fifoRead s = .next { s with fault := some (.consumerRace 0x5000) }) ∧
    (s.svState = .call → s.fgMicro = .none → s.wr ≠ s.rd →
      exec .fifoRead s = .next { s with rd := out s.rd, fifoReply := some (.byte (byte s.rd)) }) ∧
    (s.svState ≠ .run → s.fgMicro = .none → s.wr = s.rd →
      exec .fifoRead s = .next { s with fifoReply := some .empty }) ∧
    (s.svState = .idle → s.fgMicro = .none → s.wr ≠ s.rd →
      exec .fifoRead s = .next { s with fgMicro := .open1 s.rd, fifoReply := some .pending }) ∧
    (∀ r, s.svState = .idle → s.fgMicro = .open1 r →
      exec .fifoRead s = .next { s with fgMicro := .open2 r (byte r), fifoReply := some .pending }) ∧
    (∀ r b, s.svState = .idle → s.fgMicro = .open2 r b →
      exec .fifoRead s = .next { s with rd := out r, fgMicro := .none, fifoReply := some (.byte b) })

/-- R96, R97, R98, with the model's reply (log 10): AVAILABLE, ISFULL and CLEAR, for the issuers R90 gives them; CLEAR writes no slot. -/
def Obligations.AvailableIsfullAndClearPorts : Prop :=
  ∀ s : State,
    (∀ ctx, s.issuer = some ctx → exec .fifoAvailable s = .next { s with fifoReply := some (.count s.count) }) ∧
    (s.issuer = none → exec .fifoAvailable s = .refused .noStep) ∧
    (s.svState = .run → s.svNext = 5 →
      exec .fifoIsfull s = .next { s with fifoReply := some (.full (decide (s.count = s.params.fifoCap))) }) ∧
    (s.svState ≠ .run ∨ s.svNext ≠ 5 → exec .fifoIsfull s = .refused .noStep) ∧
    (s.issuer = some .fg → exec .fifoClear s = .next { s with wr := 0, rd := 0, fifoReply := some .done }) ∧
    (s.issuer ≠ some .fg → exec .fifoClear s = .refused .noStep)

/-- R64, R100, R102, which the spec marks as derived: the FIFO is a queue. A step leaves the unread bytes alone; or it is
SVC's RXDATAV branch and appends the received byte below N (R63: the only producer); or it is a READ of FG or CB, takes the
oldest byte and returns exactly it; or it is FG's DEACTIVATE, or its ACTIVATE_F in UNINIT, and clears (R90, R105). -/
def Obligations.TheFifoIsAQueue : Prop :=
  ∀ s t : State, Inv s → step s = .next t →
    t.queue = s.queue ∨
    (t.queue = s.queue ++ [s.rxData] ∧ s.queue.length < s.params.fifoCap ∧
      s.nextTurn = .svc ∧ s.svState = .run ∧ decode .if8 s.svcWord = .instr .ifRxdatav) ∨
    (∃ b, s.queue = b :: t.queue ∧
      ((s.nextTurn = .fg ∧ t.fgRes = s.fgRes ++ [b.setWidth 16]) ∨
       (s.nextTurn = .cb ∧ t.cbRes = s.cbRes ++ [b.setWidth 16]))) ∨
    (t.queue = [] ∧ s.nextTurn = .fg ∧ s.svState = .idle ∧ t.fgMicro = .none ∧ s.fgMicro = .none ∧
      ∃ w, s.fgWord = some w ∧
        (decodeCmd w = .deactivate ∨ (s.role = .uninit ∧ ∃ addr, decodeCmd w = .activateF addr)))

/-! ## Who writes what (10_state.md) -/

/-- R22, R23, R26, R38: the control registers and the registrations. -/
def Obligations.ControlRegistersHaveOnlyTheirWriters : Prop :=
  ∀ (i : Instr) (s t : State), exec i s = .next t →
    (t.role ≠ s.role → i = .activateL ∨ i = .deactivate ∨ ∃ addr, i = .activateF addr) ∧
    (t.ownAddr ≠ s.ownAddr → i = .activateF t.ownAddr) ∧
    (t.ien ≠ s.ien → i = .deactivate ∨ ∃ addr, i = .activateF addr) ∧
    (t.regRx ≠ s.regRx → i = .onReceive t.regRx) ∧ (t.regReq ≠ s.regReq → i = .onRequest t.regReq) ∧
    t.params = s.params

/-- R28, R29, R35, R52: the data registers, the FIFO storage and its indexes. -/
def Obligations.DataRegistersAndFifoHaveOnlyTheirWriters : Prop :=
  ∀ (i : Instr) (s t : State), exec i s = .next t →
    (t.addrStatus ≠ s.addrStatus → ∃ d, i = .startAddr s.ownAddr d) ∧
    (t.rxData ≠ s.rxData → i = .wbyte t.rxData ∧ s.phase = .rx) ∧
    (t.fifoMem ≠ s.fifoMem → i ∈ [Instr.ifRxdatav, .fifoStore]) ∧
    (t.wr ≠ s.wr → i ∈ [Instr.ifRxdatav, .fifoStore, .deactivate, .fifoClear] ∨ ∃ addr, i = .activateF addr) ∧
    (t.rd ≠ s.rd → i ∈ [Instr.read, .fifoRead, .deactivate, .fifoClear] ∨ ∃ addr, i = .activateF addr) ∧
    (t.fgMicro ≠ s.fgMicro → i ∈ [Instr.read, .fifoRead])

/-- R32, R33, R34, R127: the transaction state; a byte leaves TXQ unsent only where R127 says. -/
def Obligations.TransactionStateHasOnlyItsWriters : Prop :=
  ∀ (i : Instr) (s t : State), exec i s = .next t →
    (t.ftip = true → s.ftip = false → i = .ifAddr) ∧
    (t.ftip = false → s.ftip = true →
      i ∈ [Instr.ifArblost, .ifBuserr, .ifSstop, .deactivate] ∨ ∃ addr, i = .activateF addr) ∧
    (t.addressed = true → s.addressed = false → ∃ d, i = .startAddr s.ownAddr d) ∧
    (t.addressed = false → s.addressed = true →
      i ∈ [Instr.stop, .arblost, .buserr, .deactivate] ∨ ∃ addr, i = .activateF addr) ∧
    (t.txq = s.txq ∨ (∃ b, i = .write b ∧ t.txq = s.txq ++ [b]) ∨
      (∃ b h, i = .write b ∧ s.txq ++ [b] = h :: t.txq ∧ BusOut.byte h ∈ t.busOut.drop s.busOut.length) ∨
      (∃ h, i ∈ [Instr.feAck, .cack, .ifAddr, .ifRxdatav] ∧ s.txq = h :: t.txq ∧
        BusOut.byte h ∈ t.busOut.drop s.busOut.length) ∨
      (t.txq = [] ∧ (i ∈ [Instr.stop, .arblost, .buserr, .deactivate] ∨ (∃ addr, i = .activateF addr) ∨
        ∃ d, i = .startAddr s.ownAddr d)))

/-- R42, R43, R45, R131: the observation lists only grow, in every step. BUS_OUT gains one OUT_ACK or OUT_NACK for an
address or byte that the step answers, and one OUT_BYTE for a byte that it sends, in that order, and nothing else; an
OUT_NACK comes from the RXDATAV branch on a full FIFO only (R129). -/
def Obligations.ObservationListsOnlyGrow : Prop :=
  ∀ s t : State, step s = .next t →
    (∃ x, t.busOut = s.busOut ++ x ∧
      ((x = [] ∧ (s.phase.hold = true → t.phase ∈ [s.phase, .idle, .off])) ∨
       (x = [.ack] ∧ s.phase ∈ [Phase.aholdW, .rxhold] ∧ t.phase = .rx) ∨
       (∃ b, x = [.ack, .byte b] ∧ s.phase = .aholdR ∧ t.phase = .txbusy) ∨
       (∃ b, x = [.byte b] ∧ s.phase ∈ [Phase.txhold, .txbusy] ∧ t.phase = .txbusy) ∨
       (x = [.nack] ∧ s.phase ∈ [Phase.aholdW, .rxhold, .aholdR] ∧ t.phase = .nacked ∧ s.count = s.params.fifoCap ∧
         s.nextTurn = .svc ∧ decode .if8 s.svcWord = .instr .ifRxdatav))) ∧
    (∃ x, t.cbLog = s.cbLog ++ x ∧ x.length ≤ 1) ∧
    (∃ x, t.fgRes = s.fgRes ++ x ∧ x.length ≤ 1) ∧ (∃ x, t.cbRes = s.cbRes ++ x ∧ x.length ≤ 1)

/-! ## Hazards and instances (70_reset_and_hazards.md, 60_exceptions.md section 5) -/

/-- R224, R226, R228, which the spec marks as derived: what one invocation makes of three pairs of flags pending together.
A STOP and a new match of a writing controller end with FTIP = 1 and the new address acknowledged; a match of a writing
controller and a bus fault of either kind leave FTIP = 1 with nothing sent; a byte and a bus fault of either kind store the
byte, in a FIFO with room and with no on-receive handler, with nothing sent. -/
def Obligations.ThreePendingPairsEndAsTheHazardRulesSay : Prop :=
  ∀ s : State, Inv s → s.svState = .idle → s.readIEN = 0x3F →
    (s.readIF = 0x0C → s.addrStatus.getLsbD 0 = false → s.phase = .aholdW →
      ∃ t, svcSteps 4 s = .next t ∧
        t = { s with ifReg := t.ifReg, ftip := true, phase := .rx, busOut := s.busOut ++ [.ack] } ∧ t.readIF = 0) ∧
    (s.readIF = 0x09 ∨ s.readIF = 0x0A → s.addrStatus.getLsbD 0 = false → s.phase = .idle →
      ∃ t, svcSteps 4 s = .next t ∧ t = { s with ifReg := t.ifReg, ftip := true } ∧ t.readIF = 0) ∧
    (s.readIF = 0x11 ∨ s.readIF = 0x12 → s.count < s.params.fifoCap → s.regRx = 0 → s.phase = .idle →
      ∃ t, svcSteps 4 s = .next t ∧ t.queue = s.queue ++ [s.rxData] ∧ t.busOut = s.busOut ∧ t.ftip = false ∧
        t.phase = .idle ∧ t.svState = .idle ∧ t.readIF = 0)

/-- R209, R223: a held reading controller with no flag pending and no program left is stuck: only a bus fault moves it. -/
def Obligations.AnUnansweredReadIsStuck : Prop :=
  ∀ s : State, s.fault = none → s.refused = none → s.phase ∈ [Phase.aholdR, .txhold] → s.svState = .idle →
    s.irq = false → s.fgMicro = .none → s.params.fgProgram.length ≤ s.fgPc →
    s.stuck ∧ ¬ s.finished ∧
    ∀ a t, s.agentStep a = .next t → (a = .bus 0x6000 ∨ a = .bus 0x7000) ∧ t.phase = .idle

/-- R210: a step of one instance is that instance's own step, and no other instance changes. -/
def Obligations.InstancesAreIndependent : Prop :=
  ∀ (p q : Platform) (k : Nat), platformStep k p = some q →
    q.length = p.length ∧ (∀ j, j ≠ k → q[j]? = p[j]?) ∧
    ∃ s t, p[k]? = some s ∧ q[k]? = some t ∧ step s = .next t
end

