-- ==== Sys2Proof/Laws/Decode.lean ====
section
/-! SUPPORT. What each field of a word is, as bits of a made word and as a number of a given one (R70, R77, R81). -/

namespace Sys2Proof.Laws

@[simp] theorem opField_makeWord (op : BitVec 4) (low : Byte) : opField (makeWord op low) = op := by
  ext i hi
  simp only [opField, makeWord, BitVec.getElem_extractLsb', BitVec.getLsbD_append]
  rw [if_neg (by omega), if_neg (by omega)]
  simp [show 12 + i - 8 - 4 = i by omega, BitVec.getLsbD_eq_getElem hi]

@[simp] theorem rsvField_makeWord (op : BitVec 4) (low : Byte) : rsvField (makeWord op low) = 0 := by
  ext i hi
  simp only [rsvField, makeWord, BitVec.getElem_extractLsb', BitVec.getLsbD_append]
  rw [if_neg (by omega), if_pos (by omega)]
  simp

@[simp] theorem lowByte_makeWord (op : BitVec 4) (low : Byte) : lowByte (makeWord op low) = low := by
  ext i hi
  simp only [lowByte, makeWord, BitVec.getElem_extractLsb', BitVec.getLsbD_append]
  rw [if_pos (by omega)]
  simp [BitVec.getLsbD_eq_getElem hi]

@[simp] theorem addrOfPayload_addressByte (a : Addr7) (d : Dir) : addrOfPayload (addressByte a d) = a := by
  cases d <;> revert a <;> decide

@[simp] theorem dirOfPayload_addressByte (a : Addr7) (d : Dir) : dirOfPayload (addressByte a d) = d := by
  cases d <;> revert a <;> decide

@[simp] theorem addrField_append (addr : Addr7) : addrField (0#1 ++ addr) = addr := by
  ext i hi
  simp only [addrField, BitVec.getElem_extractLsb', BitVec.getLsbD_append]
  rw [if_pos (by omega)]
  simp [BitVec.getLsbD_eq_getElem hi]

theorem opField_toNat (w : Word) : (opField w).toNat = w.toNat / 4096 := by
  have := w.isLt
  simp only [opField, BitVec.extractLsb'_toNat, Nat.shiftRight_eq_div_pow]
  omega

theorem rsvField_toNat (w : Word) : (rsvField w).toNat = w.toNat / 256 % 16 := by
  simp only [rsvField, BitVec.extractLsb'_toNat, Nat.shiftRight_eq_div_pow]

theorem lowByte_toNat (w : Word) : (lowByte w).toNat = w.toNat % 256 := by
  simp only [lowByte, BitVec.extractLsb'_toNat, Nat.shiftRight_eq_div_pow]
  simp

theorem rsvField_eq_zero (w : Word) : rsvField w = 0 ↔ w.toNat / 256 % 16 = 0 := by
  rw [← rsvField_toNat, ← BitVec.toNat_inj]; simp

theorem lowByte_eq_zero (w : Word) : lowByte w = 0 ↔ w.toNat % 256 = 0 := by
  rw [← lowByte_toNat, ← BitVec.toNat_inj]; simp

/-- `imm8[7]` (R72). -/
theorem lowByte_bit7 (w : Word) : (lowByte w).getLsbD 7 = true ↔ 128 ≤ w.toNat % 256 := by
  have h : w.toNat % 256 < 256 := Nat.mod_lt _ (by decide)
  simp only [← lowByte_toNat, BitVec.getLsbD, Nat.testBit_eq_decide_div_mod_eq, decide_eq_true_eq] at h ⊢
  omega

/-- A word is made of its fields (R70, R77). -/
theorem makeWord_fields (w : Word) (h : rsvField w = 0) : makeWord (opField w) (lowByte w) = w := by
  have h' := (rsvField_eq_zero w).mp h
  apply BitVec.eq_of_toNat_eq
  simp only [makeWord, BitVec.toNat_append, opField_toNat, lowByte_toNat, Nat.shiftLeft_eq]
  have hlow : w.toNat % 256 < 2 ^ 8 := Nat.mod_lt _ (by decide)
  have e : ((w.toNat / 4096 * 2 ^ 4 ||| (0#4).toNat) * 2 ^ 8) = 2 ^ 8 * (w.toNat / 4096 * 16) := by simp; omega
  rw [e, ← Nat.two_pow_add_eq_or_of_lt hlow]
  omega

/-- A payload is made of its fields (R81). -/
theorem addressByte_fields (b : Byte) : addressByte (addrOfPayload b) (dirOfPayload b) = b := by
  revert b; decide

/-- The illegal words are those that decode to ILLEGAL (R72). -/
theorem illegalWord_iff (w : Word) : illegalWord w = true ↔ decodeCmd w = .illegal w := by
  have h1 : (w >>> 12).toNat = (opField w).toNat := by
    rw [opField_toNat]; simp [Nat.shiftRight_eq_div_pow]
  have h2 : (w &&& 0x00FF#16 = 0#16) ↔ lowByte w = 0 := by
    rw [← BitVec.toNat_inj, ← BitVec.toNat_inj, lowByte_toNat]
    simp only [BitVec.toNat_and]
    show w.toNat &&& 255 = 0 ↔ _
    rw [show (255:Nat) = 2^8-1 by rfl, Nat.and_two_pow_sub_one_eq_mod]; rfl
  have h3 : (w &&& 0x0F00#16 = 0#16) ↔ rsvField w = 0 := by
    constructor
    · intro e
      have := congrArg rsvField e
      have e2 : rsvField (w &&& 0x0F00#16) = rsvField w := by
        ext i hi; simp [rsvField]
        have : i = 0 ∨ i = 1 ∨ i = 2 ∨ i = 3 := by omega
        rcases this with rfl|rfl|rfl|rfl <;> simp
      rw [e2] at this
      rw [this]; decide
    · intro e
      ext i hi
      have hb : ∀ j (hj : j<4), (rsvField w)[j] = false := by intro j hj; rw [e]; simp
      have : i = 0 ∨ i = 1 ∨ i = 2 ∨ i = 3 ∨ i=4 ∨ i=5∨i=6∨i=7∨i=8∨i=9∨i=10∨i=11∨i=12∨i=13∨i=14∨i=15 := by omega
      have b0 := hb 0 (by omega); have b1 := hb 1 (by omega); have b2 := hb 2 (by omega); have b3 := hb 3 (by omega)
      simp [rsvField, BitVec.getLsbD_eq_getElem] at b0 b1 b2 b3
      rcases this with rfl|rfl|rfl|rfl|rfl|rfl|rfl|rfl|rfl|rfl|rfl|rfl|rfl|rfl|rfl|rfl <;> simp_all
  have h4 : (w &&& 0x0080#16 = 0#16) ↔ (lowByte w).getLsbD 7 = false := by
    constructor
    · intro e
      have := congrArg (·.getLsbD 7) e
      simpa [lowByte] using this
    · intro e
      ext i hi
      have : i = 0 ∨ i = 1 ∨ i = 2 ∨ i = 3 ∨ i=4 ∨ i=5∨i=6∨i=7∨i=8∨i=9∨i=10∨i=11∨i=12∨i=13∨i=14∨i=15 := by omega
      simp [lowByte, BitVec.getLsbD_eq_getElem] at e
      rcases this with rfl|rfl|rfl|rfl|rfl|rfl|rfl|rfl|rfl|rfl|rfl|rfl|rfl|rfl|rfl|rfl <;> simp_all
  have hop := (opField w).isLt
  unfold illegalWord decodeCmd bare
  simp only [h1, bne_iff_ne, ne_eq, Bool.or_eq_true, Bool.and_eq_true, decide_eq_true_eq, beq_iff_eq, h2, h3, h4]
  generalize (opField w).toNat = op at *
  interval_cases op <;> simp <;> simp_all <;> tauto

end Sys2Proof.Laws
end

