-- ==== Sys2Proof/Laws/State.lean ====
section
/-! SUPPORT. One simp lemma for each field and each named update of the state, so that no later proof unfolds an update.
An update that splits into cases first says which fields it can write (`<update>_writes`). -/

namespace Sys2Proof.Laws

open Sys2Proof.Machine

variable (s : State)

/-! `writeIF` -/

@[simp] theorem writeIF_role (v : BitVec 8) : (s.writeIF v).role = s.role := rfl
@[simp] theorem writeIF_ownAddr (v : BitVec 8) : (s.writeIF v).ownAddr = s.ownAddr := rfl
@[simp] theorem writeIF_ifReg (v : BitVec 8) : (s.writeIF v).ifReg = v &&& flagBits := rfl
@[simp] theorem writeIF_ien (v : BitVec 8) : (s.writeIF v).ien = s.ien := rfl
@[simp] theorem writeIF_addrStatus (v : BitVec 8) : (s.writeIF v).addrStatus = s.addrStatus := rfl
@[simp] theorem writeIF_rxData (v : BitVec 8) : (s.writeIF v).rxData = s.rxData := rfl
@[simp] theorem writeIF_phase (v : BitVec 8) : (s.writeIF v).phase = s.phase := rfl
@[simp] theorem writeIF_addressed (v : BitVec 8) : (s.writeIF v).addressed = s.addressed := rfl
@[simp] theorem writeIF_txq (v : BitVec 8) : (s.writeIF v).txq = s.txq := rfl
@[simp] theorem writeIF_ftip (v : BitVec 8) : (s.writeIF v).ftip = s.ftip := rfl
@[simp] theorem writeIF_fifoMem (v : BitVec 8) : (s.writeIF v).fifoMem = s.fifoMem := rfl
@[simp] theorem writeIF_wr (v : BitVec 8) : (s.writeIF v).wr = s.wr := rfl
@[simp] theorem writeIF_rd (v : BitVec 8) : (s.writeIF v).rd = s.rd := rfl
@[simp] theorem writeIF_regRx (v : BitVec 8) : (s.writeIF v).regRx = s.regRx := rfl
@[simp] theorem writeIF_regReq (v : BitVec 8) : (s.writeIF v).regReq = s.regReq := rfl
@[simp] theorem writeIF_svState (v : BitVec 8) : (s.writeIF v).svState = s.svState := rfl
@[simp] theorem writeIF_svSnap (v : BitVec 8) : (s.writeIF v).svSnap = s.svSnap := rfl
@[simp] theorem writeIF_svNext (v : BitVec 8) : (s.writeIF v).svNext = s.svNext := rfl
@[simp] theorem writeIF_cbKind (v : BitVec 8) : (s.writeIF v).cbKind = s.cbKind := rfl
@[simp] theorem writeIF_cbHid (v : BitVec 8) : (s.writeIF v).cbHid = s.cbHid := rfl
@[simp] theorem writeIF_cbPc (v : BitVec 8) : (s.writeIF v).cbPc = s.cbPc := rfl
@[simp] theorem writeIF_cbArg (v : BitVec 8) : (s.writeIF v).cbArg = s.cbArg := rfl
@[simp] theorem writeIF_fgPc (v : BitVec 8) : (s.writeIF v).fgPc = s.fgPc := rfl
@[simp] theorem writeIF_fgMicro (v : BitVec 8) : (s.writeIF v).fgMicro = s.fgMicro := rfl
@[simp] theorem writeIF_busOut (v : BitVec 8) : (s.writeIF v).busOut = s.busOut := rfl
@[simp] theorem writeIF_cbLog (v : BitVec 8) : (s.writeIF v).cbLog = s.cbLog := rfl
@[simp] theorem writeIF_fgRes (v : BitVec 8) : (s.writeIF v).fgRes = s.fgRes := rfl
@[simp] theorem writeIF_cbRes (v : BitVec 8) : (s.writeIF v).cbRes = s.cbRes := rfl
@[simp] theorem writeIF_fault (v : BitVec 8) : (s.writeIF v).fault = s.fault := rfl
@[simp] theorem writeIF_refused (v : BitVec 8) : (s.writeIF v).refused = s.refused := rfl
@[simp] theorem writeIF_params (v : BitVec 8) : (s.writeIF v).params = s.params := rfl
@[simp] theorem writeIF_sched (v : BitVec 8) : (s.writeIF v).sched = s.sched := rfl
@[simp] theorem writeIF_tick (v : BitVec 8) : (s.writeIF v).tick = s.tick := rfl
@[simp] theorem writeIF_fifoReply (v : BitVec 8) : (s.writeIF v).fifoReply = s.fifoReply := rfl
@[simp] theorem writeIF_readIEN (v : BitVec 8) : (s.writeIF v).readIEN = s.readIEN := rfl
@[simp] theorem writeIF_count (v : BitVec 8) : (s.writeIF v).count = s.count := rfl

/-! `writeIEN` -/

@[simp] theorem writeIEN_role (v : BitVec 8) : (s.writeIEN v).role = s.role := rfl
@[simp] theorem writeIEN_ownAddr (v : BitVec 8) : (s.writeIEN v).ownAddr = s.ownAddr := rfl
@[simp] theorem writeIEN_ifReg (v : BitVec 8) : (s.writeIEN v).ifReg = s.ifReg := rfl
@[simp] theorem writeIEN_ien (v : BitVec 8) : (s.writeIEN v).ien = v &&& flagBits := rfl
@[simp] theorem writeIEN_addrStatus (v : BitVec 8) : (s.writeIEN v).addrStatus = s.addrStatus := rfl
@[simp] theorem writeIEN_rxData (v : BitVec 8) : (s.writeIEN v).rxData = s.rxData := rfl
@[simp] theorem writeIEN_phase (v : BitVec 8) : (s.writeIEN v).phase = s.phase := rfl
@[simp] theorem writeIEN_addressed (v : BitVec 8) : (s.writeIEN v).addressed = s.addressed := rfl
@[simp] theorem writeIEN_txq (v : BitVec 8) : (s.writeIEN v).txq = s.txq := rfl
@[simp] theorem writeIEN_ftip (v : BitVec 8) : (s.writeIEN v).ftip = s.ftip := rfl
@[simp] theorem writeIEN_fifoMem (v : BitVec 8) : (s.writeIEN v).fifoMem = s.fifoMem := rfl
@[simp] theorem writeIEN_wr (v : BitVec 8) : (s.writeIEN v).wr = s.wr := rfl
@[simp] theorem writeIEN_rd (v : BitVec 8) : (s.writeIEN v).rd = s.rd := rfl
@[simp] theorem writeIEN_regRx (v : BitVec 8) : (s.writeIEN v).regRx = s.regRx := rfl
@[simp] theorem writeIEN_regReq (v : BitVec 8) : (s.writeIEN v).regReq = s.regReq := rfl
@[simp] theorem writeIEN_svState (v : BitVec 8) : (s.writeIEN v).svState = s.svState := rfl
@[simp] theorem writeIEN_svSnap (v : BitVec 8) : (s.writeIEN v).svSnap = s.svSnap := rfl
@[simp] theorem writeIEN_svNext (v : BitVec 8) : (s.writeIEN v).svNext = s.svNext := rfl
@[simp] theorem writeIEN_cbKind (v : BitVec 8) : (s.writeIEN v).cbKind = s.cbKind := rfl
@[simp] theorem writeIEN_cbHid (v : BitVec 8) : (s.writeIEN v).cbHid = s.cbHid := rfl
@[simp] theorem writeIEN_cbPc (v : BitVec 8) : (s.writeIEN v).cbPc = s.cbPc := rfl
@[simp] theorem writeIEN_cbArg (v : BitVec 8) : (s.writeIEN v).cbArg = s.cbArg := rfl
@[simp] theorem writeIEN_fgPc (v : BitVec 8) : (s.writeIEN v).fgPc = s.fgPc := rfl
@[simp] theorem writeIEN_fgMicro (v : BitVec 8) : (s.writeIEN v).fgMicro = s.fgMicro := rfl
@[simp] theorem writeIEN_busOut (v : BitVec 8) : (s.writeIEN v).busOut = s.busOut := rfl
@[simp] theorem writeIEN_cbLog (v : BitVec 8) : (s.writeIEN v).cbLog = s.cbLog := rfl
@[simp] theorem writeIEN_fgRes (v : BitVec 8) : (s.writeIEN v).fgRes = s.fgRes := rfl
@[simp] theorem writeIEN_cbRes (v : BitVec 8) : (s.writeIEN v).cbRes = s.cbRes := rfl
@[simp] theorem writeIEN_fault (v : BitVec 8) : (s.writeIEN v).fault = s.fault := rfl
@[simp] theorem writeIEN_refused (v : BitVec 8) : (s.writeIEN v).refused = s.refused := rfl
@[simp] theorem writeIEN_params (v : BitVec 8) : (s.writeIEN v).params = s.params := rfl
@[simp] theorem writeIEN_sched (v : BitVec 8) : (s.writeIEN v).sched = s.sched := rfl
@[simp] theorem writeIEN_tick (v : BitVec 8) : (s.writeIEN v).tick = s.tick := rfl
@[simp] theorem writeIEN_fifoReply (v : BitVec 8) : (s.writeIEN v).fifoReply = s.fifoReply := rfl
@[simp] theorem writeIEN_readIF (v : BitVec 8) : (s.writeIEN v).readIF = s.readIF := rfl
@[simp] theorem writeIEN_count (v : BitVec 8) : (s.writeIEN v).count = s.count := rfl

/-! `setFlag` -/

@[simp] theorem setFlag_role (f : Flag) : (s.setFlag f).role = s.role := rfl
@[simp] theorem setFlag_ownAddr (f : Flag) : (s.setFlag f).ownAddr = s.ownAddr := rfl
@[simp] theorem setFlag_ien (f : Flag) : (s.setFlag f).ien = s.ien := rfl
@[simp] theorem setFlag_addrStatus (f : Flag) : (s.setFlag f).addrStatus = s.addrStatus := rfl
@[simp] theorem setFlag_rxData (f : Flag) : (s.setFlag f).rxData = s.rxData := rfl
@[simp] theorem setFlag_phase (f : Flag) : (s.setFlag f).phase = s.phase := rfl
@[simp] theorem setFlag_addressed (f : Flag) : (s.setFlag f).addressed = s.addressed := rfl
@[simp] theorem setFlag_txq (f : Flag) : (s.setFlag f).txq = s.txq := rfl
@[simp] theorem setFlag_ftip (f : Flag) : (s.setFlag f).ftip = s.ftip := rfl
@[simp] theorem setFlag_fifoMem (f : Flag) : (s.setFlag f).fifoMem = s.fifoMem := rfl
@[simp] theorem setFlag_wr (f : Flag) : (s.setFlag f).wr = s.wr := rfl
@[simp] theorem setFlag_rd (f : Flag) : (s.setFlag f).rd = s.rd := rfl
@[simp] theorem setFlag_regRx (f : Flag) : (s.setFlag f).regRx = s.regRx := rfl
@[simp] theorem setFlag_regReq (f : Flag) : (s.setFlag f).regReq = s.regReq := rfl
@[simp] theorem setFlag_svState (f : Flag) : (s.setFlag f).svState = s.svState := rfl
@[simp] theorem setFlag_svSnap (f : Flag) : (s.setFlag f).svSnap = s.svSnap := rfl
@[simp] theorem setFlag_svNext (f : Flag) : (s.setFlag f).svNext = s.svNext := rfl
@[simp] theorem setFlag_cbKind (f : Flag) : (s.setFlag f).cbKind = s.cbKind := rfl
@[simp] theorem setFlag_cbHid (f : Flag) : (s.setFlag f).cbHid = s.cbHid := rfl
@[simp] theorem setFlag_cbPc (f : Flag) : (s.setFlag f).cbPc = s.cbPc := rfl
@[simp] theorem setFlag_cbArg (f : Flag) : (s.setFlag f).cbArg = s.cbArg := rfl
@[simp] theorem setFlag_fgPc (f : Flag) : (s.setFlag f).fgPc = s.fgPc := rfl
@[simp] theorem setFlag_fgMicro (f : Flag) : (s.setFlag f).fgMicro = s.fgMicro := rfl
@[simp] theorem setFlag_busOut (f : Flag) : (s.setFlag f).busOut = s.busOut := rfl
@[simp] theorem setFlag_cbLog (f : Flag) : (s.setFlag f).cbLog = s.cbLog := rfl
@[simp] theorem setFlag_fgRes (f : Flag) : (s.setFlag f).fgRes = s.fgRes := rfl
@[simp] theorem setFlag_cbRes (f : Flag) : (s.setFlag f).cbRes = s.cbRes := rfl
@[simp] theorem setFlag_fault (f : Flag) : (s.setFlag f).fault = s.fault := rfl
@[simp] theorem setFlag_refused (f : Flag) : (s.setFlag f).refused = s.refused := rfl
@[simp] theorem setFlag_params (f : Flag) : (s.setFlag f).params = s.params := rfl
@[simp] theorem setFlag_sched (f : Flag) : (s.setFlag f).sched = s.sched := rfl
@[simp] theorem setFlag_tick (f : Flag) : (s.setFlag f).tick = s.tick := rfl
@[simp] theorem setFlag_fifoReply (f : Flag) : (s.setFlag f).fifoReply = s.fifoReply := rfl
@[simp] theorem setFlag_readIEN (f : Flag) : (s.setFlag f).readIEN = s.readIEN := rfl
@[simp] theorem setFlag_count (f : Flag) : (s.setFlag f).count = s.count := rfl

/-! `clearFlag` -/

@[simp] theorem clearFlag_role (f : Flag) : (s.clearFlag f).role = s.role := rfl
@[simp] theorem clearFlag_ownAddr (f : Flag) : (s.clearFlag f).ownAddr = s.ownAddr := rfl
@[simp] theorem clearFlag_ien (f : Flag) : (s.clearFlag f).ien = s.ien := rfl
@[simp] theorem clearFlag_addrStatus (f : Flag) : (s.clearFlag f).addrStatus = s.addrStatus := rfl
@[simp] theorem clearFlag_rxData (f : Flag) : (s.clearFlag f).rxData = s.rxData := rfl
@[simp] theorem clearFlag_phase (f : Flag) : (s.clearFlag f).phase = s.phase := rfl
@[simp] theorem clearFlag_addressed (f : Flag) : (s.clearFlag f).addressed = s.addressed := rfl
@[simp] theorem clearFlag_txq (f : Flag) : (s.clearFlag f).txq = s.txq := rfl
@[simp] theorem clearFlag_ftip (f : Flag) : (s.clearFlag f).ftip = s.ftip := rfl
@[simp] theorem clearFlag_fifoMem (f : Flag) : (s.clearFlag f).fifoMem = s.fifoMem := rfl
@[simp] theorem clearFlag_wr (f : Flag) : (s.clearFlag f).wr = s.wr := rfl
@[simp] theorem clearFlag_rd (f : Flag) : (s.clearFlag f).rd = s.rd := rfl
@[simp] theorem clearFlag_regRx (f : Flag) : (s.clearFlag f).regRx = s.regRx := rfl
@[simp] theorem clearFlag_regReq (f : Flag) : (s.clearFlag f).regReq = s.regReq := rfl
@[simp] theorem clearFlag_svState (f : Flag) : (s.clearFlag f).svState = s.svState := rfl
@[simp] theorem clearFlag_svSnap (f : Flag) : (s.clearFlag f).svSnap = s.svSnap := rfl
@[simp] theorem clearFlag_svNext (f : Flag) : (s.clearFlag f).svNext = s.svNext := rfl
@[simp] theorem clearFlag_cbKind (f : Flag) : (s.clearFlag f).cbKind = s.cbKind := rfl
@[simp] theorem clearFlag_cbHid (f : Flag) : (s.clearFlag f).cbHid = s.cbHid := rfl
@[simp] theorem clearFlag_cbPc (f : Flag) : (s.clearFlag f).cbPc = s.cbPc := rfl
@[simp] theorem clearFlag_cbArg (f : Flag) : (s.clearFlag f).cbArg = s.cbArg := rfl
@[simp] theorem clearFlag_fgPc (f : Flag) : (s.clearFlag f).fgPc = s.fgPc := rfl
@[simp] theorem clearFlag_fgMicro (f : Flag) : (s.clearFlag f).fgMicro = s.fgMicro := rfl
@[simp] theorem clearFlag_busOut (f : Flag) : (s.clearFlag f).busOut = s.busOut := rfl
@[simp] theorem clearFlag_cbLog (f : Flag) : (s.clearFlag f).cbLog = s.cbLog := rfl
@[simp] theorem clearFlag_fgRes (f : Flag) : (s.clearFlag f).fgRes = s.fgRes := rfl
@[simp] theorem clearFlag_cbRes (f : Flag) : (s.clearFlag f).cbRes = s.cbRes := rfl
@[simp] theorem clearFlag_fault (f : Flag) : (s.clearFlag f).fault = s.fault := rfl
@[simp] theorem clearFlag_refused (f : Flag) : (s.clearFlag f).refused = s.refused := rfl
@[simp] theorem clearFlag_params (f : Flag) : (s.clearFlag f).params = s.params := rfl
@[simp] theorem clearFlag_sched (f : Flag) : (s.clearFlag f).sched = s.sched := rfl
@[simp] theorem clearFlag_tick (f : Flag) : (s.clearFlag f).tick = s.tick := rfl
@[simp] theorem clearFlag_fifoReply (f : Flag) : (s.clearFlag f).fifoReply = s.fifoReply := rfl
@[simp] theorem clearFlag_readIEN (f : Flag) : (s.clearFlag f).readIEN = s.readIEN := rfl
@[simp] theorem clearFlag_count (f : Flag) : (s.clearFlag f).count = s.count := rfl

/-! `memWrite` -/

@[simp] theorem memWrite_role (i : Fin s.params.fifoCap) (v : Byte) : (s.memWrite i v).role = s.role := rfl
@[simp] theorem memWrite_ownAddr (i : Fin s.params.fifoCap) (v : Byte) : (s.memWrite i v).ownAddr = s.ownAddr := rfl
@[simp] theorem memWrite_ifReg (i : Fin s.params.fifoCap) (v : Byte) : (s.memWrite i v).ifReg = s.ifReg := rfl
@[simp] theorem memWrite_ien (i : Fin s.params.fifoCap) (v : Byte) : (s.memWrite i v).ien = s.ien := rfl
@[simp] theorem memWrite_addrStatus (i : Fin s.params.fifoCap) (v : Byte) : (s.memWrite i v).addrStatus = s.addrStatus := rfl
@[simp] theorem memWrite_rxData (i : Fin s.params.fifoCap) (v : Byte) : (s.memWrite i v).rxData = s.rxData := rfl
@[simp] theorem memWrite_phase (i : Fin s.params.fifoCap) (v : Byte) : (s.memWrite i v).phase = s.phase := rfl
@[simp] theorem memWrite_addressed (i : Fin s.params.fifoCap) (v : Byte) : (s.memWrite i v).addressed = s.addressed := rfl
@[simp] theorem memWrite_txq (i : Fin s.params.fifoCap) (v : Byte) : (s.memWrite i v).txq = s.txq := rfl
@[simp] theorem memWrite_ftip (i : Fin s.params.fifoCap) (v : Byte) : (s.memWrite i v).ftip = s.ftip := rfl
@[simp] theorem memWrite_fifoMem (i : Fin s.params.fifoCap) (v : Byte) : (s.memWrite i v).fifoMem = Memory.write s.fifoMem i.val v := rfl
@[simp] theorem memWrite_wr (i : Fin s.params.fifoCap) (v : Byte) : (s.memWrite i v).wr = s.wr := rfl
@[simp] theorem memWrite_rd (i : Fin s.params.fifoCap) (v : Byte) : (s.memWrite i v).rd = s.rd := rfl
@[simp] theorem memWrite_regRx (i : Fin s.params.fifoCap) (v : Byte) : (s.memWrite i v).regRx = s.regRx := rfl
@[simp] theorem memWrite_regReq (i : Fin s.params.fifoCap) (v : Byte) : (s.memWrite i v).regReq = s.regReq := rfl
@[simp] theorem memWrite_svState (i : Fin s.params.fifoCap) (v : Byte) : (s.memWrite i v).svState = s.svState := rfl
@[simp] theorem memWrite_svSnap (i : Fin s.params.fifoCap) (v : Byte) : (s.memWrite i v).svSnap = s.svSnap := rfl
@[simp] theorem memWrite_svNext (i : Fin s.params.fifoCap) (v : Byte) : (s.memWrite i v).svNext = s.svNext := rfl
@[simp] theorem memWrite_cbKind (i : Fin s.params.fifoCap) (v : Byte) : (s.memWrite i v).cbKind = s.cbKind := rfl
@[simp] theorem memWrite_cbHid (i : Fin s.params.fifoCap) (v : Byte) : (s.memWrite i v).cbHid = s.cbHid := rfl
@[simp] theorem memWrite_cbPc (i : Fin s.params.fifoCap) (v : Byte) : (s.memWrite i v).cbPc = s.cbPc := rfl
@[simp] theorem memWrite_cbArg (i : Fin s.params.fifoCap) (v : Byte) : (s.memWrite i v).cbArg = s.cbArg := rfl
@[simp] theorem memWrite_fgPc (i : Fin s.params.fifoCap) (v : Byte) : (s.memWrite i v).fgPc = s.fgPc := rfl
@[simp] theorem memWrite_fgMicro (i : Fin s.params.fifoCap) (v : Byte) : (s.memWrite i v).fgMicro = s.fgMicro := rfl
@[simp] theorem memWrite_busOut (i : Fin s.params.fifoCap) (v : Byte) : (s.memWrite i v).busOut = s.busOut := rfl
@[simp] theorem memWrite_cbLog (i : Fin s.params.fifoCap) (v : Byte) : (s.memWrite i v).cbLog = s.cbLog := rfl
@[simp] theorem memWrite_fgRes (i : Fin s.params.fifoCap) (v : Byte) : (s.memWrite i v).fgRes = s.fgRes := rfl
@[simp] theorem memWrite_cbRes (i : Fin s.params.fifoCap) (v : Byte) : (s.memWrite i v).cbRes = s.cbRes := rfl
@[simp] theorem memWrite_fault (i : Fin s.params.fifoCap) (v : Byte) : (s.memWrite i v).fault = s.fault := rfl
@[simp] theorem memWrite_refused (i : Fin s.params.fifoCap) (v : Byte) : (s.memWrite i v).refused = s.refused := rfl
@[simp] theorem memWrite_params (i : Fin s.params.fifoCap) (v : Byte) : (s.memWrite i v).params = s.params := rfl
@[simp] theorem memWrite_sched (i : Fin s.params.fifoCap) (v : Byte) : (s.memWrite i v).sched = s.sched := rfl
@[simp] theorem memWrite_tick (i : Fin s.params.fifoCap) (v : Byte) : (s.memWrite i v).tick = s.tick := rfl
@[simp] theorem memWrite_fifoReply (i : Fin s.params.fifoCap) (v : Byte) : (s.memWrite i v).fifoReply = s.fifoReply := rfl
@[simp] theorem memWrite_readIF (i : Fin s.params.fifoCap) (v : Byte) : (s.memWrite i v).readIF = s.readIF := rfl
@[simp] theorem memWrite_readIEN (i : Fin s.params.fifoCap) (v : Byte) : (s.memWrite i v).readIEN = s.readIEN := rfl
@[simp] theorem memWrite_count (i : Fin s.params.fifoCap) (v : Byte) : (s.memWrite i v).count = s.count := rfl

/-! `fifoReset` -/

@[simp] theorem fifoReset_role : (s.fifoReset).role = s.role := rfl
@[simp] theorem fifoReset_ownAddr : (s.fifoReset).ownAddr = s.ownAddr := rfl
@[simp] theorem fifoReset_ifReg : (s.fifoReset).ifReg = s.ifReg := rfl
@[simp] theorem fifoReset_ien : (s.fifoReset).ien = s.ien := rfl
@[simp] theorem fifoReset_addrStatus : (s.fifoReset).addrStatus = s.addrStatus := rfl
@[simp] theorem fifoReset_rxData : (s.fifoReset).rxData = s.rxData := rfl
@[simp] theorem fifoReset_phase : (s.fifoReset).phase = s.phase := rfl
@[simp] theorem fifoReset_addressed : (s.fifoReset).addressed = s.addressed := rfl
@[simp] theorem fifoReset_txq : (s.fifoReset).txq = s.txq := rfl
@[simp] theorem fifoReset_ftip : (s.fifoReset).ftip = s.ftip := rfl
@[simp] theorem fifoReset_fifoMem : (s.fifoReset).fifoMem = s.fifoMem := rfl
@[simp] theorem fifoReset_wr : (s.fifoReset).wr = 0 := rfl
@[simp] theorem fifoReset_rd : (s.fifoReset).rd = 0 := rfl
@[simp] theorem fifoReset_regRx : (s.fifoReset).regRx = s.regRx := rfl
@[simp] theorem fifoReset_regReq : (s.fifoReset).regReq = s.regReq := rfl
@[simp] theorem fifoReset_svState : (s.fifoReset).svState = s.svState := rfl
@[simp] theorem fifoReset_svSnap : (s.fifoReset).svSnap = s.svSnap := rfl
@[simp] theorem fifoReset_svNext : (s.fifoReset).svNext = s.svNext := rfl
@[simp] theorem fifoReset_cbKind : (s.fifoReset).cbKind = s.cbKind := rfl
@[simp] theorem fifoReset_cbHid : (s.fifoReset).cbHid = s.cbHid := rfl
@[simp] theorem fifoReset_cbPc : (s.fifoReset).cbPc = s.cbPc := rfl
@[simp] theorem fifoReset_cbArg : (s.fifoReset).cbArg = s.cbArg := rfl
@[simp] theorem fifoReset_fgPc : (s.fifoReset).fgPc = s.fgPc := rfl
@[simp] theorem fifoReset_fgMicro : (s.fifoReset).fgMicro = s.fgMicro := rfl
@[simp] theorem fifoReset_busOut : (s.fifoReset).busOut = s.busOut := rfl
@[simp] theorem fifoReset_cbLog : (s.fifoReset).cbLog = s.cbLog := rfl
@[simp] theorem fifoReset_fgRes : (s.fifoReset).fgRes = s.fgRes := rfl
@[simp] theorem fifoReset_cbRes : (s.fifoReset).cbRes = s.cbRes := rfl
@[simp] theorem fifoReset_fault : (s.fifoReset).fault = s.fault := rfl
@[simp] theorem fifoReset_refused : (s.fifoReset).refused = s.refused := rfl
@[simp] theorem fifoReset_params : (s.fifoReset).params = s.params := rfl
@[simp] theorem fifoReset_sched : (s.fifoReset).sched = s.sched := rfl
@[simp] theorem fifoReset_tick : (s.fifoReset).tick = s.tick := rfl
@[simp] theorem fifoReset_fifoReply : (s.fifoReset).fifoReply = s.fifoReply := rfl
@[simp] theorem fifoReset_readIF : (s.fifoReset).readIF = s.readIF := rfl
@[simp] theorem fifoReset_readIEN : (s.fifoReset).readIEN = s.readIEN := rfl

/-! `emit` -/

@[simp] theorem emit_role (o : BusOut) : (s.emit o).role = s.role := rfl
@[simp] theorem emit_ownAddr (o : BusOut) : (s.emit o).ownAddr = s.ownAddr := rfl
@[simp] theorem emit_ifReg (o : BusOut) : (s.emit o).ifReg = s.ifReg := rfl
@[simp] theorem emit_ien (o : BusOut) : (s.emit o).ien = s.ien := rfl
@[simp] theorem emit_addrStatus (o : BusOut) : (s.emit o).addrStatus = s.addrStatus := rfl
@[simp] theorem emit_rxData (o : BusOut) : (s.emit o).rxData = s.rxData := rfl
@[simp] theorem emit_phase (o : BusOut) : (s.emit o).phase = s.phase := rfl
@[simp] theorem emit_addressed (o : BusOut) : (s.emit o).addressed = s.addressed := rfl
@[simp] theorem emit_txq (o : BusOut) : (s.emit o).txq = s.txq := rfl
@[simp] theorem emit_ftip (o : BusOut) : (s.emit o).ftip = s.ftip := rfl
@[simp] theorem emit_fifoMem (o : BusOut) : (s.emit o).fifoMem = s.fifoMem := rfl
@[simp] theorem emit_wr (o : BusOut) : (s.emit o).wr = s.wr := rfl
@[simp] theorem emit_rd (o : BusOut) : (s.emit o).rd = s.rd := rfl
@[simp] theorem emit_regRx (o : BusOut) : (s.emit o).regRx = s.regRx := rfl
@[simp] theorem emit_regReq (o : BusOut) : (s.emit o).regReq = s.regReq := rfl
@[simp] theorem emit_svState (o : BusOut) : (s.emit o).svState = s.svState := rfl
@[simp] theorem emit_svSnap (o : BusOut) : (s.emit o).svSnap = s.svSnap := rfl
@[simp] theorem emit_svNext (o : BusOut) : (s.emit o).svNext = s.svNext := rfl
@[simp] theorem emit_cbKind (o : BusOut) : (s.emit o).cbKind = s.cbKind := rfl
@[simp] theorem emit_cbHid (o : BusOut) : (s.emit o).cbHid = s.cbHid := rfl
@[simp] theorem emit_cbPc (o : BusOut) : (s.emit o).cbPc = s.cbPc := rfl
@[simp] theorem emit_cbArg (o : BusOut) : (s.emit o).cbArg = s.cbArg := rfl
@[simp] theorem emit_fgPc (o : BusOut) : (s.emit o).fgPc = s.fgPc := rfl
@[simp] theorem emit_fgMicro (o : BusOut) : (s.emit o).fgMicro = s.fgMicro := rfl
@[simp] theorem emit_busOut (o : BusOut) : (s.emit o).busOut = s.busOut ++ [o] := rfl
@[simp] theorem emit_cbLog (o : BusOut) : (s.emit o).cbLog = s.cbLog := rfl
@[simp] theorem emit_fgRes (o : BusOut) : (s.emit o).fgRes = s.fgRes := rfl
@[simp] theorem emit_cbRes (o : BusOut) : (s.emit o).cbRes = s.cbRes := rfl
@[simp] theorem emit_fault (o : BusOut) : (s.emit o).fault = s.fault := rfl
@[simp] theorem emit_refused (o : BusOut) : (s.emit o).refused = s.refused := rfl
@[simp] theorem emit_params (o : BusOut) : (s.emit o).params = s.params := rfl
@[simp] theorem emit_sched (o : BusOut) : (s.emit o).sched = s.sched := rfl
@[simp] theorem emit_tick (o : BusOut) : (s.emit o).tick = s.tick := rfl
@[simp] theorem emit_fifoReply (o : BusOut) : (s.emit o).fifoReply = s.fifoReply := rfl
@[simp] theorem emit_readIF (o : BusOut) : (s.emit o).readIF = s.readIF := rfl
@[simp] theorem emit_readIEN (o : BusOut) : (s.emit o).readIEN = s.readIEN := rfl
@[simp] theorem emit_count (o : BusOut) : (s.emit o).count = s.count := rfl

/-! `raiseFault` -/

@[simp] theorem raiseFault_role (r : FaultRecord) : (s.raiseFault r).role = s.role := rfl
@[simp] theorem raiseFault_ownAddr (r : FaultRecord) : (s.raiseFault r).ownAddr = s.ownAddr := rfl
@[simp] theorem raiseFault_ifReg (r : FaultRecord) : (s.raiseFault r).ifReg = s.ifReg := rfl
@[simp] theorem raiseFault_ien (r : FaultRecord) : (s.raiseFault r).ien = s.ien := rfl
@[simp] theorem raiseFault_addrStatus (r : FaultRecord) : (s.raiseFault r).addrStatus = s.addrStatus := rfl
@[simp] theorem raiseFault_rxData (r : FaultRecord) : (s.raiseFault r).rxData = s.rxData := rfl
@[simp] theorem raiseFault_phase (r : FaultRecord) : (s.raiseFault r).phase = s.phase := rfl
@[simp] theorem raiseFault_addressed (r : FaultRecord) : (s.raiseFault r).addressed = s.addressed := rfl
@[simp] theorem raiseFault_txq (r : FaultRecord) : (s.raiseFault r).txq = s.txq := rfl
@[simp] theorem raiseFault_ftip (r : FaultRecord) : (s.raiseFault r).ftip = s.ftip := rfl
@[simp] theorem raiseFault_fifoMem (r : FaultRecord) : (s.raiseFault r).fifoMem = s.fifoMem := rfl
@[simp] theorem raiseFault_wr (r : FaultRecord) : (s.raiseFault r).wr = s.wr := rfl
@[simp] theorem raiseFault_rd (r : FaultRecord) : (s.raiseFault r).rd = s.rd := rfl
@[simp] theorem raiseFault_regRx (r : FaultRecord) : (s.raiseFault r).regRx = s.regRx := rfl
@[simp] theorem raiseFault_regReq (r : FaultRecord) : (s.raiseFault r).regReq = s.regReq := rfl
@[simp] theorem raiseFault_svState (r : FaultRecord) : (s.raiseFault r).svState = s.svState := rfl
@[simp] theorem raiseFault_svSnap (r : FaultRecord) : (s.raiseFault r).svSnap = s.svSnap := rfl
@[simp] theorem raiseFault_svNext (r : FaultRecord) : (s.raiseFault r).svNext = s.svNext := rfl
@[simp] theorem raiseFault_cbKind (r : FaultRecord) : (s.raiseFault r).cbKind = s.cbKind := rfl
@[simp] theorem raiseFault_cbHid (r : FaultRecord) : (s.raiseFault r).cbHid = s.cbHid := rfl
@[simp] theorem raiseFault_cbPc (r : FaultRecord) : (s.raiseFault r).cbPc = s.cbPc := rfl
@[simp] theorem raiseFault_cbArg (r : FaultRecord) : (s.raiseFault r).cbArg = s.cbArg := rfl
@[simp] theorem raiseFault_fgPc (r : FaultRecord) : (s.raiseFault r).fgPc = s.fgPc := rfl
@[simp] theorem raiseFault_fgMicro (r : FaultRecord) : (s.raiseFault r).fgMicro = s.fgMicro := rfl
@[simp] theorem raiseFault_busOut (r : FaultRecord) : (s.raiseFault r).busOut = s.busOut := rfl
@[simp] theorem raiseFault_cbLog (r : FaultRecord) : (s.raiseFault r).cbLog = s.cbLog := rfl
@[simp] theorem raiseFault_fgRes (r : FaultRecord) : (s.raiseFault r).fgRes = s.fgRes := rfl
@[simp] theorem raiseFault_cbRes (r : FaultRecord) : (s.raiseFault r).cbRes = s.cbRes := rfl
@[simp] theorem raiseFault_refused (r : FaultRecord) : (s.raiseFault r).refused = s.refused := rfl
@[simp] theorem raiseFault_params (r : FaultRecord) : (s.raiseFault r).params = s.params := rfl
@[simp] theorem raiseFault_sched (r : FaultRecord) : (s.raiseFault r).sched = s.sched := rfl
@[simp] theorem raiseFault_tick (r : FaultRecord) : (s.raiseFault r).tick = s.tick := rfl
@[simp] theorem raiseFault_fifoReply (r : FaultRecord) : (s.raiseFault r).fifoReply = s.fifoReply := rfl
@[simp] theorem raiseFault_readIF (r : FaultRecord) : (s.raiseFault r).readIF = s.readIF := rfl
@[simp] theorem raiseFault_readIEN (r : FaultRecord) : (s.raiseFault r).readIEN = s.readIEN := rfl
@[simp] theorem raiseFault_count (r : FaultRecord) : (s.raiseFault r).count = s.count := rfl

/-! `refuse` -/

@[simp] theorem refuse_role (r : RefusedReason) : (s.refuse r).role = s.role := rfl
@[simp] theorem refuse_ownAddr (r : RefusedReason) : (s.refuse r).ownAddr = s.ownAddr := rfl
@[simp] theorem refuse_ifReg (r : RefusedReason) : (s.refuse r).ifReg = s.ifReg := rfl
@[simp] theorem refuse_ien (r : RefusedReason) : (s.refuse r).ien = s.ien := rfl
@[simp] theorem refuse_addrStatus (r : RefusedReason) : (s.refuse r).addrStatus = s.addrStatus := rfl
@[simp] theorem refuse_rxData (r : RefusedReason) : (s.refuse r).rxData = s.rxData := rfl
@[simp] theorem refuse_phase (r : RefusedReason) : (s.refuse r).phase = s.phase := rfl
@[simp] theorem refuse_addressed (r : RefusedReason) : (s.refuse r).addressed = s.addressed := rfl
@[simp] theorem refuse_txq (r : RefusedReason) : (s.refuse r).txq = s.txq := rfl
@[simp] theorem refuse_ftip (r : RefusedReason) : (s.refuse r).ftip = s.ftip := rfl
@[simp] theorem refuse_fifoMem (r : RefusedReason) : (s.refuse r).fifoMem = s.fifoMem := rfl
@[simp] theorem refuse_wr (r : RefusedReason) : (s.refuse r).wr = s.wr := rfl
@[simp] theorem refuse_rd (r : RefusedReason) : (s.refuse r).rd = s.rd := rfl
@[simp] theorem refuse_regRx (r : RefusedReason) : (s.refuse r).regRx = s.regRx := rfl
@[simp] theorem refuse_regReq (r : RefusedReason) : (s.refuse r).regReq = s.regReq := rfl
@[simp] theorem refuse_svState (r : RefusedReason) : (s.refuse r).svState = s.svState := rfl
@[simp] theorem refuse_svSnap (r : RefusedReason) : (s.refuse r).svSnap = s.svSnap := rfl
@[simp] theorem refuse_svNext (r : RefusedReason) : (s.refuse r).svNext = s.svNext := rfl
@[simp] theorem refuse_cbKind (r : RefusedReason) : (s.refuse r).cbKind = s.cbKind := rfl
@[simp] theorem refuse_cbHid (r : RefusedReason) : (s.refuse r).cbHid = s.cbHid := rfl
@[simp] theorem refuse_cbPc (r : RefusedReason) : (s.refuse r).cbPc = s.cbPc := rfl
@[simp] theorem refuse_cbArg (r : RefusedReason) : (s.refuse r).cbArg = s.cbArg := rfl
@[simp] theorem refuse_fgPc (r : RefusedReason) : (s.refuse r).fgPc = s.fgPc := rfl
@[simp] theorem refuse_fgMicro (r : RefusedReason) : (s.refuse r).fgMicro = s.fgMicro := rfl
@[simp] theorem refuse_busOut (r : RefusedReason) : (s.refuse r).busOut = s.busOut := rfl
@[simp] theorem refuse_cbLog (r : RefusedReason) : (s.refuse r).cbLog = s.cbLog := rfl
@[simp] theorem refuse_fgRes (r : RefusedReason) : (s.refuse r).fgRes = s.fgRes := rfl
@[simp] theorem refuse_cbRes (r : RefusedReason) : (s.refuse r).cbRes = s.cbRes := rfl
@[simp] theorem refuse_fault (r : RefusedReason) : (s.refuse r).fault = s.fault := rfl
@[simp] theorem refuse_params (r : RefusedReason) : (s.refuse r).params = s.params := rfl
@[simp] theorem refuse_sched (r : RefusedReason) : (s.refuse r).sched = s.sched := rfl
@[simp] theorem refuse_tick (r : RefusedReason) : (s.refuse r).tick = s.tick := rfl
@[simp] theorem refuse_fifoReply (r : RefusedReason) : (s.refuse r).fifoReply = s.fifoReply := rfl
@[simp] theorem refuse_readIF (r : RefusedReason) : (s.refuse r).readIF = s.readIF := rfl
@[simp] theorem refuse_readIEN (r : RefusedReason) : (s.refuse r).readIEN = s.readIEN := rfl
@[simp] theorem refuse_count (r : RefusedReason) : (s.refuse r).count = s.count := rfl

/-! `serviceEntry` -/

@[simp] theorem serviceEntry_role : (s.serviceEntry).role = s.role := rfl
@[simp] theorem serviceEntry_ownAddr : (s.serviceEntry).ownAddr = s.ownAddr := rfl
@[simp] theorem serviceEntry_ifReg : (s.serviceEntry).ifReg = s.ifReg := rfl
@[simp] theorem serviceEntry_ien : (s.serviceEntry).ien = s.ien := rfl
@[simp] theorem serviceEntry_addrStatus : (s.serviceEntry).addrStatus = s.addrStatus := rfl
@[simp] theorem serviceEntry_rxData : (s.serviceEntry).rxData = s.rxData := rfl
@[simp] theorem serviceEntry_phase : (s.serviceEntry).phase = s.phase := rfl
@[simp] theorem serviceEntry_addressed : (s.serviceEntry).addressed = s.addressed := rfl
@[simp] theorem serviceEntry_txq : (s.serviceEntry).txq = s.txq := rfl
@[simp] theorem serviceEntry_ftip : (s.serviceEntry).ftip = s.ftip := rfl
@[simp] theorem serviceEntry_fifoMem : (s.serviceEntry).fifoMem = s.fifoMem := rfl
@[simp] theorem serviceEntry_wr : (s.serviceEntry).wr = s.wr := rfl
@[simp] theorem serviceEntry_rd : (s.serviceEntry).rd = s.rd := rfl
@[simp] theorem serviceEntry_regRx : (s.serviceEntry).regRx = s.regRx := rfl
@[simp] theorem serviceEntry_regReq : (s.serviceEntry).regReq = s.regReq := rfl
@[simp] theorem serviceEntry_svState : (s.serviceEntry).svState = .run := rfl
@[simp] theorem serviceEntry_svSnap : (s.serviceEntry).svSnap = (s.readIF &&& s.readIEN).setWidth 6 := rfl
@[simp] theorem serviceEntry_svNext : (s.serviceEntry).svNext = 0 := rfl
@[simp] theorem serviceEntry_cbKind : (s.serviceEntry).cbKind = s.cbKind := rfl
@[simp] theorem serviceEntry_cbHid : (s.serviceEntry).cbHid = s.cbHid := rfl
@[simp] theorem serviceEntry_cbPc : (s.serviceEntry).cbPc = s.cbPc := rfl
@[simp] theorem serviceEntry_cbArg : (s.serviceEntry).cbArg = s.cbArg := rfl
@[simp] theorem serviceEntry_fgPc : (s.serviceEntry).fgPc = s.fgPc := rfl
@[simp] theorem serviceEntry_fgMicro : (s.serviceEntry).fgMicro = s.fgMicro := rfl
@[simp] theorem serviceEntry_busOut : (s.serviceEntry).busOut = s.busOut := rfl
@[simp] theorem serviceEntry_cbLog : (s.serviceEntry).cbLog = s.cbLog := rfl
@[simp] theorem serviceEntry_fgRes : (s.serviceEntry).fgRes = s.fgRes := rfl
@[simp] theorem serviceEntry_cbRes : (s.serviceEntry).cbRes = s.cbRes := rfl
@[simp] theorem serviceEntry_fault : (s.serviceEntry).fault = s.fault := rfl
@[simp] theorem serviceEntry_refused : (s.serviceEntry).refused = s.refused := rfl
@[simp] theorem serviceEntry_params : (s.serviceEntry).params = s.params := rfl
@[simp] theorem serviceEntry_sched : (s.serviceEntry).sched = s.sched := rfl
@[simp] theorem serviceEntry_tick : (s.serviceEntry).tick = s.tick := rfl
@[simp] theorem serviceEntry_fifoReply : (s.serviceEntry).fifoReply = s.fifoReply := rfl
@[simp] theorem serviceEntry_readIF : (s.serviceEntry).readIF = s.readIF := rfl
@[simp] theorem serviceEntry_readIEN : (s.serviceEntry).readIEN = s.readIEN := rfl
@[simp] theorem serviceEntry_count : (s.serviceEntry).count = s.count := rfl

/-! `serviceExit` -/

@[simp] theorem serviceExit_role : (s.serviceExit).role = s.role := rfl
@[simp] theorem serviceExit_ownAddr : (s.serviceExit).ownAddr = s.ownAddr := rfl
@[simp] theorem serviceExit_ifReg : (s.serviceExit).ifReg = s.ifReg := rfl
@[simp] theorem serviceExit_ien : (s.serviceExit).ien = s.ien := rfl
@[simp] theorem serviceExit_addrStatus : (s.serviceExit).addrStatus = s.addrStatus := rfl
@[simp] theorem serviceExit_rxData : (s.serviceExit).rxData = s.rxData := rfl
@[simp] theorem serviceExit_phase : (s.serviceExit).phase = s.phase := rfl
@[simp] theorem serviceExit_addressed : (s.serviceExit).addressed = s.addressed := rfl
@[simp] theorem serviceExit_txq : (s.serviceExit).txq = s.txq := rfl
@[simp] theorem serviceExit_ftip : (s.serviceExit).ftip = s.ftip := rfl
@[simp] theorem serviceExit_fifoMem : (s.serviceExit).fifoMem = s.fifoMem := rfl
@[simp] theorem serviceExit_wr : (s.serviceExit).wr = s.wr := rfl
@[simp] theorem serviceExit_rd : (s.serviceExit).rd = s.rd := rfl
@[simp] theorem serviceExit_regRx : (s.serviceExit).regRx = s.regRx := rfl
@[simp] theorem serviceExit_regReq : (s.serviceExit).regReq = s.regReq := rfl
@[simp] theorem serviceExit_svState : (s.serviceExit).svState = .idle := rfl
@[simp] theorem serviceExit_svSnap : (s.serviceExit).svSnap = 0 := rfl
@[simp] theorem serviceExit_svNext : (s.serviceExit).svNext = 0 := rfl
@[simp] theorem serviceExit_cbKind : (s.serviceExit).cbKind = s.cbKind := rfl
@[simp] theorem serviceExit_cbHid : (s.serviceExit).cbHid = s.cbHid := rfl
@[simp] theorem serviceExit_cbPc : (s.serviceExit).cbPc = s.cbPc := rfl
@[simp] theorem serviceExit_cbArg : (s.serviceExit).cbArg = s.cbArg := rfl
@[simp] theorem serviceExit_fgPc : (s.serviceExit).fgPc = s.fgPc := rfl
@[simp] theorem serviceExit_fgMicro : (s.serviceExit).fgMicro = s.fgMicro := rfl
@[simp] theorem serviceExit_busOut : (s.serviceExit).busOut = s.busOut := rfl
@[simp] theorem serviceExit_cbLog : (s.serviceExit).cbLog = s.cbLog := rfl
@[simp] theorem serviceExit_fgRes : (s.serviceExit).fgRes = s.fgRes := rfl
@[simp] theorem serviceExit_cbRes : (s.serviceExit).cbRes = s.cbRes := rfl
@[simp] theorem serviceExit_fault : (s.serviceExit).fault = s.fault := rfl
@[simp] theorem serviceExit_refused : (s.serviceExit).refused = s.refused := rfl
@[simp] theorem serviceExit_params : (s.serviceExit).params = s.params := rfl
@[simp] theorem serviceExit_sched : (s.serviceExit).sched = s.sched := rfl
@[simp] theorem serviceExit_tick : (s.serviceExit).tick = s.tick := rfl
@[simp] theorem serviceExit_fifoReply : (s.serviceExit).fifoReply = s.fifoReply := rfl
@[simp] theorem serviceExit_readIF : (s.serviceExit).readIF = s.readIF := rfl
@[simp] theorem serviceExit_readIEN : (s.serviceExit).readIEN = s.readIEN := rfl
@[simp] theorem serviceExit_count : (s.serviceExit).count = s.count := rfl

/-! `callbackReturn` -/

@[simp] theorem callbackReturn_role : (s.callbackReturn).role = s.role := rfl
@[simp] theorem callbackReturn_ownAddr : (s.callbackReturn).ownAddr = s.ownAddr := rfl
@[simp] theorem callbackReturn_ifReg : (s.callbackReturn).ifReg = s.ifReg := rfl
@[simp] theorem callbackReturn_ien : (s.callbackReturn).ien = s.ien := rfl
@[simp] theorem callbackReturn_addrStatus : (s.callbackReturn).addrStatus = s.addrStatus := rfl
@[simp] theorem callbackReturn_rxData : (s.callbackReturn).rxData = s.rxData := rfl
@[simp] theorem callbackReturn_phase : (s.callbackReturn).phase = s.phase := rfl
@[simp] theorem callbackReturn_addressed : (s.callbackReturn).addressed = s.addressed := rfl
@[simp] theorem callbackReturn_txq : (s.callbackReturn).txq = s.txq := rfl
@[simp] theorem callbackReturn_ftip : (s.callbackReturn).ftip = s.ftip := rfl
@[simp] theorem callbackReturn_fifoMem : (s.callbackReturn).fifoMem = s.fifoMem := rfl
@[simp] theorem callbackReturn_wr : (s.callbackReturn).wr = s.wr := rfl
@[simp] theorem callbackReturn_rd : (s.callbackReturn).rd = s.rd := rfl
@[simp] theorem callbackReturn_regRx : (s.callbackReturn).regRx = s.regRx := rfl
@[simp] theorem callbackReturn_regReq : (s.callbackReturn).regReq = s.regReq := rfl
@[simp] theorem callbackReturn_svState : (s.callbackReturn).svState = .run := rfl
@[simp] theorem callbackReturn_svSnap : (s.callbackReturn).svSnap = s.svSnap := rfl
@[simp] theorem callbackReturn_svNext : (s.callbackReturn).svNext = s.svNext := rfl
@[simp] theorem callbackReturn_cbKind : (s.callbackReturn).cbKind = s.cbKind := rfl
@[simp] theorem callbackReturn_cbHid : (s.callbackReturn).cbHid = s.cbHid := rfl
@[simp] theorem callbackReturn_cbPc : (s.callbackReturn).cbPc = s.cbPc := rfl
@[simp] theorem callbackReturn_cbArg : (s.callbackReturn).cbArg = s.cbArg := rfl
@[simp] theorem callbackReturn_fgPc : (s.callbackReturn).fgPc = s.fgPc := rfl
@[simp] theorem callbackReturn_fgMicro : (s.callbackReturn).fgMicro = s.fgMicro := rfl
@[simp] theorem callbackReturn_busOut : (s.callbackReturn).busOut = s.busOut := rfl
@[simp] theorem callbackReturn_cbLog : (s.callbackReturn).cbLog = s.cbLog := rfl
@[simp] theorem callbackReturn_fgRes : (s.callbackReturn).fgRes = s.fgRes := rfl
@[simp] theorem callbackReturn_cbRes : (s.callbackReturn).cbRes = s.cbRes := rfl
@[simp] theorem callbackReturn_fault : (s.callbackReturn).fault = s.fault := rfl
@[simp] theorem callbackReturn_refused : (s.callbackReturn).refused = s.refused := rfl
@[simp] theorem callbackReturn_params : (s.callbackReturn).params = s.params := rfl
@[simp] theorem callbackReturn_sched : (s.callbackReturn).sched = s.sched := rfl
@[simp] theorem callbackReturn_tick : (s.callbackReturn).tick = s.tick := rfl
@[simp] theorem callbackReturn_fifoReply : (s.callbackReturn).fifoReply = s.fifoReply := rfl
@[simp] theorem callbackReturn_readIF : (s.callbackReturn).readIF = s.readIF := rfl
@[simp] theorem callbackReturn_readIEN : (s.callbackReturn).readIEN = s.readIEN := rfl
@[simp] theorem callbackReturn_count : (s.callbackReturn).count = s.count := rfl

/-! `takeTurn` -/

@[simp] theorem takeTurn_role : (s.takeTurn).role = s.role := rfl
@[simp] theorem takeTurn_ownAddr : (s.takeTurn).ownAddr = s.ownAddr := rfl
@[simp] theorem takeTurn_ifReg : (s.takeTurn).ifReg = s.ifReg := rfl
@[simp] theorem takeTurn_ien : (s.takeTurn).ien = s.ien := rfl
@[simp] theorem takeTurn_addrStatus : (s.takeTurn).addrStatus = s.addrStatus := rfl
@[simp] theorem takeTurn_rxData : (s.takeTurn).rxData = s.rxData := rfl
@[simp] theorem takeTurn_phase : (s.takeTurn).phase = s.phase := rfl
@[simp] theorem takeTurn_addressed : (s.takeTurn).addressed = s.addressed := rfl
@[simp] theorem takeTurn_txq : (s.takeTurn).txq = s.txq := rfl
@[simp] theorem takeTurn_ftip : (s.takeTurn).ftip = s.ftip := rfl
@[simp] theorem takeTurn_fifoMem : (s.takeTurn).fifoMem = s.fifoMem := rfl
@[simp] theorem takeTurn_wr : (s.takeTurn).wr = s.wr := rfl
@[simp] theorem takeTurn_rd : (s.takeTurn).rd = s.rd := rfl
@[simp] theorem takeTurn_regRx : (s.takeTurn).regRx = s.regRx := rfl
@[simp] theorem takeTurn_regReq : (s.takeTurn).regReq = s.regReq := rfl
@[simp] theorem takeTurn_svState : (s.takeTurn).svState = s.svState := rfl
@[simp] theorem takeTurn_svSnap : (s.takeTurn).svSnap = s.svSnap := rfl
@[simp] theorem takeTurn_svNext : (s.takeTurn).svNext = s.svNext := rfl
@[simp] theorem takeTurn_cbKind : (s.takeTurn).cbKind = s.cbKind := rfl
@[simp] theorem takeTurn_cbHid : (s.takeTurn).cbHid = s.cbHid := rfl
@[simp] theorem takeTurn_cbPc : (s.takeTurn).cbPc = s.cbPc := rfl
@[simp] theorem takeTurn_cbArg : (s.takeTurn).cbArg = s.cbArg := rfl
@[simp] theorem takeTurn_fgPc : (s.takeTurn).fgPc = s.fgPc := rfl
@[simp] theorem takeTurn_fgMicro : (s.takeTurn).fgMicro = s.fgMicro := rfl
@[simp] theorem takeTurn_busOut : (s.takeTurn).busOut = s.busOut := rfl
@[simp] theorem takeTurn_cbLog : (s.takeTurn).cbLog = s.cbLog := rfl
@[simp] theorem takeTurn_fgRes : (s.takeTurn).fgRes = s.fgRes := rfl
@[simp] theorem takeTurn_cbRes : (s.takeTurn).cbRes = s.cbRes := rfl
@[simp] theorem takeTurn_fault : (s.takeTurn).fault = s.fault := rfl
@[simp] theorem takeTurn_refused : (s.takeTurn).refused = s.refused := rfl
@[simp] theorem takeTurn_params : (s.takeTurn).params = s.params := rfl
@[simp] theorem takeTurn_sched : (s.takeTurn).sched = s.sched.tail := rfl
@[simp] theorem takeTurn_tick : (s.takeTurn).tick = s.tick + 1 := rfl
@[simp] theorem takeTurn_fifoReply : (s.takeTurn).fifoReply = s.fifoReply := rfl
@[simp] theorem takeTurn_readIF : (s.takeTurn).readIF = s.readIF := rfl
@[simp] theorem takeTurn_readIEN : (s.takeTurn).readIEN = s.readIEN := rfl
@[simp] theorem takeTurn_count : (s.takeTurn).count = s.count := rfl

/-! `sendHead` -/

theorem sendHead_writes :
    ∃ x0 x1 x2, s.sendHead = { s with txq := x0, phase := x1, busOut := x2 } := by
  unfold State.sendHead
  split <;> exact ⟨_, _, _, rfl⟩

@[simp] theorem sendHead_role : (s.sendHead).role = s.role := by
  obtain ⟨_, _, _, h⟩ := sendHead_writes s
  rw [h]
@[simp] theorem sendHead_ownAddr : (s.sendHead).ownAddr = s.ownAddr := by
  obtain ⟨_, _, _, h⟩ := sendHead_writes s
  rw [h]
@[simp] theorem sendHead_ifReg : (s.sendHead).ifReg = s.ifReg := by
  obtain ⟨_, _, _, h⟩ := sendHead_writes s
  rw [h]
@[simp] theorem sendHead_ien : (s.sendHead).ien = s.ien := by
  obtain ⟨_, _, _, h⟩ := sendHead_writes s
  rw [h]
@[simp] theorem sendHead_addrStatus : (s.sendHead).addrStatus = s.addrStatus := by
  obtain ⟨_, _, _, h⟩ := sendHead_writes s
  rw [h]
@[simp] theorem sendHead_rxData : (s.sendHead).rxData = s.rxData := by
  obtain ⟨_, _, _, h⟩ := sendHead_writes s
  rw [h]
@[simp] theorem sendHead_addressed : (s.sendHead).addressed = s.addressed := by
  obtain ⟨_, _, _, h⟩ := sendHead_writes s
  rw [h]
@[simp] theorem sendHead_ftip : (s.sendHead).ftip = s.ftip := by
  obtain ⟨_, _, _, h⟩ := sendHead_writes s
  rw [h]
@[simp] theorem sendHead_fifoMem : (s.sendHead).fifoMem = s.fifoMem := by
  obtain ⟨_, _, _, h⟩ := sendHead_writes s
  rw [h]
@[simp] theorem sendHead_wr : (s.sendHead).wr = s.wr := by
  obtain ⟨_, _, _, h⟩ := sendHead_writes s
  rw [h]
@[simp] theorem sendHead_rd : (s.sendHead).rd = s.rd := by
  obtain ⟨_, _, _, h⟩ := sendHead_writes s
  rw [h]
@[simp] theorem sendHead_regRx : (s.sendHead).regRx = s.regRx := by
  obtain ⟨_, _, _, h⟩ := sendHead_writes s
  rw [h]
@[simp] theorem sendHead_regReq : (s.sendHead).regReq = s.regReq := by
  obtain ⟨_, _, _, h⟩ := sendHead_writes s
  rw [h]
@[simp] theorem sendHead_svState : (s.sendHead).svState = s.svState := by
  obtain ⟨_, _, _, h⟩ := sendHead_writes s
  rw [h]
@[simp] theorem sendHead_svSnap : (s.sendHead).svSnap = s.svSnap := by
  obtain ⟨_, _, _, h⟩ := sendHead_writes s
  rw [h]
@[simp] theorem sendHead_svNext : (s.sendHead).svNext = s.svNext := by
  obtain ⟨_, _, _, h⟩ := sendHead_writes s
  rw [h]
@[simp] theorem sendHead_cbKind : (s.sendHead).cbKind = s.cbKind := by
  obtain ⟨_, _, _, h⟩ := sendHead_writes s
  rw [h]
@[simp] theorem sendHead_cbHid : (s.sendHead).cbHid = s.cbHid := by
  obtain ⟨_, _, _, h⟩ := sendHead_writes s
  rw [h]
@[simp] theorem sendHead_cbPc : (s.sendHead).cbPc = s.cbPc := by
  obtain ⟨_, _, _, h⟩ := sendHead_writes s
  rw [h]
@[simp] theorem sendHead_cbArg : (s.sendHead).cbArg = s.cbArg := by
  obtain ⟨_, _, _, h⟩ := sendHead_writes s
  rw [h]
@[simp] theorem sendHead_fgPc : (s.sendHead).fgPc = s.fgPc := by
  obtain ⟨_, _, _, h⟩ := sendHead_writes s
  rw [h]
@[simp] theorem sendHead_fgMicro : (s.sendHead).fgMicro = s.fgMicro := by
  obtain ⟨_, _, _, h⟩ := sendHead_writes s
  rw [h]
@[simp] theorem sendHead_cbLog : (s.sendHead).cbLog = s.cbLog := by
  obtain ⟨_, _, _, h⟩ := sendHead_writes s
  rw [h]
@[simp] theorem sendHead_fgRes : (s.sendHead).fgRes = s.fgRes := by
  obtain ⟨_, _, _, h⟩ := sendHead_writes s
  rw [h]
@[simp] theorem sendHead_cbRes : (s.sendHead).cbRes = s.cbRes := by
  obtain ⟨_, _, _, h⟩ := sendHead_writes s
  rw [h]
@[simp] theorem sendHead_fault : (s.sendHead).fault = s.fault := by
  obtain ⟨_, _, _, h⟩ := sendHead_writes s
  rw [h]
@[simp] theorem sendHead_refused : (s.sendHead).refused = s.refused := by
  obtain ⟨_, _, _, h⟩ := sendHead_writes s
  rw [h]
@[simp] theorem sendHead_params : (s.sendHead).params = s.params := by
  obtain ⟨_, _, _, h⟩ := sendHead_writes s
  rw [h]
@[simp] theorem sendHead_sched : (s.sendHead).sched = s.sched := by
  obtain ⟨_, _, _, h⟩ := sendHead_writes s
  rw [h]
@[simp] theorem sendHead_tick : (s.sendHead).tick = s.tick := by
  obtain ⟨_, _, _, h⟩ := sendHead_writes s
  rw [h]
@[simp] theorem sendHead_fifoReply : (s.sendHead).fifoReply = s.fifoReply := by
  obtain ⟨_, _, _, h⟩ := sendHead_writes s
  rw [h]
@[simp] theorem sendHead_readIF : (s.sendHead).readIF = s.readIF := by
  obtain ⟨_, _, _, h⟩ := sendHead_writes s
  rw [h]; rfl
@[simp] theorem sendHead_readIEN : (s.sendHead).readIEN = s.readIEN := by
  obtain ⟨_, _, _, h⟩ := sendHead_writes s
  rw [h]; rfl
@[simp] theorem sendHead_count : (s.sendHead).count = s.count := by
  obtain ⟨_, _, _, h⟩ := sendHead_writes s
  rw [h]; rfl

/-! `feCmdAck` -/

theorem feCmdAck_writes :
    ∃ x0 x1 x2, s.feCmdAck = { s with txq := x0, phase := x1, busOut := x2 } := by
  unfold State.feCmdAck
  split
  · exact ⟨_, _, _, rfl⟩
  · exact ⟨_, _, _, rfl⟩
  · split
    · exact ⟨_, _, _, rfl⟩
    · obtain ⟨p, q, o, h⟩ := sendHead_writes (s.emit .ack)
      exact ⟨p, q, o, h⟩
  · exact sendHead_writes s
  all_goals exact ⟨_, _, _, rfl⟩

@[simp] theorem feCmdAck_role : (s.feCmdAck).role = s.role := by
  obtain ⟨_, _, _, h⟩ := feCmdAck_writes s
  rw [h]
@[simp] theorem feCmdAck_ownAddr : (s.feCmdAck).ownAddr = s.ownAddr := by
  obtain ⟨_, _, _, h⟩ := feCmdAck_writes s
  rw [h]
@[simp] theorem feCmdAck_ifReg : (s.feCmdAck).ifReg = s.ifReg := by
  obtain ⟨_, _, _, h⟩ := feCmdAck_writes s
  rw [h]
@[simp] theorem feCmdAck_ien : (s.feCmdAck).ien = s.ien := by
  obtain ⟨_, _, _, h⟩ := feCmdAck_writes s
  rw [h]
@[simp] theorem feCmdAck_addrStatus : (s.feCmdAck).addrStatus = s.addrStatus := by
  obtain ⟨_, _, _, h⟩ := feCmdAck_writes s
  rw [h]
@[simp] theorem feCmdAck_rxData : (s.feCmdAck).rxData = s.rxData := by
  obtain ⟨_, _, _, h⟩ := feCmdAck_writes s
  rw [h]
@[simp] theorem feCmdAck_addressed : (s.feCmdAck).addressed = s.addressed := by
  obtain ⟨_, _, _, h⟩ := feCmdAck_writes s
  rw [h]
@[simp] theorem feCmdAck_ftip : (s.feCmdAck).ftip = s.ftip := by
  obtain ⟨_, _, _, h⟩ := feCmdAck_writes s
  rw [h]
@[simp] theorem feCmdAck_fifoMem : (s.feCmdAck).fifoMem = s.fifoMem := by
  obtain ⟨_, _, _, h⟩ := feCmdAck_writes s
  rw [h]
@[simp] theorem feCmdAck_wr : (s.feCmdAck).wr = s.wr := by
  obtain ⟨_, _, _, h⟩ := feCmdAck_writes s
  rw [h]
@[simp] theorem feCmdAck_rd : (s.feCmdAck).rd = s.rd := by
  obtain ⟨_, _, _, h⟩ := feCmdAck_writes s
  rw [h]
@[simp] theorem feCmdAck_regRx : (s.feCmdAck).regRx = s.regRx := by
  obtain ⟨_, _, _, h⟩ := feCmdAck_writes s
  rw [h]
@[simp] theorem feCmdAck_regReq : (s.feCmdAck).regReq = s.regReq := by
  obtain ⟨_, _, _, h⟩ := feCmdAck_writes s
  rw [h]
@[simp] theorem feCmdAck_svState : (s.feCmdAck).svState = s.svState := by
  obtain ⟨_, _, _, h⟩ := feCmdAck_writes s
  rw [h]
@[simp] theorem feCmdAck_svSnap : (s.feCmdAck).svSnap = s.svSnap := by
  obtain ⟨_, _, _, h⟩ := feCmdAck_writes s
  rw [h]
@[simp] theorem feCmdAck_svNext : (s.feCmdAck).svNext = s.svNext := by
  obtain ⟨_, _, _, h⟩ := feCmdAck_writes s
  rw [h]
@[simp] theorem feCmdAck_cbKind : (s.feCmdAck).cbKind = s.cbKind := by
  obtain ⟨_, _, _, h⟩ := feCmdAck_writes s
  rw [h]
@[simp] theorem feCmdAck_cbHid : (s.feCmdAck).cbHid = s.cbHid := by
  obtain ⟨_, _, _, h⟩ := feCmdAck_writes s
  rw [h]
@[simp] theorem feCmdAck_cbPc : (s.feCmdAck).cbPc = s.cbPc := by
  obtain ⟨_, _, _, h⟩ := feCmdAck_writes s
  rw [h]
@[simp] theorem feCmdAck_cbArg : (s.feCmdAck).cbArg = s.cbArg := by
  obtain ⟨_, _, _, h⟩ := feCmdAck_writes s
  rw [h]
@[simp] theorem feCmdAck_fgPc : (s.feCmdAck).fgPc = s.fgPc := by
  obtain ⟨_, _, _, h⟩ := feCmdAck_writes s
  rw [h]
@[simp] theorem feCmdAck_fgMicro : (s.feCmdAck).fgMicro = s.fgMicro := by
  obtain ⟨_, _, _, h⟩ := feCmdAck_writes s
  rw [h]
@[simp] theorem feCmdAck_cbLog : (s.feCmdAck).cbLog = s.cbLog := by
  obtain ⟨_, _, _, h⟩ := feCmdAck_writes s
  rw [h]
@[simp] theorem feCmdAck_fgRes : (s.feCmdAck).fgRes = s.fgRes := by
  obtain ⟨_, _, _, h⟩ := feCmdAck_writes s
  rw [h]
@[simp] theorem feCmdAck_cbRes : (s.feCmdAck).cbRes = s.cbRes := by
  obtain ⟨_, _, _, h⟩ := feCmdAck_writes s
  rw [h]
@[simp] theorem feCmdAck_fault : (s.feCmdAck).fault = s.fault := by
  obtain ⟨_, _, _, h⟩ := feCmdAck_writes s
  rw [h]
@[simp] theorem feCmdAck_refused : (s.feCmdAck).refused = s.refused := by
  obtain ⟨_, _, _, h⟩ := feCmdAck_writes s
  rw [h]
@[simp] theorem feCmdAck_params : (s.feCmdAck).params = s.params := by
  obtain ⟨_, _, _, h⟩ := feCmdAck_writes s
  rw [h]
@[simp] theorem feCmdAck_sched : (s.feCmdAck).sched = s.sched := by
  obtain ⟨_, _, _, h⟩ := feCmdAck_writes s
  rw [h]
@[simp] theorem feCmdAck_tick : (s.feCmdAck).tick = s.tick := by
  obtain ⟨_, _, _, h⟩ := feCmdAck_writes s
  rw [h]
@[simp] theorem feCmdAck_fifoReply : (s.feCmdAck).fifoReply = s.fifoReply := by
  obtain ⟨_, _, _, h⟩ := feCmdAck_writes s
  rw [h]
@[simp] theorem feCmdAck_readIF : (s.feCmdAck).readIF = s.readIF := by
  obtain ⟨_, _, _, h⟩ := feCmdAck_writes s
  rw [h]; rfl
@[simp] theorem feCmdAck_readIEN : (s.feCmdAck).readIEN = s.readIEN := by
  obtain ⟨_, _, _, h⟩ := feCmdAck_writes s
  rw [h]; rfl
@[simp] theorem feCmdAck_count : (s.feCmdAck).count = s.count := by
  obtain ⟨_, _, _, h⟩ := feCmdAck_writes s
  rw [h]; rfl

/-! `feCmdNack` -/

theorem feCmdNack_writes :
    ∃ x0 x1, s.feCmdNack = { s with phase := x0, busOut := x1 } := by
  unfold State.feCmdNack
  split <;> exact ⟨_, _, rfl⟩

@[simp] theorem feCmdNack_role : (s.feCmdNack).role = s.role := by
  obtain ⟨_, _, h⟩ := feCmdNack_writes s
  rw [h]
@[simp] theorem feCmdNack_ownAddr : (s.feCmdNack).ownAddr = s.ownAddr := by
  obtain ⟨_, _, h⟩ := feCmdNack_writes s
  rw [h]
@[simp] theorem feCmdNack_ifReg : (s.feCmdNack).ifReg = s.ifReg := by
  obtain ⟨_, _, h⟩ := feCmdNack_writes s
  rw [h]
@[simp] theorem feCmdNack_ien : (s.feCmdNack).ien = s.ien := by
  obtain ⟨_, _, h⟩ := feCmdNack_writes s
  rw [h]
@[simp] theorem feCmdNack_addrStatus : (s.feCmdNack).addrStatus = s.addrStatus := by
  obtain ⟨_, _, h⟩ := feCmdNack_writes s
  rw [h]
@[simp] theorem feCmdNack_rxData : (s.feCmdNack).rxData = s.rxData := by
  obtain ⟨_, _, h⟩ := feCmdNack_writes s
  rw [h]
@[simp] theorem feCmdNack_addressed : (s.feCmdNack).addressed = s.addressed := by
  obtain ⟨_, _, h⟩ := feCmdNack_writes s
  rw [h]
@[simp] theorem feCmdNack_txq : (s.feCmdNack).txq = s.txq := by
  obtain ⟨_, _, h⟩ := feCmdNack_writes s
  rw [h]
@[simp] theorem feCmdNack_ftip : (s.feCmdNack).ftip = s.ftip := by
  obtain ⟨_, _, h⟩ := feCmdNack_writes s
  rw [h]
@[simp] theorem feCmdNack_fifoMem : (s.feCmdNack).fifoMem = s.fifoMem := by
  obtain ⟨_, _, h⟩ := feCmdNack_writes s
  rw [h]
@[simp] theorem feCmdNack_wr : (s.feCmdNack).wr = s.wr := by
  obtain ⟨_, _, h⟩ := feCmdNack_writes s
  rw [h]
@[simp] theorem feCmdNack_rd : (s.feCmdNack).rd = s.rd := by
  obtain ⟨_, _, h⟩ := feCmdNack_writes s
  rw [h]
@[simp] theorem feCmdNack_regRx : (s.feCmdNack).regRx = s.regRx := by
  obtain ⟨_, _, h⟩ := feCmdNack_writes s
  rw [h]
@[simp] theorem feCmdNack_regReq : (s.feCmdNack).regReq = s.regReq := by
  obtain ⟨_, _, h⟩ := feCmdNack_writes s
  rw [h]
@[simp] theorem feCmdNack_svState : (s.feCmdNack).svState = s.svState := by
  obtain ⟨_, _, h⟩ := feCmdNack_writes s
  rw [h]
@[simp] theorem feCmdNack_svSnap : (s.feCmdNack).svSnap = s.svSnap := by
  obtain ⟨_, _, h⟩ := feCmdNack_writes s
  rw [h]
@[simp] theorem feCmdNack_svNext : (s.feCmdNack).svNext = s.svNext := by
  obtain ⟨_, _, h⟩ := feCmdNack_writes s
  rw [h]
@[simp] theorem feCmdNack_cbKind : (s.feCmdNack).cbKind = s.cbKind := by
  obtain ⟨_, _, h⟩ := feCmdNack_writes s
  rw [h]
@[simp] theorem feCmdNack_cbHid : (s.feCmdNack).cbHid = s.cbHid := by
  obtain ⟨_, _, h⟩ := feCmdNack_writes s
  rw [h]
@[simp] theorem feCmdNack_cbPc : (s.feCmdNack).cbPc = s.cbPc := by
  obtain ⟨_, _, h⟩ := feCmdNack_writes s
  rw [h]
@[simp] theorem feCmdNack_cbArg : (s.feCmdNack).cbArg = s.cbArg := by
  obtain ⟨_, _, h⟩ := feCmdNack_writes s
  rw [h]
@[simp] theorem feCmdNack_fgPc : (s.feCmdNack).fgPc = s.fgPc := by
  obtain ⟨_, _, h⟩ := feCmdNack_writes s
  rw [h]
@[simp] theorem feCmdNack_fgMicro : (s.feCmdNack).fgMicro = s.fgMicro := by
  obtain ⟨_, _, h⟩ := feCmdNack_writes s
  rw [h]
@[simp] theorem feCmdNack_cbLog : (s.feCmdNack).cbLog = s.cbLog := by
  obtain ⟨_, _, h⟩ := feCmdNack_writes s
  rw [h]
@[simp] theorem feCmdNack_fgRes : (s.feCmdNack).fgRes = s.fgRes := by
  obtain ⟨_, _, h⟩ := feCmdNack_writes s
  rw [h]
@[simp] theorem feCmdNack_cbRes : (s.feCmdNack).cbRes = s.cbRes := by
  obtain ⟨_, _, h⟩ := feCmdNack_writes s
  rw [h]
@[simp] theorem feCmdNack_fault : (s.feCmdNack).fault = s.fault := by
  obtain ⟨_, _, h⟩ := feCmdNack_writes s
  rw [h]
@[simp] theorem feCmdNack_refused : (s.feCmdNack).refused = s.refused := by
  obtain ⟨_, _, h⟩ := feCmdNack_writes s
  rw [h]
@[simp] theorem feCmdNack_params : (s.feCmdNack).params = s.params := by
  obtain ⟨_, _, h⟩ := feCmdNack_writes s
  rw [h]
@[simp] theorem feCmdNack_sched : (s.feCmdNack).sched = s.sched := by
  obtain ⟨_, _, h⟩ := feCmdNack_writes s
  rw [h]
@[simp] theorem feCmdNack_tick : (s.feCmdNack).tick = s.tick := by
  obtain ⟨_, _, h⟩ := feCmdNack_writes s
  rw [h]
@[simp] theorem feCmdNack_fifoReply : (s.feCmdNack).fifoReply = s.fifoReply := by
  obtain ⟨_, _, h⟩ := feCmdNack_writes s
  rw [h]
@[simp] theorem feCmdNack_readIF : (s.feCmdNack).readIF = s.readIF := by
  obtain ⟨_, _, h⟩ := feCmdNack_writes s
  rw [h]; rfl
@[simp] theorem feCmdNack_readIEN : (s.feCmdNack).readIEN = s.readIEN := by
  obtain ⟨_, _, h⟩ := feCmdNack_writes s
  rw [h]; rfl
@[simp] theorem feCmdNack_count : (s.feCmdNack).count = s.count := by
  obtain ⟨_, _, h⟩ := feCmdNack_writes s
  rw [h]; rfl

/-! `result` -/

theorem result_writes (ctx : Ctx) (v : Word) :
    ∃ x0 x1 x2 x3, s.result ctx v = { s with fgRes := x0, fgPc := x1, cbRes := x2, cbPc := x3 } := by
  unfold State.result
  split <;> exact ⟨_, _, _, _, rfl⟩

@[simp] theorem result_role (ctx : Ctx) (v : Word) : (s.result ctx v).role = s.role := by
  obtain ⟨_, _, _, _, h⟩ := result_writes s ctx v
  rw [h]
@[simp] theorem result_ownAddr (ctx : Ctx) (v : Word) : (s.result ctx v).ownAddr = s.ownAddr := by
  obtain ⟨_, _, _, _, h⟩ := result_writes s ctx v
  rw [h]
@[simp] theorem result_ifReg (ctx : Ctx) (v : Word) : (s.result ctx v).ifReg = s.ifReg := by
  obtain ⟨_, _, _, _, h⟩ := result_writes s ctx v
  rw [h]
@[simp] theorem result_ien (ctx : Ctx) (v : Word) : (s.result ctx v).ien = s.ien := by
  obtain ⟨_, _, _, _, h⟩ := result_writes s ctx v
  rw [h]
@[simp] theorem result_addrStatus (ctx : Ctx) (v : Word) : (s.result ctx v).addrStatus = s.addrStatus := by
  obtain ⟨_, _, _, _, h⟩ := result_writes s ctx v
  rw [h]
@[simp] theorem result_rxData (ctx : Ctx) (v : Word) : (s.result ctx v).rxData = s.rxData := by
  obtain ⟨_, _, _, _, h⟩ := result_writes s ctx v
  rw [h]
@[simp] theorem result_phase (ctx : Ctx) (v : Word) : (s.result ctx v).phase = s.phase := by
  obtain ⟨_, _, _, _, h⟩ := result_writes s ctx v
  rw [h]
@[simp] theorem result_addressed (ctx : Ctx) (v : Word) : (s.result ctx v).addressed = s.addressed := by
  obtain ⟨_, _, _, _, h⟩ := result_writes s ctx v
  rw [h]
@[simp] theorem result_txq (ctx : Ctx) (v : Word) : (s.result ctx v).txq = s.txq := by
  obtain ⟨_, _, _, _, h⟩ := result_writes s ctx v
  rw [h]
@[simp] theorem result_ftip (ctx : Ctx) (v : Word) : (s.result ctx v).ftip = s.ftip := by
  obtain ⟨_, _, _, _, h⟩ := result_writes s ctx v
  rw [h]
@[simp] theorem result_fifoMem (ctx : Ctx) (v : Word) : (s.result ctx v).fifoMem = s.fifoMem := by
  obtain ⟨_, _, _, _, h⟩ := result_writes s ctx v
  rw [h]
@[simp] theorem result_wr (ctx : Ctx) (v : Word) : (s.result ctx v).wr = s.wr := by
  obtain ⟨_, _, _, _, h⟩ := result_writes s ctx v
  rw [h]
@[simp] theorem result_rd (ctx : Ctx) (v : Word) : (s.result ctx v).rd = s.rd := by
  obtain ⟨_, _, _, _, h⟩ := result_writes s ctx v
  rw [h]
@[simp] theorem result_regRx (ctx : Ctx) (v : Word) : (s.result ctx v).regRx = s.regRx := by
  obtain ⟨_, _, _, _, h⟩ := result_writes s ctx v
  rw [h]
@[simp] theorem result_regReq (ctx : Ctx) (v : Word) : (s.result ctx v).regReq = s.regReq := by
  obtain ⟨_, _, _, _, h⟩ := result_writes s ctx v
  rw [h]
@[simp] theorem result_svState (ctx : Ctx) (v : Word) : (s.result ctx v).svState = s.svState := by
  obtain ⟨_, _, _, _, h⟩ := result_writes s ctx v
  rw [h]
@[simp] theorem result_svSnap (ctx : Ctx) (v : Word) : (s.result ctx v).svSnap = s.svSnap := by
  obtain ⟨_, _, _, _, h⟩ := result_writes s ctx v
  rw [h]
@[simp] theorem result_svNext (ctx : Ctx) (v : Word) : (s.result ctx v).svNext = s.svNext := by
  obtain ⟨_, _, _, _, h⟩ := result_writes s ctx v
  rw [h]
@[simp] theorem result_cbKind (ctx : Ctx) (v : Word) : (s.result ctx v).cbKind = s.cbKind := by
  obtain ⟨_, _, _, _, h⟩ := result_writes s ctx v
  rw [h]
@[simp] theorem result_cbHid (ctx : Ctx) (v : Word) : (s.result ctx v).cbHid = s.cbHid := by
  obtain ⟨_, _, _, _, h⟩ := result_writes s ctx v
  rw [h]
@[simp] theorem result_cbArg (ctx : Ctx) (v : Word) : (s.result ctx v).cbArg = s.cbArg := by
  obtain ⟨_, _, _, _, h⟩ := result_writes s ctx v
  rw [h]
@[simp] theorem result_fgMicro (ctx : Ctx) (v : Word) : (s.result ctx v).fgMicro = s.fgMicro := by
  obtain ⟨_, _, _, _, h⟩ := result_writes s ctx v
  rw [h]
@[simp] theorem result_busOut (ctx : Ctx) (v : Word) : (s.result ctx v).busOut = s.busOut := by
  obtain ⟨_, _, _, _, h⟩ := result_writes s ctx v
  rw [h]
@[simp] theorem result_cbLog (ctx : Ctx) (v : Word) : (s.result ctx v).cbLog = s.cbLog := by
  obtain ⟨_, _, _, _, h⟩ := result_writes s ctx v
  rw [h]
@[simp] theorem result_fault (ctx : Ctx) (v : Word) : (s.result ctx v).fault = s.fault := by
  obtain ⟨_, _, _, _, h⟩ := result_writes s ctx v
  rw [h]
@[simp] theorem result_refused (ctx : Ctx) (v : Word) : (s.result ctx v).refused = s.refused := by
  obtain ⟨_, _, _, _, h⟩ := result_writes s ctx v
  rw [h]
@[simp] theorem result_params (ctx : Ctx) (v : Word) : (s.result ctx v).params = s.params := by
  obtain ⟨_, _, _, _, h⟩ := result_writes s ctx v
  rw [h]
@[simp] theorem result_sched (ctx : Ctx) (v : Word) : (s.result ctx v).sched = s.sched := by
  obtain ⟨_, _, _, _, h⟩ := result_writes s ctx v
  rw [h]
@[simp] theorem result_tick (ctx : Ctx) (v : Word) : (s.result ctx v).tick = s.tick := by
  obtain ⟨_, _, _, _, h⟩ := result_writes s ctx v
  rw [h]
@[simp] theorem result_fifoReply (ctx : Ctx) (v : Word) : (s.result ctx v).fifoReply = s.fifoReply := by
  obtain ⟨_, _, _, _, h⟩ := result_writes s ctx v
  rw [h]
@[simp] theorem result_readIF (ctx : Ctx) (v : Word) : (s.result ctx v).readIF = s.readIF := by
  obtain ⟨_, _, _, _, h⟩ := result_writes s ctx v
  rw [h]; rfl
@[simp] theorem result_readIEN (ctx : Ctx) (v : Word) : (s.result ctx v).readIEN = s.readIEN := by
  obtain ⟨_, _, _, _, h⟩ := result_writes s ctx v
  rw [h]; rfl
@[simp] theorem result_count (ctx : Ctx) (v : Word) : (s.result ctx v).count = s.count := by
  obtain ⟨_, _, _, _, h⟩ := result_writes s ctx v
  rw [h]; rfl

/-! `callHandler` -/

theorem callHandler_writes (k : CbKind) (arg : Word) :
    ∃ x0 x1 x2 x3 x4 x5, s.callHandler k arg = { s with cbLog := x0, cbKind := x1, cbHid := x2, cbPc := x3, cbArg := x4, svState := x5 } := by
  unfold State.callHandler
  split <;> exact ⟨_, _, _, _, _, _, rfl⟩

@[simp] theorem callHandler_role (k : CbKind) (arg : Word) : (s.callHandler k arg).role = s.role := by
  obtain ⟨_, _, _, _, _, _, h⟩ := callHandler_writes s k arg
  rw [h]
@[simp] theorem callHandler_ownAddr (k : CbKind) (arg : Word) : (s.callHandler k arg).ownAddr = s.ownAddr := by
  obtain ⟨_, _, _, _, _, _, h⟩ := callHandler_writes s k arg
  rw [h]
@[simp] theorem callHandler_ifReg (k : CbKind) (arg : Word) : (s.callHandler k arg).ifReg = s.ifReg := by
  obtain ⟨_, _, _, _, _, _, h⟩ := callHandler_writes s k arg
  rw [h]
@[simp] theorem callHandler_ien (k : CbKind) (arg : Word) : (s.callHandler k arg).ien = s.ien := by
  obtain ⟨_, _, _, _, _, _, h⟩ := callHandler_writes s k arg
  rw [h]
@[simp] theorem callHandler_addrStatus (k : CbKind) (arg : Word) : (s.callHandler k arg).addrStatus = s.addrStatus := by
  obtain ⟨_, _, _, _, _, _, h⟩ := callHandler_writes s k arg
  rw [h]
@[simp] theorem callHandler_rxData (k : CbKind) (arg : Word) : (s.callHandler k arg).rxData = s.rxData := by
  obtain ⟨_, _, _, _, _, _, h⟩ := callHandler_writes s k arg
  rw [h]
@[simp] theorem callHandler_phase (k : CbKind) (arg : Word) : (s.callHandler k arg).phase = s.phase := by
  obtain ⟨_, _, _, _, _, _, h⟩ := callHandler_writes s k arg
  rw [h]
@[simp] theorem callHandler_addressed (k : CbKind) (arg : Word) : (s.callHandler k arg).addressed = s.addressed := by
  obtain ⟨_, _, _, _, _, _, h⟩ := callHandler_writes s k arg
  rw [h]
@[simp] theorem callHandler_txq (k : CbKind) (arg : Word) : (s.callHandler k arg).txq = s.txq := by
  obtain ⟨_, _, _, _, _, _, h⟩ := callHandler_writes s k arg
  rw [h]
@[simp] theorem callHandler_ftip (k : CbKind) (arg : Word) : (s.callHandler k arg).ftip = s.ftip := by
  obtain ⟨_, _, _, _, _, _, h⟩ := callHandler_writes s k arg
  rw [h]
@[simp] theorem callHandler_fifoMem (k : CbKind) (arg : Word) : (s.callHandler k arg).fifoMem = s.fifoMem := by
  obtain ⟨_, _, _, _, _, _, h⟩ := callHandler_writes s k arg
  rw [h]
@[simp] theorem callHandler_wr (k : CbKind) (arg : Word) : (s.callHandler k arg).wr = s.wr := by
  obtain ⟨_, _, _, _, _, _, h⟩ := callHandler_writes s k arg
  rw [h]
@[simp] theorem callHandler_rd (k : CbKind) (arg : Word) : (s.callHandler k arg).rd = s.rd := by
  obtain ⟨_, _, _, _, _, _, h⟩ := callHandler_writes s k arg
  rw [h]
@[simp] theorem callHandler_regRx (k : CbKind) (arg : Word) : (s.callHandler k arg).regRx = s.regRx := by
  obtain ⟨_, _, _, _, _, _, h⟩ := callHandler_writes s k arg
  rw [h]
@[simp] theorem callHandler_regReq (k : CbKind) (arg : Word) : (s.callHandler k arg).regReq = s.regReq := by
  obtain ⟨_, _, _, _, _, _, h⟩ := callHandler_writes s k arg
  rw [h]
@[simp] theorem callHandler_svSnap (k : CbKind) (arg : Word) : (s.callHandler k arg).svSnap = s.svSnap := by
  obtain ⟨_, _, _, _, _, _, h⟩ := callHandler_writes s k arg
  rw [h]
@[simp] theorem callHandler_svNext (k : CbKind) (arg : Word) : (s.callHandler k arg).svNext = s.svNext := by
  obtain ⟨_, _, _, _, _, _, h⟩ := callHandler_writes s k arg
  rw [h]
@[simp] theorem callHandler_fgPc (k : CbKind) (arg : Word) : (s.callHandler k arg).fgPc = s.fgPc := by
  obtain ⟨_, _, _, _, _, _, h⟩ := callHandler_writes s k arg
  rw [h]
@[simp] theorem callHandler_fgMicro (k : CbKind) (arg : Word) : (s.callHandler k arg).fgMicro = s.fgMicro := by
  obtain ⟨_, _, _, _, _, _, h⟩ := callHandler_writes s k arg
  rw [h]
@[simp] theorem callHandler_busOut (k : CbKind) (arg : Word) : (s.callHandler k arg).busOut = s.busOut := by
  obtain ⟨_, _, _, _, _, _, h⟩ := callHandler_writes s k arg
  rw [h]
@[simp] theorem callHandler_fgRes (k : CbKind) (arg : Word) : (s.callHandler k arg).fgRes = s.fgRes := by
  obtain ⟨_, _, _, _, _, _, h⟩ := callHandler_writes s k arg
  rw [h]
@[simp] theorem callHandler_cbRes (k : CbKind) (arg : Word) : (s.callHandler k arg).cbRes = s.cbRes := by
  obtain ⟨_, _, _, _, _, _, h⟩ := callHandler_writes s k arg
  rw [h]
@[simp] theorem callHandler_fault (k : CbKind) (arg : Word) : (s.callHandler k arg).fault = s.fault := by
  obtain ⟨_, _, _, _, _, _, h⟩ := callHandler_writes s k arg
  rw [h]
@[simp] theorem callHandler_refused (k : CbKind) (arg : Word) : (s.callHandler k arg).refused = s.refused := by
  obtain ⟨_, _, _, _, _, _, h⟩ := callHandler_writes s k arg
  rw [h]
@[simp] theorem callHandler_params (k : CbKind) (arg : Word) : (s.callHandler k arg).params = s.params := by
  obtain ⟨_, _, _, _, _, _, h⟩ := callHandler_writes s k arg
  rw [h]
@[simp] theorem callHandler_sched (k : CbKind) (arg : Word) : (s.callHandler k arg).sched = s.sched := by
  obtain ⟨_, _, _, _, _, _, h⟩ := callHandler_writes s k arg
  rw [h]
@[simp] theorem callHandler_tick (k : CbKind) (arg : Word) : (s.callHandler k arg).tick = s.tick := by
  obtain ⟨_, _, _, _, _, _, h⟩ := callHandler_writes s k arg
  rw [h]
@[simp] theorem callHandler_fifoReply (k : CbKind) (arg : Word) : (s.callHandler k arg).fifoReply = s.fifoReply := by
  obtain ⟨_, _, _, _, _, _, h⟩ := callHandler_writes s k arg
  rw [h]
@[simp] theorem callHandler_readIF (k : CbKind) (arg : Word) : (s.callHandler k arg).readIF = s.readIF := by
  obtain ⟨_, _, _, _, _, _, h⟩ := callHandler_writes s k arg
  rw [h]; rfl
@[simp] theorem callHandler_readIEN (k : CbKind) (arg : Word) : (s.callHandler k arg).readIEN = s.readIEN := by
  obtain ⟨_, _, _, _, _, _, h⟩ := callHandler_writes s k arg
  rw [h]; rfl
@[simp] theorem callHandler_count (k : CbKind) (arg : Word) : (s.callHandler k arg).count = s.count := by
  obtain ⟨_, _, _, _, _, _, h⟩ := callHandler_writes s k arg
  rw [h]; rfl

/-! `busFault` -/

theorem busFault_writes (f : Flag) :
    ∃ x0 x1 x2 x3, s.busFault f = { s with ifReg := x0, phase := x1, addressed := x2, txq := x3 } := by
  exact ⟨_, _, _, _, rfl⟩

@[simp] theorem busFault_role (f : Flag) : (s.busFault f).role = s.role := by
  obtain ⟨_, _, _, _, h⟩ := busFault_writes s f
  rw [h]
@[simp] theorem busFault_ownAddr (f : Flag) : (s.busFault f).ownAddr = s.ownAddr := by
  obtain ⟨_, _, _, _, h⟩ := busFault_writes s f
  rw [h]
@[simp] theorem busFault_ien (f : Flag) : (s.busFault f).ien = s.ien := by
  obtain ⟨_, _, _, _, h⟩ := busFault_writes s f
  rw [h]
@[simp] theorem busFault_addrStatus (f : Flag) : (s.busFault f).addrStatus = s.addrStatus := by
  obtain ⟨_, _, _, _, h⟩ := busFault_writes s f
  rw [h]
@[simp] theorem busFault_rxData (f : Flag) : (s.busFault f).rxData = s.rxData := by
  obtain ⟨_, _, _, _, h⟩ := busFault_writes s f
  rw [h]
@[simp] theorem busFault_ftip (f : Flag) : (s.busFault f).ftip = s.ftip := by
  obtain ⟨_, _, _, _, h⟩ := busFault_writes s f
  rw [h]
@[simp] theorem busFault_fifoMem (f : Flag) : (s.busFault f).fifoMem = s.fifoMem := by
  obtain ⟨_, _, _, _, h⟩ := busFault_writes s f
  rw [h]
@[simp] theorem busFault_wr (f : Flag) : (s.busFault f).wr = s.wr := by
  obtain ⟨_, _, _, _, h⟩ := busFault_writes s f
  rw [h]
@[simp] theorem busFault_rd (f : Flag) : (s.busFault f).rd = s.rd := by
  obtain ⟨_, _, _, _, h⟩ := busFault_writes s f
  rw [h]
@[simp] theorem busFault_regRx (f : Flag) : (s.busFault f).regRx = s.regRx := by
  obtain ⟨_, _, _, _, h⟩ := busFault_writes s f
  rw [h]
@[simp] theorem busFault_regReq (f : Flag) : (s.busFault f).regReq = s.regReq := by
  obtain ⟨_, _, _, _, h⟩ := busFault_writes s f
  rw [h]
@[simp] theorem busFault_svState (f : Flag) : (s.busFault f).svState = s.svState := by
  obtain ⟨_, _, _, _, h⟩ := busFault_writes s f
  rw [h]
@[simp] theorem busFault_svSnap (f : Flag) : (s.busFault f).svSnap = s.svSnap := by
  obtain ⟨_, _, _, _, h⟩ := busFault_writes s f
  rw [h]
@[simp] theorem busFault_svNext (f : Flag) : (s.busFault f).svNext = s.svNext := by
  obtain ⟨_, _, _, _, h⟩ := busFault_writes s f
  rw [h]
@[simp] theorem busFault_cbKind (f : Flag) : (s.busFault f).cbKind = s.cbKind := by
  obtain ⟨_, _, _, _, h⟩ := busFault_writes s f
  rw [h]
@[simp] theorem busFault_cbHid (f : Flag) : (s.busFault f).cbHid = s.cbHid := by
  obtain ⟨_, _, _, _, h⟩ := busFault_writes s f
  rw [h]
@[simp] theorem busFault_cbPc (f : Flag) : (s.busFault f).cbPc = s.cbPc := by
  obtain ⟨_, _, _, _, h⟩ := busFault_writes s f
  rw [h]
@[simp] theorem busFault_cbArg (f : Flag) : (s.busFault f).cbArg = s.cbArg := by
  obtain ⟨_, _, _, _, h⟩ := busFault_writes s f
  rw [h]
@[simp] theorem busFault_fgPc (f : Flag) : (s.busFault f).fgPc = s.fgPc := by
  obtain ⟨_, _, _, _, h⟩ := busFault_writes s f
  rw [h]
@[simp] theorem busFault_fgMicro (f : Flag) : (s.busFault f).fgMicro = s.fgMicro := by
  obtain ⟨_, _, _, _, h⟩ := busFault_writes s f
  rw [h]
@[simp] theorem busFault_busOut (f : Flag) : (s.busFault f).busOut = s.busOut := by
  obtain ⟨_, _, _, _, h⟩ := busFault_writes s f
  rw [h]
@[simp] theorem busFault_cbLog (f : Flag) : (s.busFault f).cbLog = s.cbLog := by
  obtain ⟨_, _, _, _, h⟩ := busFault_writes s f
  rw [h]
@[simp] theorem busFault_fgRes (f : Flag) : (s.busFault f).fgRes = s.fgRes := by
  obtain ⟨_, _, _, _, h⟩ := busFault_writes s f
  rw [h]
@[simp] theorem busFault_cbRes (f : Flag) : (s.busFault f).cbRes = s.cbRes := by
  obtain ⟨_, _, _, _, h⟩ := busFault_writes s f
  rw [h]
@[simp] theorem busFault_fault (f : Flag) : (s.busFault f).fault = s.fault := by
  obtain ⟨_, _, _, _, h⟩ := busFault_writes s f
  rw [h]
@[simp] theorem busFault_refused (f : Flag) : (s.busFault f).refused = s.refused := by
  obtain ⟨_, _, _, _, h⟩ := busFault_writes s f
  rw [h]
@[simp] theorem busFault_params (f : Flag) : (s.busFault f).params = s.params := by
  obtain ⟨_, _, _, _, h⟩ := busFault_writes s f
  rw [h]
@[simp] theorem busFault_sched (f : Flag) : (s.busFault f).sched = s.sched := by
  obtain ⟨_, _, _, _, h⟩ := busFault_writes s f
  rw [h]
@[simp] theorem busFault_tick (f : Flag) : (s.busFault f).tick = s.tick := by
  obtain ⟨_, _, _, _, h⟩ := busFault_writes s f
  rw [h]
@[simp] theorem busFault_fifoReply (f : Flag) : (s.busFault f).fifoReply = s.fifoReply := by
  obtain ⟨_, _, _, _, h⟩ := busFault_writes s f
  rw [h]
@[simp] theorem busFault_readIEN (f : Flag) : (s.busFault f).readIEN = s.readIEN := by
  obtain ⟨_, _, _, _, h⟩ := busFault_writes s f
  rw [h]; rfl
@[simp] theorem busFault_count (f : Flag) : (s.busFault f).count = s.count := by
  obtain ⟨_, _, _, _, h⟩ := busFault_writes s f
  rw [h]; rfl

/-! `deactivate` -/

theorem deactivate_writes :
    ∃ x0 x1 x2 x3 x4 x5 x6 x7 x8, s.deactivate = { s with ien := x0, ifReg := x1, wr := x2, rd := x3, phase := x4, addressed := x5, txq := x6, ftip := x7, role := x8 } := by
  exact ⟨_, _, _, _, _, _, _, _, _, rfl⟩

@[simp] theorem deactivate_ownAddr : (s.deactivate).ownAddr = s.ownAddr := by
  obtain ⟨_, _, _, _, _, _, _, _, _, h⟩ := deactivate_writes s
  rw [h]
@[simp] theorem deactivate_addrStatus : (s.deactivate).addrStatus = s.addrStatus := by
  obtain ⟨_, _, _, _, _, _, _, _, _, h⟩ := deactivate_writes s
  rw [h]
@[simp] theorem deactivate_rxData : (s.deactivate).rxData = s.rxData := by
  obtain ⟨_, _, _, _, _, _, _, _, _, h⟩ := deactivate_writes s
  rw [h]
@[simp] theorem deactivate_fifoMem : (s.deactivate).fifoMem = s.fifoMem := by
  obtain ⟨_, _, _, _, _, _, _, _, _, h⟩ := deactivate_writes s
  rw [h]
@[simp] theorem deactivate_regRx : (s.deactivate).regRx = s.regRx := by
  obtain ⟨_, _, _, _, _, _, _, _, _, h⟩ := deactivate_writes s
  rw [h]
@[simp] theorem deactivate_regReq : (s.deactivate).regReq = s.regReq := by
  obtain ⟨_, _, _, _, _, _, _, _, _, h⟩ := deactivate_writes s
  rw [h]
@[simp] theorem deactivate_svState : (s.deactivate).svState = s.svState := by
  obtain ⟨_, _, _, _, _, _, _, _, _, h⟩ := deactivate_writes s
  rw [h]
@[simp] theorem deactivate_svSnap : (s.deactivate).svSnap = s.svSnap := by
  obtain ⟨_, _, _, _, _, _, _, _, _, h⟩ := deactivate_writes s
  rw [h]
@[simp] theorem deactivate_svNext : (s.deactivate).svNext = s.svNext := by
  obtain ⟨_, _, _, _, _, _, _, _, _, h⟩ := deactivate_writes s
  rw [h]
@[simp] theorem deactivate_cbKind : (s.deactivate).cbKind = s.cbKind := by
  obtain ⟨_, _, _, _, _, _, _, _, _, h⟩ := deactivate_writes s
  rw [h]
@[simp] theorem deactivate_cbHid : (s.deactivate).cbHid = s.cbHid := by
  obtain ⟨_, _, _, _, _, _, _, _, _, h⟩ := deactivate_writes s
  rw [h]
@[simp] theorem deactivate_cbPc : (s.deactivate).cbPc = s.cbPc := by
  obtain ⟨_, _, _, _, _, _, _, _, _, h⟩ := deactivate_writes s
  rw [h]
@[simp] theorem deactivate_cbArg : (s.deactivate).cbArg = s.cbArg := by
  obtain ⟨_, _, _, _, _, _, _, _, _, h⟩ := deactivate_writes s
  rw [h]
@[simp] theorem deactivate_fgPc : (s.deactivate).fgPc = s.fgPc := by
  obtain ⟨_, _, _, _, _, _, _, _, _, h⟩ := deactivate_writes s
  rw [h]
@[simp] theorem deactivate_fgMicro : (s.deactivate).fgMicro = s.fgMicro := by
  obtain ⟨_, _, _, _, _, _, _, _, _, h⟩ := deactivate_writes s
  rw [h]
@[simp] theorem deactivate_busOut : (s.deactivate).busOut = s.busOut := by
  obtain ⟨_, _, _, _, _, _, _, _, _, h⟩ := deactivate_writes s
  rw [h]
@[simp] theorem deactivate_cbLog : (s.deactivate).cbLog = s.cbLog := by
  obtain ⟨_, _, _, _, _, _, _, _, _, h⟩ := deactivate_writes s
  rw [h]
@[simp] theorem deactivate_fgRes : (s.deactivate).fgRes = s.fgRes := by
  obtain ⟨_, _, _, _, _, _, _, _, _, h⟩ := deactivate_writes s
  rw [h]
@[simp] theorem deactivate_cbRes : (s.deactivate).cbRes = s.cbRes := by
  obtain ⟨_, _, _, _, _, _, _, _, _, h⟩ := deactivate_writes s
  rw [h]
@[simp] theorem deactivate_fault : (s.deactivate).fault = s.fault := by
  obtain ⟨_, _, _, _, _, _, _, _, _, h⟩ := deactivate_writes s
  rw [h]
@[simp] theorem deactivate_refused : (s.deactivate).refused = s.refused := by
  obtain ⟨_, _, _, _, _, _, _, _, _, h⟩ := deactivate_writes s
  rw [h]
@[simp] theorem deactivate_params : (s.deactivate).params = s.params := by
  obtain ⟨_, _, _, _, _, _, _, _, _, h⟩ := deactivate_writes s
  rw [h]
@[simp] theorem deactivate_sched : (s.deactivate).sched = s.sched := by
  obtain ⟨_, _, _, _, _, _, _, _, _, h⟩ := deactivate_writes s
  rw [h]
@[simp] theorem deactivate_tick : (s.deactivate).tick = s.tick := by
  obtain ⟨_, _, _, _, _, _, _, _, _, h⟩ := deactivate_writes s
  rw [h]
@[simp] theorem deactivate_fifoReply : (s.deactivate).fifoReply = s.fifoReply := by
  obtain ⟨_, _, _, _, _, _, _, _, _, h⟩ := deactivate_writes s
  rw [h]

/-! `activate` -/

theorem activate_writes (addr : Addr7) :
    ∃ x0 x1 x2 x3 x4 x5 x6 x7 x8 x9, s.activate addr = { s with ien := x0, ifReg := x1, wr := x2, rd := x3, phase := x4, addressed := x5, txq := x6, ftip := x7, role := x8, ownAddr := x9 } := by
  exact ⟨_, _, _, _, _, _, _, _, _, _, rfl⟩

@[simp] theorem activate_addrStatus (addr : Addr7) : (s.activate addr).addrStatus = s.addrStatus := by
  obtain ⟨_, _, _, _, _, _, _, _, _, _, h⟩ := activate_writes s addr
  rw [h]
@[simp] theorem activate_rxData (addr : Addr7) : (s.activate addr).rxData = s.rxData := by
  obtain ⟨_, _, _, _, _, _, _, _, _, _, h⟩ := activate_writes s addr
  rw [h]
@[simp] theorem activate_fifoMem (addr : Addr7) : (s.activate addr).fifoMem = s.fifoMem := by
  obtain ⟨_, _, _, _, _, _, _, _, _, _, h⟩ := activate_writes s addr
  rw [h]
@[simp] theorem activate_regRx (addr : Addr7) : (s.activate addr).regRx = s.regRx := by
  obtain ⟨_, _, _, _, _, _, _, _, _, _, h⟩ := activate_writes s addr
  rw [h]
@[simp] theorem activate_regReq (addr : Addr7) : (s.activate addr).regReq = s.regReq := by
  obtain ⟨_, _, _, _, _, _, _, _, _, _, h⟩ := activate_writes s addr
  rw [h]
@[simp] theorem activate_svState (addr : Addr7) : (s.activate addr).svState = s.svState := by
  obtain ⟨_, _, _, _, _, _, _, _, _, _, h⟩ := activate_writes s addr
  rw [h]
@[simp] theorem activate_svSnap (addr : Addr7) : (s.activate addr).svSnap = s.svSnap := by
  obtain ⟨_, _, _, _, _, _, _, _, _, _, h⟩ := activate_writes s addr
  rw [h]
@[simp] theorem activate_svNext (addr : Addr7) : (s.activate addr).svNext = s.svNext := by
  obtain ⟨_, _, _, _, _, _, _, _, _, _, h⟩ := activate_writes s addr
  rw [h]
@[simp] theorem activate_cbKind (addr : Addr7) : (s.activate addr).cbKind = s.cbKind := by
  obtain ⟨_, _, _, _, _, _, _, _, _, _, h⟩ := activate_writes s addr
  rw [h]
@[simp] theorem activate_cbHid (addr : Addr7) : (s.activate addr).cbHid = s.cbHid := by
  obtain ⟨_, _, _, _, _, _, _, _, _, _, h⟩ := activate_writes s addr
  rw [h]
@[simp] theorem activate_cbPc (addr : Addr7) : (s.activate addr).cbPc = s.cbPc := by
  obtain ⟨_, _, _, _, _, _, _, _, _, _, h⟩ := activate_writes s addr
  rw [h]
@[simp] theorem activate_cbArg (addr : Addr7) : (s.activate addr).cbArg = s.cbArg := by
  obtain ⟨_, _, _, _, _, _, _, _, _, _, h⟩ := activate_writes s addr
  rw [h]
@[simp] theorem activate_fgPc (addr : Addr7) : (s.activate addr).fgPc = s.fgPc := by
  obtain ⟨_, _, _, _, _, _, _, _, _, _, h⟩ := activate_writes s addr
  rw [h]
@[simp] theorem activate_fgMicro (addr : Addr7) : (s.activate addr).fgMicro = s.fgMicro := by
  obtain ⟨_, _, _, _, _, _, _, _, _, _, h⟩ := activate_writes s addr
  rw [h]
@[simp] theorem activate_busOut (addr : Addr7) : (s.activate addr).busOut = s.busOut := by
  obtain ⟨_, _, _, _, _, _, _, _, _, _, h⟩ := activate_writes s addr
  rw [h]
@[simp] theorem activate_cbLog (addr : Addr7) : (s.activate addr).cbLog = s.cbLog := by
  obtain ⟨_, _, _, _, _, _, _, _, _, _, h⟩ := activate_writes s addr
  rw [h]
@[simp] theorem activate_fgRes (addr : Addr7) : (s.activate addr).fgRes = s.fgRes := by
  obtain ⟨_, _, _, _, _, _, _, _, _, _, h⟩ := activate_writes s addr
  rw [h]
@[simp] theorem activate_cbRes (addr : Addr7) : (s.activate addr).cbRes = s.cbRes := by
  obtain ⟨_, _, _, _, _, _, _, _, _, _, h⟩ := activate_writes s addr
  rw [h]
@[simp] theorem activate_fault (addr : Addr7) : (s.activate addr).fault = s.fault := by
  obtain ⟨_, _, _, _, _, _, _, _, _, _, h⟩ := activate_writes s addr
  rw [h]
@[simp] theorem activate_refused (addr : Addr7) : (s.activate addr).refused = s.refused := by
  obtain ⟨_, _, _, _, _, _, _, _, _, _, h⟩ := activate_writes s addr
  rw [h]
@[simp] theorem activate_params (addr : Addr7) : (s.activate addr).params = s.params := by
  obtain ⟨_, _, _, _, _, _, _, _, _, _, h⟩ := activate_writes s addr
  rw [h]
@[simp] theorem activate_sched (addr : Addr7) : (s.activate addr).sched = s.sched := by
  obtain ⟨_, _, _, _, _, _, _, _, _, _, h⟩ := activate_writes s addr
  rw [h]
@[simp] theorem activate_tick (addr : Addr7) : (s.activate addr).tick = s.tick := by
  obtain ⟨_, _, _, _, _, _, _, _, _, _, h⟩ := activate_writes s addr
  rw [h]
@[simp] theorem activate_fifoReply (addr : Addr7) : (s.activate addr).fifoReply = s.fifoReply := by
  obtain ⟨_, _, _, _, _, _, _, _, _, _, h⟩ := activate_writes s addr
  rw [h]

end Sys2Proof.Laws
end

