-- ==== Sys2Proof/Laws/Memory.lean ====
section
/-! SUPPORT. The laws of the FIFO storage: read after write, the canonical form, and equality of equal memories (R52). -/

namespace Sys2Proof.Laws

open Sys2Proof.Machine

theorem read_of_lt {lo : Nat} {m : List Host.Cell} (h : Memory.wfFrom lo m = true) {a : Nat} (ha : a < lo) :
    Memory.read m a = Memory.unlisted := by
  induction m generalizing lo with
  | nil => rfl
  | cons c m ih =>
    obtain ⟨k, b⟩ := c
    simp only [Memory.wfFrom, Bool.and_eq_true, decide_eq_true_eq] at h
    simp only [Memory.read]
    rw [if_neg (by omega)]
    exact ih h.2 (by omega)

/-- A read after a write to the same slot gives the value written, a read of another slot what it gave before. -/
theorem read_write {lo : Nat} {m : List Host.Cell} (h : Memory.wfFrom lo m = true) (a : Nat) (v : Byte) (x : Nat) :
    Memory.read (Memory.write m a v) x = if x = a then v else Memory.read m x := by
  induction m generalizing lo with
  | nil =>
    simp only [Memory.write]
    split <;> rename_i hv
    · subst hv; simp [Memory.read]
    · simp only [Memory.read, eq_comm (a := x)]
  | cons c m ih =>
    obtain ⟨k, b⟩ := c
    simp only [Memory.wfFrom, Bool.and_eq_true, decide_eq_true_eq] at h
    simp only [Memory.write]
    split
    · rename_i hlt
      split
      · rename_i hv
        subst hv
        split
        · subst x
          simp only [Memory.read]
          rw [if_neg (by omega)]
          exact read_of_lt h.2 (by omega)
        · rfl
      · by_cases hx : x = a
        · subst hx; simp [Memory.read]
        · rw [if_neg hx]; simp [Memory.read, Ne.symm hx]
    · split
      · rename_i hak
        subst hak
        split
        · rename_i hv
          subst hv
          by_cases hx : x = a
          · subst hx; simp [read_of_lt h.2]
          · simp [hx, Memory.read, Ne.symm hx]
        · by_cases hx : x = a
          · subst hx; simp [Memory.read]
          · simp [hx, Memory.read, Ne.symm hx]
      · simp only [Memory.read]
        by_cases hk : k = x
        · subst hk; simp; intro e; omega
        · simp only [if_neg hk]; exact ih h.2

theorem write_wfFrom {lo : Nat} {m : List Host.Cell} (h : Memory.wfFrom lo m = true) {a : Nat} (ha : lo ≤ a) (v : Byte) :
    Memory.wfFrom lo (Memory.write m a v) = true := by
  induction m generalizing lo with
  | nil =>
    simp only [Memory.write]
    split <;> simp_all [Memory.wfFrom]
  | cons c m ih =>
    obtain ⟨k, b⟩ := c
    have h0 := h
    simp only [Memory.wfFrom, Bool.and_eq_true, decide_eq_true_eq, bne_iff_ne, ne_eq] at h
    simp only [Memory.write]
    split
    · split
      · exact h0
      · rename_i hlt hv
        simp only [Memory.wfFrom, Bool.and_eq_true, decide_eq_true_eq, bne_iff_ne, ne_eq]
        exact ⟨⟨ha, hv⟩, ⟨by omega, h.1.2⟩, h.2⟩
    · split
      · rename_i hak
        subst hak
        split
        · have weaken : ∀ {lo lo' : Nat} {m : List Host.Cell}, lo' ≤ lo → Memory.wfFrom lo m = true →
              Memory.wfFrom lo' m = true := by
            intro lo lo' m hle hm
            cases m with
            | nil => rfl
            | cons c m =>
              simp only [Memory.wfFrom, Bool.and_eq_true, decide_eq_true_eq] at hm ⊢
              exact ⟨⟨by omega, hm.1.2⟩, hm.2⟩
          exact weaken (by omega) h.2
        · rename_i hv
          simp only [Memory.wfFrom, Bool.and_eq_true, decide_eq_true_eq, bne_iff_ne, ne_eq]
          exact ⟨⟨ha, hv⟩, h.2⟩
      · simp only [Memory.wfFrom, Bool.and_eq_true, decide_eq_true_eq, bne_iff_ne, ne_eq]
        exact ⟨h.1, ih h.2 (by omega)⟩

/-- A write keeps the canonical form. -/
theorem write_wf {m : List Host.Cell} (h : Memory.wf m = true) (a : Nat) (v : Byte) :
    Memory.wf (Memory.write m a v) = true :=
  write_wfFrom h (Nat.zero_le a) v

theorem mem_write {m : List Host.Cell} {a : Nat} {v : Byte} {c : Host.Cell} (h : c ∈ Memory.write m a v) :
    c ∈ m ∨ c = (a, v) := by
  induction m with
  | nil =>
    simp only [Memory.write] at h
    split at h <;> simp_all
  | cons d m ih =>
    obtain ⟨k, b⟩ := d
    simp only [Memory.write] at h
    split at h
    · split at h
      · exact .inl h
      · simp only [List.mem_cons] at h ⊢; tauto
    · split at h
      · split at h
        · exact .inl (List.mem_cons_of_mem _ h)
        · simp only [List.mem_cons] at h ⊢; tauto
      · simp only [List.mem_cons] at h ⊢
        rcases h with h | h
        · exact .inl (.inl h)
        · rcases ih h with h | h
          · exact .inl (.inr h)
          · exact .inr h

/-- A write of a slot below `n` keeps the form the invariant asks for. -/
theorem write_fits {m : List Host.Cell} {n : Nat} (h : Memory.fits m n) {a : Nat} (ha : a < n) (v : Byte) :
    Memory.fits (Memory.write m a v) n := by
  refine ⟨write_wf h.1 a v, fun c hc => ?_⟩
  rcases mem_write hc with hc | rfl
  · exact h.2 c hc
  · exact ha

/-- Equal memories are equal lists: canonical lists that read alike everywhere are the same. -/
theorem eq_of_read_eq {lo : Nat} {m n : List Host.Cell} (hm : Memory.wfFrom lo m = true)
    (hn : Memory.wfFrom lo n = true) (h : ∀ a, Memory.read m a = Memory.read n a) : m = n := by
  induction m generalizing lo n with
  | nil =>
    cases n with
    | nil => rfl
    | cons d n =>
      obtain ⟨k, b⟩ := d
      simp only [Memory.wfFrom, Bool.and_eq_true, bne_iff_ne, ne_eq] at hn
      have := h k
      simp [Memory.read] at this
      exact absurd this.symm hn.1.2
  | cons c m ih =>
    obtain ⟨k, b⟩ := c
    cases n with
    | nil =>
      simp only [Memory.wfFrom, Bool.and_eq_true, bne_iff_ne, ne_eq] at hm
      have := h k
      simp [Memory.read] at this
      exact absurd this hm.1.2
    | cons d n =>
      obtain ⟨j, e⟩ := d
      simp only [Memory.wfFrom, Bool.and_eq_true, decide_eq_true_eq, bne_iff_ne, ne_eq] at hm hn
      have hk := h k
      have hj := h j
      simp only [Memory.read, if_true] at hk hj
      rcases Nat.lt_trichotomy k j with hlt | heq | hgt
      · rw [if_neg (by omega), read_of_lt hn.2 (by omega)] at hk
        exact absurd hk hm.1.2
      · subst heq
        simp only [if_true] at hk
        subst hk
        congr 1
        refine ih hm.2 hn.2 fun a => ?_
        by_cases ha : a < k + 1
        · rw [read_of_lt hm.2 ha, read_of_lt hn.2 ha]
        · have := h a
          simpa [Memory.read, show k ≠ a by omega] using this
      · rw [if_neg (by omega), read_of_lt hm.2 (by omega)] at hj
        exact absurd hj.symm hn.1.2

/-- Slot `i` after `MemWrite(j, 1, v)`. -/
theorem memRead_memWrite {s : State} (h : Memory.wf s.fifoMem = true) (i j : Fin s.params.fifoCap) (v : Byte) :
    (s.memWrite j v).memRead i = if i = j then v else s.memRead i := by
  simp only [State.memRead, memWrite_fifoMem, Fin.ext_iff]
  exact read_write h j.val v i.val

end Sys2Proof.Laws
end

