-- ==== Sys2Proof/Laws/Fifo.lean ====
section
/-! SUPPORT. The index arithmetic of the FIFO (R99) and what each port operation does to the queue it stands for
(R91 to R98, R100 to R102). -/

namespace Sys2Proof.Laws

open Sys2Proof.Machine

/-- The index ranges of R35. -/
structure InRange (s : State) : Prop where
  wr : s.wr.toNat < 2 * s.params.fifoCap
  rd : s.rd.toNat < 2 * s.params.fifoCap

theorem modSub_eq {w r m : Nat} (hw : w < m) (hr : r < m) : modSub w r m = if r ≤ w then w - r else w + m - r := by
  unfold modSub
  split
  · rename_i h
    have e : ((w : Int) - r) = ((w - r : Nat) : Int) := by omega
    rw [e, ← Int.natCast_mod, Int.toNat_natCast, Nat.mod_eq_of_lt (by omega)]
  · rename_i h
    have e : ((w : Int) - r) % (m : Int) = ((w : Int) - r + m) % (m : Int) := by simp
    have e' : ((w : Int) - r + m) = ((w + m - r : Nat) : Int) := by omega
    rw [e, e', ← Int.natCast_mod, Int.toNat_natCast, Nat.mod_eq_of_lt (by omega)]

/-- COUNT without the remainder. -/
theorem count_eq {s : State} (h : InRange s) :
    s.count = if s.rd.toNat ≤ s.wr.toNat then s.wr.toNat - s.rd.toNat
      else s.wr.toNat + 2 * s.params.fifoCap - s.rd.toNat :=
  modSub_eq h.wr h.rd

theorem count_lt {s : State} (h : InRange s) : s.count < 2 * s.params.fifoCap := by
  have := h.wr; have := h.rd
  rw [count_eq h]; split <;> omega

/-- EMPTY is "the indices are equal" (R36, R92). -/
theorem count_eq_zero {s : State} (h : InRange s) : s.count = 0 ↔ s.wr = s.rd := by
  have := h.wr; have := h.rd
  rw [count_eq h, ← BitVec.toNat_inj]
  split <;> omega

/-- Advancing an index (R99). -/
theorem advance_toNat {s : State} {x : Word} (hx : x.toNat < 2 * s.params.fifoCap) :
    (s.advance x).toNat = if x.toNat + 1 = 2 * s.params.fifoCap then 0 else x.toNat + 1 := by
  have hN := s.params.fifoCap_le
  simp only [State.advance, BitVec.toNat_ofNat]
  split
  · rename_i h; rw [h]; simp
  · rename_i h
    rw [Nat.mod_eq_of_lt (show x.toNat + 1 < 2 * s.params.fifoCap by omega), Nat.mod_eq_of_lt (by omega)]

theorem advance_lt {s : State} {x : Word} (hx : x.toNat < 2 * s.params.fifoCap) :
    (s.advance x).toNat < 2 * s.params.fifoCap := by
  rw [advance_toNat hx]; split <;> omega

theorem mod_cap {x n : Nat} (hx : x < 2 * n) : x % n = if x < n then x else x - n := by
  split
  · exact Nat.mod_eq_of_lt ‹_›
  · rw [Nat.mod_eq_sub_mod (by omega), Nat.mod_eq_of_lt (by omega)]

theorem slot_val {s : State} {x : Word} (hx : x.toNat < 2 * s.params.fifoCap) :
    (s.slot x).val = if x.toNat < s.params.fifoCap then x.toNat else x.toNat - s.params.fifoCap :=
  mod_cap hx

/-- The index of the k-th unread byte, without the remainder. -/
theorem index_eq {r k n : Nat} (hr : r < 2 * n) (hk : k < 2 * n) :
    (r + k) % (2 * n) = if r + k < 2 * n then r + k else r + k - 2 * n := by
  split
  · exact Nat.mod_eq_of_lt ‹_›
  · rw [Nat.mod_eq_sub_mod (by omega), Nat.mod_eq_of_lt (by omega)]

/-- The k-th unread byte, k below COUNT, stands in a slot other than the one STORE writes (R94, R100). -/
theorem unread_slot_ne {s : State} (h : InRange s) (hc : s.count < s.params.fifoCap) {k : Nat} (hk : k < s.count) :
    (s.rd.toNat + k) % (2 * s.params.fifoCap) % s.params.fifoCap ≠ (s.slot s.wr).val := by
  have hw := h.wr; have hr := h.rd
  rw [count_eq h] at hc hk
  have hk' : k < 2 * s.params.fifoCap := by omega
  rw [index_eq hr hk', slot_val hw]
  by_cases hle : s.rd.toNat ≤ s.wr.toNat
  · rw [if_pos hle] at hc hk
    rw [if_pos (by omega), mod_cap (by omega)]
    split <;> split <;> omega
  · rw [if_neg hle] at hc hk
    split
    · rw [mod_cap (by omega)]; split <;> split <;> omega
    · rw [mod_cap (by omega)]; split <;> split <;> omega

/-- The index after the last unread byte is WR. -/
theorem index_count {s : State} (h : InRange s) :
    (s.rd.toNat + s.count) % (2 * s.params.fifoCap) = s.wr.toNat := by
  have hw := h.wr; have hr := h.rd
  rw [index_eq hr (count_lt h), count_eq h]
  split <;> split <;> omega

/-! ### STORE (R91) -/

theorem fifoPut_full {s : State} (h : s.isFull = true) (b : Byte) : s.fifoPut b = (s, .rejected) := by
  simp [State.fifoPut, h]

theorem fifoPut_ok {s : State} (h : s.isFull = false) (b : Byte) :
    s.fifoPut b = ({ s.memWrite (s.slot s.wr) b with wr := s.advance s.wr }, .ok) := by
  simp [State.fifoPut, h]

theorem isFull_iff {s : State} : s.isFull = true ↔ s.count = s.params.fifoCap := by simp [State.isFull]

theorem not_full_iff {s : State} (hc : s.count ≤ s.params.fifoCap) : s.isFull = false ↔ s.count < s.params.fifoCap := by
  rw [← Bool.not_eq_true, isFull_iff]; omega

/-- COUNT when WR has advanced. -/
theorem count_advance_wr {s t : State} (h : InRange s) (hc : s.count < s.params.fifoCap) (hp : t.params = s.params)
    (hr : t.rd = s.rd) (hw : t.wr = s.advance s.wr) : t.count = s.count + 1 := by
  have h1 := h.wr; have h2 := h.rd
  have ht : InRange t := ⟨by rw [hp, hw]; exact advance_lt h1, by rw [hp, hr]; exact h2⟩
  rw [count_eq h] at hc ⊢
  rw [count_eq ht, hp, hr, hw, advance_toNat h1]
  split at hc <;> split <;> split <;> omega

/-- COUNT when RD has advanced. -/
theorem count_advance_rd {s t : State} (h : InRange s) (hne : s.wr ≠ s.rd) (hp : t.params = s.params)
    (hw : t.wr = s.wr) (hr : t.rd = s.advance s.rd) : t.count + 1 = s.count := by
  have h1 := h.wr; have h2 := h.rd
  have ht : InRange t := ⟨by rw [hp, hw]; exact h1, by rw [hp, hr]; exact advance_lt h2⟩
  have hne' : s.wr.toNat ≠ s.rd.toNat := fun e => hne (BitVec.toNat_inj.mp e)
  rw [count_eq h, count_eq ht, hp, hw, hr, advance_toNat h2]
  split <;> split <;> split <;> omega

/-- STORE below N appends to the queue (R91, R100, R102). -/
theorem queue_put {s t : State} (h : InRange s) (hm : Memory.wf s.fifoMem = true) (hc : s.count < s.params.fifoCap)
    {b : Byte} (hp : t.params = s.params) (hr : t.rd = s.rd) (hw : t.wr = s.advance s.wr)
    (hmem : t.fifoMem = Memory.write s.fifoMem (s.slot s.wr).val b) : t.queue = s.queue ++ [b] := by
  simp only [State.queue, count_advance_wr h hc hp hr hw, List.range_succ, List.map_append, List.map_cons,
    List.map_nil, hp, hr, hmem]
  congr 1
  · refine List.map_congr_left fun k hk => ?_
    rw [List.mem_range] at hk
    rw [read_write hm, if_neg (unread_slot_ne h hc hk)]
  · rw [index_count h, read_write hm]
    simp [State.slot]

/-- Taking a byte drops the head of the queue (R92, R95, R102). -/
theorem queue_get {s t : State} (h : InRange s) (hne : s.wr ≠ s.rd) (hp : t.params = s.params)
    (hw : t.wr = s.wr) (hr : t.rd = s.advance s.rd) (hmem : t.fifoMem = s.fifoMem) :
    s.queue = s.memRead (s.slot s.rd) :: t.queue := by
  have hcount := count_advance_rd h hne hp hw hr
  have h2 := h.rd
  simp only [State.queue, ← hcount, List.range_succ_eq_map, List.map_cons, List.map_map, hp, hmem]
  congr 1
  · simp only [State.memRead, State.slot, Nat.add_zero]
    rw [Nat.mod_eq_of_lt h2]
  · refine List.map_congr_left fun k hk => ?_
    rw [List.mem_range] at hk
    have hk' : k + 1 < 2 * s.params.fifoCap := by have := count_lt h; omega
    simp only [Function.comp]
    congr 2
    rw [hr, index_eq h2 hk', index_eq (advance_lt h2) (by omega), advance_toNat h2]
    split <;> split <;> split <;> omega

/-- What a queue depends on. -/
theorem queue_congr {s t : State} (hp : t.params = s.params) (hw : t.wr = s.wr) (hr : t.rd = s.rd)
    (hmem : t.fifoMem = s.fifoMem) : t.queue = s.queue := by
  simp only [State.queue, State.count, hp, hw, hr, hmem]

/-- With equal indices the queue is empty (R98). -/
theorem queue_empty {s : State} (h : InRange s) (he : s.wr = s.rd) : s.queue = [] := by
  simp [State.queue, (count_eq_zero h).mpr he]

end Sys2Proof.Laws
end

