-- ==== Sys2Proof/Laws/Flags.lean ====
section
/-! SUPPORT. The laws of IF and IEN (R24 to R26): what a read gives after each write, flag by flag. -/

namespace Sys2Proof.Laws

open Sys2Proof.Machine

theorem and_flagBits_idem (v : BitVec 8) : v &&& flagBits &&& flagBits = v &&& flagBits := by
  rw [BitVec.and_assoc, BitVec.and_self]

theorem mask_and_flagBits (f : Flag) : f.mask &&& flagBits = f.mask := by cases f <;> decide

@[simp] theorem writeIF_readIF (s : State) (v : BitVec 8) : (s.writeIF v).readIF = v &&& flagBits :=
  and_flagBits_idem v

@[simp] theorem writeIEN_readIEN (s : State) (v : BitVec 8) : (s.writeIEN v).readIEN = v &&& flagBits :=
  and_flagBits_idem v

@[simp] theorem readIF_and_flagBits (s : State) : s.readIF &&& flagBits = s.readIF := and_flagBits_idem _

@[simp] theorem readIEN_and_flagBits (s : State) : s.readIEN &&& flagBits = s.readIEN := and_flagBits_idem _

/-- Raising a flag sets its bit and no other (R25). -/
@[simp] theorem setFlag_readIF (s : State) (f : Flag) : (s.setFlag f).readIF = s.readIF ||| f.mask := by
  simp only [State.setFlag, writeIF_readIF, BitVec.and_or_distrib_right, readIF_and_flagBits, mask_and_flagBits]

/-- The service engine's clear clears its bit and no other (R25). -/
@[simp] theorem clearFlag_readIF (s : State) (f : Flag) : (s.clearFlag f).readIF = s.readIF &&& ~~~ f.mask := by
  simp only [State.clearFlag, writeIF_readIF]
  rw [BitVec.and_assoc, BitVec.and_comm (~~~ f.mask), ← BitVec.and_assoc, readIF_and_flagBits]

theorem mask_getLsbD (f g : Flag) : f.mask.getLsbD g.bit.val = decide (g = f) := by
  cases f <;> cases g <;> decide

@[simp] theorem setFlag_flag (s : State) (f g : Flag) : (s.setFlag f).flag g = (s.flag g || decide (g = f)) := by
  simp [State.flag, mask_getLsbD]

@[simp] theorem clearFlag_flag (s : State) (f g : Flag) : (s.clearFlag f).flag g = (s.flag g && !decide (g = f)) := by
  have h : g.bit.val < 8 := Nat.lt_trans g.bit.isLt (by decide)
  simp only [State.flag, clearFlag_readIF, BitVec.getLsbD_and, BitVec.getLsbD_not, h, decide_true, Bool.true_and,
    mask_getLsbD]

/-- No flag bit beyond the six is ever read as 1 (R24, R47). -/
theorem readIF_reserved (s : State) : s.readIF.getLsbD 6 = false ∧ s.readIF.getLsbD 7 = false := by
  simp [State.readIF, flagBits]

end Sys2Proof.Laws
end

