-- ==== Sys2Proof/Laws/Ops.lean ====
section
/-! SUPPORT. What each shared operation can do, said once: later proofs cite these and do not unfold the operations. -/

namespace Sys2Proof.Laws

open Sys2Proof.Machine

/-! ### Issuing -/

theorem issuer_fg {s : State} : s.issuer = some .fg ↔ s.svState = .idle ∧ s.fgMicro = .none := by
  unfold State.issuer; split <;> simp_all

theorem issuer_cb {s : State} {k : CbKind} : s.issuer = some (.cb k) ↔ s.svState = .call ∧ s.cbKind = k := by
  unfold State.issuer; split <;> simp_all

theorem issuer_none {s : State} :
    s.issuer = none ↔ s.svState = .run ∨ (s.svState = .idle ∧ s.fgMicro ≠ .none) := by
  unfold State.issuer; split <;> simp_all

/-- A command for FG only: FG gets the rule, a callback the fault CB_ILLEGAL_OP (R156). -/
theorem issueFgOnly_next {s t : State} {w : Word} {rule : State} (h : s.issueFgOnly w rule = .next t) :
    (s.svState = .idle ∧ s.fgMicro = .none ∧ t = rule) ∨
    (s.svState = .call ∧ t = s.raiseFault (.cbIllegalOp w)) := by
  unfold State.issueFgOnly at h
  split at h
  · rename_i hi; cases h; exact .inl ⟨(issuer_fg.mp hi).1, (issuer_fg.mp hi).2, rfl⟩
  · rename_i hi; cases h; exact .inr ⟨(issuer_cb.mp hi).1, rfl⟩
  · cases h

/-- A data command: refused in LEADER, else its rule (R165). -/
theorem issueData_next {s t : State} {rule : Ctx → State} (h : s.issueData rule = .next t) :
    ∃ ctx, s.issuer = some ctx ∧
      ((s.role = .leader ∧ t = s.refuse .leaderPath) ∨ (s.role ≠ .leader ∧ t = rule ctx)) := by
  unfold State.issueData at h
  split at h
  · rename_i ctx hi
    split at h <;> rename_i hr <;> cases h
    · exact ⟨ctx, hi, .inl ⟨hr, rfl⟩⟩
    · exact ⟨ctx, hi, .inr ⟨hr, rfl⟩⟩
  · cases h

/-- A data command that is issued always gives a next state. -/
theorem issueData_issued {s : State} {rule : Ctx → State} {ctx : Ctx} (h : s.issuer = some ctx) :
    s.issueData rule = .next (if s.role = .leader then s.refuse .leaderPath else rule ctx) := by
  unfold State.issueData; rw [h]; dsimp only; split <;> rfl

/-! ### Bus, service engine, FIFO port -/

/-- A BUS step: the effect where R113 says E, nothing where it says I. -/
theorem admit_next {s t effect : State} {a : Admission} (h : s.admitSymbol a effect = .next t) :
    (a = .effect ∧ t = effect) ∨ (a = .ignored ∧ t = s) := by
  cases a <;> simp_all [State.admitSymbol]

/-- A service step (R144). -/
theorem serviceStep_next {s t : State} {f : Flag} {branch : State → State} (h : s.serviceStep f branch = .next t) :
    s.svState = .run ∧ t = branch { s.clearFlag f with svNext := f.bit.succ } := by
  unfold State.serviceStep at h
  split at h
  · rename_i hs; cases h; exact ⟨hs, rfl⟩
  · cases h
  · cases h

theorem inRxdatavBranch_iff {s : State} : s.inRxdatavBranch = true ↔ s.svState = .run ∧ s.svNext = 5 := by
  simp [State.inRxdatavBranch, Flag.bit]

theorem engineOp_next {s t : State} {op : State × FifoReply} (h : s.engineOp op = .next t) :
    (s.svState = .run ∧ s.svNext = 5) ∧ t = State.withReply op := by
  unfold State.engineOp at h
  split at h
  · rename_i hs; cases h; exact ⟨inRxdatavBranch_iff.mp hs, rfl⟩
  · cases h

/-! ### Front-end commands -/

/-- `fe_cmd(ACK)` (R128): nothing, or the address or byte acknowledged, or the queue's head sent. -/
theorem feCmdAck_cases (s : State) :
    s.feCmdAck = s ∨
    ((s.phase = .aholdW ∨ s.phase = .rxhold) ∧ s.feCmdAck = { s with busOut := s.busOut ++ [.ack], phase := .rx }) ∨
    (∃ b rest, s.phase = .aholdR ∧ s.txq = b :: rest ∧
      s.feCmdAck = { s with busOut := s.busOut ++ [.ack, .byte b], txq := rest, phase := .txbusy }) ∨
    (∃ b rest, s.phase = .txhold ∧ s.txq = b :: rest ∧
      s.feCmdAck = { s with busOut := s.busOut ++ [.byte b], txq := rest, phase := .txbusy }) := by
  unfold State.feCmdAck
  split
  · rename_i h; exact .inr (.inl ⟨.inl h, rfl⟩)
  · rename_i h; exact .inr (.inl ⟨.inr h, rfl⟩)
  · rename_i h
    split
    · exact .inl rfl
    · cases hq : s.txq with
      | nil => contradiction
      | cons b rest =>
        refine .inr (.inr (.inl ⟨b, rest, h, rfl, ?_⟩))
        simp [State.sendHead, State.emit, hq]
  · rename_i h
    cases hq : s.txq with
    | nil => exact .inl (by simp [State.sendHead, hq])
    | cons b rest => exact .inr (.inr (.inr ⟨b, rest, h, rfl, by simp [State.sendHead, State.emit, hq]⟩))
  all_goals exact .inl rfl

/-- `fe_cmd(NACK)` (R129). -/
theorem feCmdNack_cases (s : State) :
    s.feCmdNack = s ∨
    ((s.phase = .aholdW ∨ s.phase = .rxhold ∨ s.phase = .aholdR) ∧
      s.feCmdNack = { s with busOut := s.busOut ++ [.nack], phase := .nacked }) := by
  unfold State.feCmdNack
  split <;> first | exact .inl rfl | exact .inr ⟨by simp_all, rfl⟩

/-- CACK in TXBUSY (R118). -/
theorem acknowledged_cases (s : State) :
    (s.txq = [] ∧ s.acknowledged = { s.setFlag .ack with phase := .txhold }) ∨
    (∃ b rest, s.txq = b :: rest ∧
      s.acknowledged = { s.setFlag .ack with busOut := s.busOut ++ [.byte b], txq := rest, phase := .txbusy }) := by
  unfold State.acknowledged
  cases hq : s.txq with
  | nil => exact .inl ⟨rfl, by simp⟩
  | cons b rest => exact .inr ⟨b, rest, rfl, by simp [State.sendHead, State.emit, hq]⟩

/-! ### Callbacks -/

/-- `call` (R151, R153). -/
theorem callHandler_cases (s : State) (k : CbKind) (arg : Word) :
    ((s.handlerOf (s.registered k)).isSome = false ∧ s.callHandler k arg = s) ∨
    ((s.handlerOf (s.registered k)).isSome = true ∧
      s.callHandler k arg = { s with cbLog := s.cbLog ++ [k.entry arg], cbKind := k, cbHid := s.registered k, cbPc := 0,
                                     cbArg := arg, svState := .call }) := by
  unfold State.callHandler
  split
  · rename_i h; exact .inl ⟨by simp [h], rfl⟩
  · rename_i h; exact .inr ⟨by simp [h], rfl⟩

/-- HANDLERS has no entry (R153), in the words of the table. -/
theorem handlerOf_none {s : State} {h : Byte} :
    (s.handlerOf h).isSome = false ↔ h = 0 ∨ s.params.handlers.lookup h = none := by
  unfold State.handlerOf; split <;> simp_all

theorem handlerOf_some {s : State} {h : Byte} :
    (s.handlerOf h).isSome = true ↔ h ≠ 0 ∧ (s.params.handlers.lookup h).isSome = true := by
  unfold State.handlerOf; split <;> simp_all

/-! ### FIFO port -/

/-- STORE (R91). -/
theorem fifoPut_cases (s : State) (b : Byte) :
    (s.isFull = true ∧ s.fifoPut b = (s, .rejected)) ∨
    (s.isFull = false ∧
      s.fifoPut b = ({ s with fifoMem := Memory.write s.fifoMem (s.slot s.wr).val b, wr := s.advance s.wr }, .ok)) := by
  cases h : s.isFull
  · exact .inr ⟨rfl, by rw [fifoPut_ok h]; rfl⟩
  · exact .inl ⟨rfl, fifoPut_full h b⟩

/-- READ in one step (R92). -/
theorem fifoGet_cases (s : State) :
    (s.wr = s.rd ∧ s.fifoGet = (s, .empty)) ∨
    (s.wr ≠ s.rd ∧
      s.fifoGet = ({ s with rd := s.advance s.rd }, .byte (s.memRead (s.slot s.rd)))) := by
  unfold State.fifoGet
  split <;> simp_all

/-- The next step of a foreground READ (R93 to R95). -/
theorem fifoGetFg_cases (s : State) :
    (s.fgMicro = .none ∧ s.wr = s.rd ∧ s.fifoGetFg = (s, .empty)) ∨
    (s.fgMicro = .none ∧ s.wr ≠ s.rd ∧ s.fifoGetFg = ({ s with fgMicro := .open1 s.rd }, .pending)) ∨
    (∃ r, s.fgMicro = .open1 r ∧
      s.fifoGetFg = ({ s with fgMicro := .open2 r (s.memRead (s.slot r)) }, .pending)) ∨
    (∃ r b, s.fgMicro = .open2 r b ∧
      s.fifoGetFg = ({ s with rd := s.advance r, fgMicro := .none }, .byte b)) := by
  unfold State.fifoGetFg
  split
  · rename_i h
    split <;> rename_i hw
    · exact .inl ⟨h, hw, rfl⟩
    · exact .inr (.inl ⟨h, hw, rfl⟩)
  · rename_i r h; exact .inr (.inr (.inl ⟨r, h, rfl⟩))
  · rename_i r b h; exact .inr (.inr (.inr ⟨r, b, h, rfl⟩))

/-! ### Data commands -/

/-- WRITE outside LEADER (R169). -/
theorem writeRule_cases (s : State) (b : Byte) (ctx : Ctx) :
    (s.ftip = false ∧ s.writeRule b ctx = s.result ctx 0x0000) ∨
    (s.ftip = true ∧ ctx ≠ .cb .req ∧ s.writeRule b ctx = s.raiseFault (.writeContext (encode (.write b)) ctx)) ∨
    (s.ftip = true ∧ ctx = .cb .req ∧ s.txq.length < s.params.txDepth ∧
      s.writeRule b ctx = (State.feCmdAck { s with txq := s.txq ++ [b] }).result ctx 0x0001) ∨
    (s.ftip = true ∧ ctx = .cb .req ∧ ¬ s.txq.length < s.params.txDepth ∧
      s.writeRule b ctx = s.result ctx 0x0000) := by
  unfold State.writeRule
  split
  · rename_i h; exact .inl ⟨h, rfl⟩
  · rename_i h
    have h : s.ftip = true := by simpa using h
    split
    · rename_i hc; exact .inr (.inl ⟨h, hc, rfl⟩)
    · rename_i hc
      have hc : ctx = .cb .req := by simpa using hc
      split
      · rename_i ht; exact .inr (.inr (.inl ⟨h, hc, ht, rfl⟩))
      · rename_i ht; exact .inr (.inr (.inr ⟨h, hc, ht, rfl⟩))

/-- READ (R92 to R95, R104, R170), the steps of all contexts. -/
theorem execRead_next {s t : State} (h : execRead s = .next t) :
    (s.svState = .idle ∧ t = s.readRule .fg ∧ (s.fgMicro ≠ .none ∨ s.role ≠ .leader)) ∨
    (s.svState = .idle ∧ s.fgMicro = .none ∧ s.role = .leader ∧ t = s.refuse .leaderPath) ∨
    (s.svState = .call ∧ s.role = .leader ∧ t = s.refuse .leaderPath) ∨
    (s.svState = .call ∧ s.role ≠ .leader ∧ t = s.readRule (.cb s.cbKind)) := by
  unfold execRead at h
  split at h
  · rename_i hc
    cases h
    exact .inl ⟨hc.1, rfl, .inl (by simpa [State.consOpen] using hc.2)⟩
  · obtain ⟨ctx, hi, hr⟩ := issueData_next h
    cases ctx with
    | fg =>
      obtain ⟨h1, h2⟩ := issuer_fg.mp hi
      rcases hr with ⟨hl, rfl⟩ | ⟨hl, rfl⟩
      · exact .inr (.inl ⟨h1, h2, hl, rfl⟩)
      · exact .inl ⟨h1, rfl, .inr hl⟩
    | cb k =>
      obtain ⟨h1, rfl⟩ := issuer_cb.mp hi
      rcases hr with ⟨hl, rfl⟩ | ⟨hl, rfl⟩
      · exact .inr (.inr (.inl ⟨h1, hl, rfl⟩))
      · exact .inr (.inr (.inr ⟨h1, hl, rfl⟩))

/-- READ from a callback (R92, R104). -/
theorem readRule_cb_cases (s : State) (k : CbKind) :
    (s.fgMicro ≠ .none ∧ s.readRule (.cb k) = s.raiseFault (.consumerRace (encode .read))) ∨
    (s.fgMicro = .none ∧ s.wr = s.rd ∧ s.readRule (.cb k) = s.result (.cb k) noData) ∨
    (s.fgMicro = .none ∧ s.wr ≠ s.rd ∧
      s.readRule (.cb k) = State.result { s with rd := s.advance s.rd } (.cb k)
        (byteResult (s.memRead (s.slot s.rd)))) := by
  unfold State.readRule
  by_cases h : s.fgMicro = .none
  · rcases fifoGet_cases s with ⟨hw, e⟩ | ⟨hw, e⟩
    · exact .inr (.inl ⟨h, hw, by simp [State.consOpen, h, e, State.readResult]⟩)
    · exact .inr (.inr ⟨h, hw, by simp [State.consOpen, h, e, State.readResult]⟩)
  · exact .inl ⟨h, by simp [State.consOpen, h]⟩

/-- READ from the foreground (R93 to R95). -/
theorem readRule_fg_cases (s : State) :
    (s.fgMicro = .none ∧ s.wr = s.rd ∧ s.readRule .fg = s.result .fg noData) ∨
    (s.fgMicro = .none ∧ s.wr ≠ s.rd ∧ s.readRule .fg = { s with fgMicro := .open1 s.rd }) ∨
    (∃ r, s.fgMicro = .open1 r ∧
      s.readRule .fg = { s with fgMicro := .open2 r (s.memRead (s.slot r)) }) ∨
    (∃ r b, s.fgMicro = .open2 r b ∧
      s.readRule .fg = State.result { s with rd := s.advance r, fgMicro := .none } .fg (byteResult b)) := by
  unfold State.readRule
  rcases fifoGetFg_cases s with ⟨h, hw, e⟩ | ⟨h, hw, e⟩ | ⟨r, h, e⟩ | ⟨r, b, h, e⟩
  · exact .inl ⟨h, hw, by rw [e]; rfl⟩
  · exact .inr (.inl ⟨h, hw, by rw [e]; rfl⟩)
  · exact .inr (.inr (.inl ⟨r, h, by rw [e]; rfl⟩))
  · exact .inr (.inr (.inr ⟨r, b, h, by rw [e]; rfl⟩))

/-- `raise Fault` keeps the first reason and, where there was none, records the reason (R44, R190). -/
theorem raiseFault_of_none {s : State} (h : s.fault = none) (r : FaultRecord) :
    s.raiseFault r = { s with fault := some r } := by
  simp [State.raiseFault, h]

theorem raiseFault_of_some {s : State} {q : FaultRecord} (h : s.fault = some q) (r : FaultRecord) :
    s.raiseFault r = s := by
  obtain ⟨⟩ := s; simp_all [State.raiseFault]

theorem refuse_of_none {s : State} (h : s.refused = none) (r : RefusedReason) :
    s.refuse r = { s with refused := some r } := by
  simp [State.refuse, h]

theorem refuse_of_some {s : State} {q : RefusedReason} (h : s.refused = some q) (r : RefusedReason) :
    s.refuse r = s := by
  obtain ⟨⟩ := s; simp_all [State.refuse]

end Sys2Proof.Laws
end

