-- ==== Sys2Proof/Laws/Step.lean ====
section
/-! SUPPORT. What a step of each agent can be, said once (R197): an instruction run, or one of the sequencer's own steps. -/

namespace Sys2Proof.Laws

open Sys2Proof.Machine

/-- A step is the turn's, taken from a state with neither FAULT nor REFUSED set. -/
theorem step_next {s t : State} (h : step s = .next t) :
    s.fault = none ∧ s.refused = none ∧ s.takeTurn.agentStep s.nextTurn = .next t := by
  unfold step State.machineStep at h
  split at h
  · cases h
  · split at h
    · cases h
    · exact ⟨‹_›, ‹_›, h⟩

/-- From a live state the step is the turn's. -/
theorem step_live {s : State} (hf : s.fault = none) (hr : s.refused = none) :
    step s = s.takeTurn.agentStep s.nextTurn := by
  simp [step, State.machineStep, hf, hr]

theorem fgStep_next {s t : State} (h : s.fgStep = .next t) :
    s.svState = .idle ∧
      ((s.fgMicro ≠ .none ∧ exec .read s = .next t) ∨
       (s.fgMicro = .none ∧ ∃ w, s.fgWord = some w ∧ exec (decodeCmd w) s = .next t)) := by
  unfold State.fgStep at h
  split at h
  · refine ⟨‹_›, ?_⟩
    split at h
    · rename_i hc; exact .inl ⟨by simpa [State.consOpen] using hc, h⟩
    · rename_i hc
      split at h
      · exact .inr ⟨by simpa [State.consOpen] using hc, _, ‹_›, h⟩
      · cases h
  · cases h
  · cases h

theorem svcStep_next {s t : State} (h : s.svcStep = .next t) :
    (s.svState = .idle ∧ s.irq = true ∧ t = s.serviceEntry) ∨
    (s.svState = .run ∧ ∃ i, decodeFlags s.svcWord = .instr i ∧ exec i s = .next t) ∨
    (s.svState = .run ∧ (∃ e, decodeFlags s.svcWord = .rejected e) ∧ t = s.serviceExit) := by
  unfold State.svcStep at h
  split at h
  · split at h
    · cases h; exact .inl ⟨‹_›, ‹_›, rfl⟩
    · cases h
  · split at h
    · exact .inr (.inl ⟨‹_›, _, ‹_›, h⟩)
    · cases h; exact .inr (.inr ⟨‹_›, ⟨_, ‹_›⟩, rfl⟩)
  · cases h

theorem cbStep_next {s t : State} (h : s.cbStep = .next t) :
    s.svState = .call ∧
      ((∃ w, s.cbWord = some w ∧ exec (decodeCmd w) s = .next t) ∨ (s.cbWord = none ∧ t = s.callbackReturn)) := by
  unfold State.cbStep at h
  split at h
  · refine ⟨‹_›, ?_⟩
    split at h
    · exact .inl ⟨_, ‹_›, h⟩
    · cases h; exact .inr ⟨‹_›, rfl⟩
  · cases h
  · cases h

theorem busStep_next {s t : State} {w : Word} (h : s.busStep w = .next t) :
    ∃ i, decodeBus w = .instr i ∧ i.isInputSymbol = true ∧ exec i s = .next t := by
  unfold State.busStep at h
  split at h
  · split at h
    · exact ⟨_, ‹_›, ‹_›, h⟩
    · cases h
  · cases h

/-- The bits of the snapshot not yet considered (R144). -/
theorem svcWord_getLsbD (s : State) (j : Nat) (hj : j < 6) :
    s.svcWord.getLsbD j = (decide (s.svNext.val ≤ j) && s.svSnap.getLsbD j) := by
  have := s.svNext.isLt
  simp only [State.svcWord, BitVec.getLsbD_shiftLeft, BitVec.getLsbD_ushiftRight, BitVec.getLsbD_setWidth]
  by_cases hk : s.svNext.val ≤ j
  · have : s.svNext.val + (j - s.svNext.val) = j := by omega
    have h1 : j < 16 := by omega
    simp [hk, this, h1]
  · simp [hk]

/-- A word that selects a row has that row's bit (R82). -/
theorem decodeFlags_instr {w : Word} {i : Instr} (h : decodeFlags w = .instr i) :
    ∃ f : Flag, w.getLsbD f.bit.val = true ∧ i = (match f with
      | .arblost => Instr.ifArblost | .buserr => .ifBuserr | .sstop => .ifSstop
      | .addr => .ifAddr | .rxdatav => .ifRxdatav | .ack => .ifAck) := by
  unfold decodeFlags at h
  repeat' split at h
  · exact ⟨.arblost, by simpa [Flag.bit], by simpa using h.symm⟩
  · exact ⟨.buserr, by simpa [Flag.bit], by simpa using h.symm⟩
  · exact ⟨.sstop, by simpa [Flag.bit], by simpa using h.symm⟩
  · exact ⟨.addr, by simpa [Flag.bit], by simpa using h.symm⟩
  · exact ⟨.rxdatav, by simpa [Flag.bit], by simpa using h.symm⟩
  · exact ⟨.ack, by simpa [Flag.bit], by simpa using h.symm⟩
  · cases h

/-! ### Placed words: whose turn is next, and that the state is live (log 9) -/

section placed
variable (s : State) (a : AgentTurn) (w : Word)
@[simp] theorem withTurn_nextTurn : (s.withTurn a).nextTurn = a := rfl
@[simp] theorem withCommand_nextTurn : (s.withCommand w).nextTurn = .fg := rfl
@[simp] theorem withCommand_fault : (s.withCommand w).fault = none := rfl
@[simp] theorem withCommand_refused : (s.withCommand w).refused = none := rfl
@[simp] theorem withFlags_nextTurn : (s.withFlags w).nextTurn = .svc := rfl
@[simp] theorem withFlags_fault : (s.withFlags w).fault = none := rfl
@[simp] theorem withFlags_refused : (s.withFlags w).refused = none := rfl
@[simp] theorem withSymbol_nextTurn : (s.withSymbol w).nextTurn = .bus w := rfl
@[simp] theorem withSymbol_fault : (s.withSymbol w).fault = none := rfl
@[simp] theorem withSymbol_refused : (s.withSymbol w).refused = none := rfl
end placed

/-! ### No step is an internal row alone (R6) -/

theorem decodeCmd_not_internal (w : Word) : (decodeCmd w).isInternal = false := by
  unfold decodeCmd bare; repeat' split
  all_goals rfl

/-- Every step of an agent that gives a next state runs a command, a bus symbol or a service branch, or is the entry, the
exit or the return: never an output symbol, a front-end command or a FIFO port operation alone. -/
theorem agentStep_next {s t : State} {a : AgentTurn} (h : s.agentStep a = .next t) :
    (∃ i, i.isInternal = false ∧ exec i s = .next t) ∨
    (a = .svc ∧ s.svState = .idle ∧ s.irq = true ∧ t = s.serviceEntry) ∨
    (a = .svc ∧ s.svState = .run ∧ t = s.serviceExit) ∨
    (a = .cb ∧ s.svState = .call ∧ t = s.callbackReturn) := by
  cases a with
  | fg =>
    obtain ⟨_, ⟨_, hi⟩ | ⟨_, w, _, hi⟩⟩ := fgStep_next h
    · exact .inl ⟨_, rfl, hi⟩
    · exact .inl ⟨_, decodeCmd_not_internal w, hi⟩
  | svc =>
    obtain ⟨h1, h2, rfl⟩ | ⟨_, i, hd, hi⟩ | ⟨h1, _, rfl⟩ := svcStep_next h
    · exact .inr (.inl ⟨rfl, h1, h2, rfl⟩)
    · obtain ⟨f, _, rfl⟩ := decodeFlags_instr hd
      exact .inl ⟨_, by cases f <;> rfl, hi⟩
    · exact .inr (.inr (.inl ⟨rfl, h1, rfl⟩))
  | cb =>
    obtain ⟨h1, ⟨w, _, hi⟩ | ⟨_, rfl⟩⟩ := cbStep_next h
    · exact .inl ⟨_, decodeCmd_not_internal w, hi⟩
    · exact .inr (.inr (.inr ⟨rfl, h1, rfl⟩))
  | bus w =>
    obtain ⟨i, _, hs, hi⟩ := busStep_next h
    exact .inl ⟨i, by cases i <;> first | rfl | simp [Instr.isInputSymbol] at hs, hi⟩

end Sys2Proof.Laws
end

