-- ==== Sys2Proof/Laws/Exec.lean ====
section
/-! SUPPORT. What each row can do: if `exec` answers a next state, it is one of the states listed here. -/

namespace Sys2Proof.Laws

open Sys2Proof.Machine

/-- What `fe_cmd(ACK)` makes of a state (R128). -/
def AckEffect (s t : State) : Prop := t = s ∨
    ((s.phase = .aholdW ∨ s.phase = .rxhold) ∧ t = { s with busOut := s.busOut ++ [.ack], phase := .rx }) ∨
    (∃ b rest, s.phase = .aholdR ∧ s.txq = b :: rest ∧
      t = { s with busOut := s.busOut ++ [.ack, .byte b], txq := rest, phase := .txbusy }) ∨
    (∃ b rest, s.phase = .txhold ∧ s.txq = b :: rest ∧
      t = { s with busOut := s.busOut ++ [.byte b], txq := rest, phase := .txbusy })

/-- What `call(kind, arg)` makes of a state (R151, R153). -/
def CallEffect (s t : State) (k : CbKind) (arg : Word) : Prop :=
    ((s.handlerOf (s.registered k)).isSome = false ∧ t = s) ∨
    ((s.handlerOf (s.registered k)).isSome = true ∧
      t = { s with cbLog := s.cbLog ++ [k.entry arg], cbKind := k, cbHid := s.registered k, cbPc := 0,
                                     cbArg := arg, svState := .call })

/-- The next states of a row. -/
def Effect (s t : State) : Instr → Prop
  | .activateL => (s.svState = .idle ∧ s.fgMicro = .none ∧ ((s.role = .uninit ∧
        t = { s with role := .leader, fgRes := s.fgRes ++ [0], fgPc := s.fgPc + 1 }) ∨ (s.role ≠ .uninit ∧
            t = { s with fgRes := s.fgRes ++ [0], fgPc := s.fgPc + 1 }))) ∨ (s.svState = .call ∧
                t = s.raiseFault (.cbIllegalOp 0x1000))
  | .activateF a => (s.svState = .idle ∧ s.fgMicro = .none ∧ ((s.role = .uninit ∧
        t = { s with role := .follower, ownAddr := a, wr := 0, rd := 0, ifReg := 0, ien := 0x3F, ftip := false, txq := [], addressed := false, phase := .idle, fgRes := s.fgRes ++ [0], fgPc := s.fgPc + 1 }) ∨ (s.role ≠ .uninit ∧ t = { s with fgRes := s.fgRes ++ [0], fgPc := s.fgPc + 1 }))) ∨ (s.svState = .call ∧ ∃ w, t = s.raiseFault (.cbIllegalOp w))
  | .deactivate => (s.svState = .idle ∧ s.fgMicro = .none ∧
        t = { s with role := .uninit, wr := 0, rd := 0, ifReg := 0, ien := 0, ftip := false, txq := [], addressed := false, phase := .off, fgRes := s.fgRes ++ [0], fgPc := s.fgPc + 1 }) ∨ (s.svState = .call ∧ ∃ w, t = s.raiseFault (.cbIllegalOp w))
  | .onReceive h => (s.svState = .idle ∧ s.fgMicro = .none ∧
        t = { s with regRx := h, fgRes := s.fgRes ++ [0], fgPc := s.fgPc + 1 }) ∨ (s.svState = .call ∧
            ∃ w, t = s.raiseFault (.cbIllegalOp w))
  | .onRequest h => (s.svState = .idle ∧ s.fgMicro = .none ∧
        t = { s with regReq := h, fgRes := s.fgRes ++ [0], fgPc := s.fgPc + 1 }) ∨ (s.svState = .call ∧
            ∃ w, t = s.raiseFault (.cbIllegalOp w))
  | .illegal w => ∃ ctx, s.issuer = some ctx ∧ t = s.raiseFault (.illegalCommand w ctx)
  | .write b => ∃ ctx, s.issuer = some ctx ∧ ((s.role = .leader ∧ t = s.refuse .leaderPath) ∨ (s.role ≠ .leader ∧
     ((s.ftip = false ∧ t = s.result ctx 0x0000) ∨
    (s.ftip = true ∧ ctx ≠ .cb .req ∧ t = s.raiseFault (.writeContext (encode (.write b)) ctx)) ∨
    (s.ftip = true ∧ s.svState = .call ∧ s.txq.length < s.params.txDepth ∧
       ∃ u, AckEffect { s with txq := s.txq ++ [b] } u ∧ t = { u with cbRes := u.cbRes ++ [1], cbPc := u.cbPc + 1 }) ∨
    (s.ftip = true ∧ s.svState = .call ∧ ¬ s.txq.length < s.params.txDepth ∧
        t = { s with cbRes := s.cbRes ++ [0], cbPc := s.cbPc + 1 }))))
  | .read =>
    (s.svState = .idle ∧ (s.fgMicro ≠ .none ∨ s.role ≠ .leader) ∧ (
    (s.fgMicro = .none ∧ s.wr = s.rd ∧ t = s.result .fg noData) ∨
    (s.fgMicro = .none ∧ s.wr ≠ s.rd ∧ t = { s with fgMicro := .open1 s.rd }) ∨
    (∃ r, s.fgMicro = .open1 r ∧
      t = { s with fgMicro := .open2 r (s.memRead (s.slot r)) }) ∨
    (∃ r b, s.fgMicro = .open2 r b ∧
      t = { s with rd := s.advance r, fgMicro := .none, fgRes := s.fgRes ++ [byteResult b], fgPc := s.fgPc + 1 }))) ∨
    (s.svState = .idle ∧ s.fgMicro = .none ∧ s.role = .leader ∧ t = s.refuse .leaderPath) ∨
    (s.svState = .call ∧ s.role = .leader ∧ t = s.refuse .leaderPath) ∨
    (s.svState = .call ∧ s.role ≠ .leader ∧ (
    (s.fgMicro ≠ .none ∧ t = s.raiseFault (.consumerRace 0x5000)) ∨
    (s.fgMicro = .none ∧ s.wr = s.rd ∧ t = { s with cbRes := s.cbRes ++ [noData], cbPc := s.cbPc + 1 }) ∨
    (s.fgMicro = .none ∧ s.wr ≠ s.rd ∧
      t = { s with rd := s.advance s.rd, cbRes := s.cbRes ++ [byteResult (s.memRead (s.slot s.rd))], cbPc := s.cbPc + 1 })))
  | .available => ∃ ctx, s.issuer = some ctx ∧ ((s.role = .leader ∧ t = s.refuse .leaderPath) ∨ (s.role ≠ .leader ∧
      t = s.result ctx (countResult s.count)))
  | .startAddr a d => (s.phase = .off ∧ t = s) ∨ ((s.phase = .idle ∨ s.phase = .rx ∨ s.phase = .nacked) ∧
      ((a = s.ownAddr ∧ t = { s.setFlag .addr with addrStatus := addressByte a d, addressed := true, txq := [], phase := (match d with | .read => .aholdR | .write => .aholdW) }) ∨ (a ≠ s.ownAddr ∧ t = { s with phase := .idle })))
  | .wbyte b => ((s.phase = .off ∨ s.phase = .idle ∨ s.phase = .nacked) ∧ t = s) ∨ (s.phase = .rx ∧
        t = { s.setFlag .rxdatav with rxData := b, phase := .rxhold })
  | .cack => ((s.phase = .off ∨ s.phase = .idle ∨ s.phase = .nacked ∨ s.phase = .rx) ∧ t = s) ∨ (s.phase = .txbusy ∧ (
    (s.txq = [] ∧ t = { s.setFlag .ack with phase := .txhold }) ∨
    (∃ b rest, s.txq = b :: rest ∧
      t = { s.setFlag .ack with busOut := s.busOut ++ [.byte b], txq := rest, phase := .txbusy })))
  | .cnack => ((s.phase = .off ∨ s.phase = .idle ∨ s.phase = .nacked ∨ s.phase = .rx) ∧ t = s) ∨ (s.phase = .txbusy ∧
        t = { s with phase := .nacked })
  | .stop => (s.phase = .off ∧ t = s) ∨ ((s.phase = .idle ∨ s.phase = .rx ∨ s.phase = .nacked) ∧
      ((s.addressed = true ∧ t = { s.setFlag .sstop with addressed := false, txq := [], phase := .idle }) ∨
       (s.addressed = false ∧ t = { s with addressed := false, txq := [], phase := .idle })))
  | .arblost => (s.phase = .off ∧ t = s) ∨ (s.phase ≠ .off ∧
        t = { s.setFlag .arblost with phase := .idle, addressed := false, txq := [] })
  | .buserr => (s.phase = .off ∧ t = s) ∨ (s.phase ≠ .off ∧
        t = { s.setFlag .buserr with phase := .idle, addressed := false, txq := [] })
  | .outAck => t = { s with busOut := s.busOut ++ [.ack] }
  | .outNack => t = { s with busOut := s.busOut ++ [.nack] }
  | .outByte b => t = { s with busOut := s.busOut ++ [.byte b] }
  | .ifArblost => s.svState = .run ∧ t = { s.clearFlag .arblost with svNext := 1, ftip := false }
  | .ifBuserr => s.svState = .run ∧ t = { s.clearFlag .buserr with svNext := 2, ftip := false }
  | .ifSstop => s.svState = .run ∧ t = { s.clearFlag .sstop with svNext := 3, ftip := false }
  | .ifAddr => s.svState = .run ∧ (AckEffect { s.clearFlag .addr with svNext := 4, ftip := true } t ∨
        CallEffect { s.clearFlag .addr with svNext := 4, ftip := true } t .req 0)
  | .ifRxdatav => s.svState = .run ∧
     ((s.isFull = true ∧ (t = { s.clearFlag .rxdatav with svNext := 5 } ∨ ((s.phase = .aholdW ∨ s.phase = .rxhold ∨
         s.phase = .aholdR) ∧
      t = { s.clearFlag .rxdatav with svNext := 5, busOut := s.busOut ++ [.nack], phase := .nacked }))) ∨
      (s.isFull = false ∧ ∃ u a, AckEffect { s.clearFlag .rxdatav with svNext := 5, fifoMem := Memory.write s.fifoMem (s.slot s.wr).val s.rxData, wr := s.advance s.wr } u ∧ CallEffect u t .rx a))
  | .ifAck => s.svState = .run ∧ CallEffect { s.clearFlag .ack with svNext := 6 } t .req 0
  | .feAck => AckEffect s t
  | .feNack => s.svState = .run ∧ s.svNext = 5 ∧ s.isFull = true ∧ (t = s ∨ ((s.phase = .aholdW ∨ s.phase = .rxhold ∨ s.phase = .aholdR) ∧
      t = { s with busOut := s.busOut ++ [.nack], phase := .nacked }))
  | .fifoStore => (s.svState = .run ∧ s.svNext = 5) ∧ ((s.isFull = true ∧ t = { s with fifoReply := some .rejected }) ∨
    (s.isFull = false ∧ t = { s with fifoMem := Memory.write s.fifoMem (s.slot s.wr).val s.rxData, wr := s.advance s.wr, fifoReply := some .ok }))
  | .fifoRead =>
    (s.svState = .idle ∧ (
    (s.fgMicro = .none ∧ s.wr = s.rd ∧ t = { s with fifoReply := some .empty }) ∨
    (s.fgMicro = .none ∧ s.wr ≠ s.rd ∧ t = { s with fgMicro := .open1 s.rd, fifoReply := some .pending }) ∨
    (∃ r, s.fgMicro = .open1 r ∧
      t = { s with fgMicro := .open2 r (s.memRead (s.slot r)), fifoReply := some .pending }) ∨
    (∃ r b, s.fgMicro = .open2 r b ∧
      t = { s with rd := s.advance r, fgMicro := .none, fifoReply := some (.byte b) }))) ∨
    (s.svState = .call ∧ (
    (s.fgMicro ≠ .none ∧ t = s.raiseFault (.consumerRace 0x5000)) ∨
    (s.fgMicro = .none ∧ s.wr = s.rd ∧ t = { s with fifoReply := some .empty }) ∨
    (s.fgMicro = .none ∧ s.wr ≠ s.rd ∧
      t = { s with rd := s.advance s.rd, fifoReply := some (.byte (s.memRead (s.slot s.rd))) })))
  | .fifoAvailable => t = { s with fifoReply := some (.count s.count) }
  | .fifoIsfull => (s.svState = .run ∧ s.svNext = 5) ∧ t = { s with fifoReply := some (.full s.isFull) }
  | .fifoClear => s.svState = .idle ∧ s.fgMicro = .none ∧ t = { s with wr := 0, rd := 0, fifoReply := some .done }

theorem exec_next (i : Instr) (s t : State) (h : exec i s = .next t) : Effect s t i := by
  cases i <;> simp only [exec] at h <;> simp only [Effect]
  case activateL =>
    rcases issueFgOnly_next h with ⟨a, b, rfl⟩ | ⟨a, rfl⟩
    · left; refine ⟨a, b, ?_⟩; by_cases hr : s.role = .uninit <;> simp [hr, State.result]
    · right; exact ⟨a, rfl⟩
  case activateF addr =>
    rcases issueFgOnly_next h with ⟨a, b, rfl⟩ | ⟨a, rfl⟩
    · left; refine ⟨a, b, ?_⟩; by_cases hr : s.role = .uninit <;> (simp [hr, State.result, State.activate]; try decide)
    · right; exact ⟨a, _, rfl⟩
  case deactivate =>
    rcases issueFgOnly_next h with ⟨a, b, rfl⟩ | ⟨a, rfl⟩
    · left; exact ⟨a, b, by simp [State.result, State.deactivate]⟩
    · right; exact ⟨a, _, rfl⟩
  case onReceive =>
    rcases issueFgOnly_next h with ⟨a, b, rfl⟩ | ⟨a, rfl⟩
    · left; exact ⟨a, b, rfl⟩
    · right; exact ⟨a, _, rfl⟩
  case onRequest =>
    rcases issueFgOnly_next h with ⟨a, b, rfl⟩ | ⟨a, rfl⟩
    · left; exact ⟨a, b, rfl⟩
    · right; exact ⟨a, _, rfl⟩
  case illegal w =>
    unfold execIllegal at h; split at h
    · cases h; exact ⟨_, ‹_›, rfl⟩
    · cases h
  case write b =>
    obtain ⟨ctx, hi, h⟩ := issueData_next h
    refine ⟨ctx, hi, ?_⟩
    rcases h with h | ⟨hr, rfl⟩
    · exact .inl h
    · right; refine ⟨hr, ?_⟩
      rcases writeRule_cases s b ctx with h | h | ⟨h1, rfl, h3, h4⟩ | ⟨h1, rfl, h3, h4⟩
      · exact .inl h
      · exact .inr (.inl h)
      · right; right; left; exact ⟨h1, (issuer_cb.mp hi).1, h3, _, feCmdAck_cases _, h4⟩
      · right; right; right; exact ⟨h1, (issuer_cb.mp hi).1, h3, h4⟩
  case read =>
    rcases execRead_next h with ⟨h1, rfl, h2⟩ | h | h | ⟨h1, h2, rfl⟩
    · left; exact ⟨h1, h2, readRule_fg_cases s⟩
    · exact .inr (.inl h)
    · exact .inr (.inr (.inl h))
    · right; right; right; exact ⟨h1, h2, readRule_cb_cases s _⟩
  case available =>
    exact issueData_next h
  case startAddr a d =>
    rcases admit_next h with ⟨h1, rfl⟩ | ⟨h1, rfl⟩
    · right
      refine ⟨by cases hp : s.phase <;> simp_all [Phase.admitsStartStop], ?_⟩
      by_cases ha : a = s.ownAddr
      · left; refine ⟨ha, ?_⟩; simp only [State.startAddr, ha, if_true]; rfl
      · right; refine ⟨ha, ?_⟩; simp only [State.startAddr, ha, if_false]
    · left; refine ⟨by cases hp : t.phase <;> simp_all [Phase.admitsStartStop], rfl⟩
  case wbyte b =>
    rcases admit_next h with ⟨h1, rfl⟩ | ⟨h1, rfl⟩
    · right
      refine ⟨by cases hp : s.phase <;> simp_all [Phase.admitsWbyte], rfl⟩
    · left; refine ⟨by cases hp : t.phase <;> simp_all [Phase.admitsWbyte], rfl⟩
  case cack =>
    rcases admit_next h with ⟨h1, rfl⟩ | ⟨h1, rfl⟩
    · right
      refine ⟨by cases hp : s.phase <;> simp_all [Phase.admitsAnswer], acknowledged_cases s⟩
    · left; refine ⟨by cases hp : t.phase <;> simp_all [Phase.admitsAnswer], rfl⟩
  case cnack =>
    rcases admit_next h with ⟨h1, rfl⟩ | ⟨h1, rfl⟩
    · right
      refine ⟨by cases hp : s.phase <;> simp_all [Phase.admitsAnswer], rfl⟩
    · left; refine ⟨by cases hp : t.phase <;> simp_all [Phase.admitsAnswer], rfl⟩
  case stop =>
    rcases admit_next h with ⟨h1, rfl⟩ | ⟨h1, rfl⟩
    · right
      refine ⟨by cases hp : s.phase <;> simp_all [Phase.admitsStartStop], ?_⟩
      cases ha : s.addressed
      · right; exact ⟨rfl, rfl⟩
      · left; exact ⟨rfl, rfl⟩
    · left; refine ⟨by cases hp : t.phase <;> simp_all [Phase.admitsStartStop], rfl⟩
  case arblost =>
    rcases admit_next h with ⟨h1, rfl⟩ | ⟨h1, rfl⟩
    · right
      refine ⟨by cases hp : s.phase <;> simp_all [Phase.admitsFault], rfl⟩
    · left; refine ⟨by cases hp : t.phase <;> simp_all [Phase.admitsFault], rfl⟩
  case buserr =>
    rcases admit_next h with ⟨h1, rfl⟩ | ⟨h1, rfl⟩
    · right
      refine ⟨by cases hp : s.phase <;> simp_all [Phase.admitsFault], rfl⟩
    · left; refine ⟨by cases hp : t.phase <;> simp_all [Phase.admitsFault], rfl⟩
  case outAck => cases h; rfl
  case outNack => cases h; rfl
  case outByte => cases h; rfl
  case ifArblost => exact serviceStep_next h
  case ifBuserr => exact serviceStep_next h
  case ifSstop => exact serviceStep_next h
  case ifAddr =>
    obtain ⟨h1, rfl⟩ := serviceStep_next h
    refine ⟨h1, ?_⟩
    unfold State.addrBranch; dsimp only; split
    · right; exact callHandler_cases _ _ _
    · left; exact feCmdAck_cases _
  case ifRxdatav =>
    obtain ⟨h1, rfl⟩ := serviceStep_next h
    refine ⟨h1, ?_⟩
    generalize hu : ({ s.clearFlag .rxdatav with svNext := Flag.rxdatav.bit.succ } : State) = u
    have hfu : u.isFull = s.isFull := by rw [← hu]; rfl
    unfold State.rxdatavBranch
    cases hf : s.isFull
    · right
      rw [hf] at hfu
      simp only [hfu, Bool.false_eq_true, if_false]
      refine ⟨by trivial, _, _, ?_, callHandler_cases _ _ _⟩
      rw [fifoPut_ok hfu, ← hu]
      exact feCmdAck_cases _
    · left
      rw [hf] at hfu
      simp only [hfu, if_true]
      subst hu
      exact ⟨by trivial, feCmdNack_cases _⟩
  case ifAck =>
    obtain ⟨h1, rfl⟩ := serviceStep_next h
    exact ⟨h1, callHandler_cases _ _ _⟩
  case feAck => cases h; exact feCmdAck_cases s
  case feNack =>
    unfold execFeNack at h; split at h
    · rename_i hc
      rw [Bool.and_eq_true] at hc
      obtain ⟨h1, h2⟩ := inRxdatavBranch_iff.mp hc.1
      cases h; exact ⟨h1, h2, hc.2, feCmdNack_cases s⟩
    · cases h
  case fifoStore =>
    obtain ⟨h1, rfl⟩ := engineOp_next h
    refine ⟨h1, ?_⟩
    rcases fifoPut_cases s s.rxData with ⟨a, b⟩ | ⟨a, b⟩
    · left; rw [b]; exact ⟨a, rfl⟩
    · right; rw [b]; exact ⟨a, rfl⟩
  case fifoRead =>
    unfold execFifoRead at h; split at h
    · cases h; left; refine ⟨‹_›, ?_⟩
      rcases fifoGetFg_cases s with ⟨a, b, e⟩ | ⟨a, b, e⟩ | ⟨r, a, e⟩ | ⟨r, b, a, e⟩ <;> rw [e]
      · exact .inl ⟨a, b, rfl⟩
      · exact .inr (.inl ⟨a, b, rfl⟩)
      · exact .inr (.inr (.inl ⟨_, a, rfl⟩))
      · exact .inr (.inr (.inr ⟨_, _, a, rfl⟩))
    · right; refine ⟨‹_›, ?_⟩
      split at h <;> rename_i hc <;> simp only [State.consOpen, bne_iff_ne, ne_eq, not_not] at hc <;> cases h
      · exact .inl ⟨hc, rfl⟩
      · right
        rcases fifoGet_cases s with ⟨a, e⟩ | ⟨a, e⟩ <;> rw [e]
        · exact .inl ⟨hc, a, rfl⟩
        · exact .inr ⟨hc, a, rfl⟩
    · cases h
  case fifoAvailable => unfold execFifoAvailable at h; split at h <;> cases h; rfl
  case fifoIsfull => exact engineOp_next h
  case fifoClear =>
    unfold execFifoClear at h; split at h <;> cases h
    rename_i hi; exact ⟨(issuer_fg.mp hi).1, (issuer_fg.mp hi).2, rfl⟩

end Sys2Proof.Laws
end

