-- ==== Sys2Proof/Laws/PerInstr.lean ====
section
/-! SUPPORT. For every row of the opcode table: its word fits the width of its word space (R70, R77, R82 to R84). -/

namespace Sys2Proof.Laws.EncodeFits

/-- The row's word has no bit beyond its space's width. -/
def Statement (i : Instr) : Prop := (encode i).toNat < 2 ^ i.format.width

/-- The 16-bit spaces hold every word. -/
theorem of_width (i : Instr) (h : i.format.width = 16) : Statement i := by
  unfold Statement; rw [h]; exact (encode i).isLt

theorem activateL : Statement .activateL := of_width _ rfl
theorem activateF (addr : Addr7) : Statement (.activateF addr) := of_width _ rfl
theorem deactivate : Statement .deactivate := of_width _ rfl
theorem write (b : Byte) : Statement (.write b) := of_width _ rfl
theorem read : Statement .read := of_width _ rfl
theorem available : Statement .available := of_width _ rfl
theorem onReceive (hid : Byte) : Statement (.onReceive hid) := of_width _ rfl
theorem onRequest (hid : Byte) : Statement (.onRequest hid) := of_width _ rfl
theorem illegal (w : Word) : Statement (.illegal w) := of_width _ rfl
theorem startAddr (a : Addr7) (d : Dir) : Statement (.startAddr a d) := of_width _ rfl
theorem wbyte (b : Byte) : Statement (.wbyte b) := of_width _ rfl
theorem cack : Statement .cack := of_width _ rfl
theorem cnack : Statement .cnack := of_width _ rfl
theorem stop : Statement .stop := of_width _ rfl
theorem arblost : Statement .arblost := of_width _ rfl
theorem buserr : Statement .buserr := of_width _ rfl
theorem outAck : Statement .outAck := of_width _ rfl
theorem outNack : Statement .outNack := of_width _ rfl
theorem outByte (b : Byte) : Statement (.outByte b) := of_width _ rfl
theorem ifArblost : Statement .ifArblost := by unfold Statement; decide
theorem ifBuserr : Statement .ifBuserr := by unfold Statement; decide
theorem ifSstop : Statement .ifSstop := by unfold Statement; decide
theorem ifAddr : Statement .ifAddr := by unfold Statement; decide
theorem ifRxdatav : Statement .ifRxdatav := by unfold Statement; decide
theorem ifAck : Statement .ifAck := by unfold Statement; decide
theorem feAck : Statement .feAck := by unfold Statement; decide
theorem feNack : Statement .feNack := by unfold Statement; decide
theorem fifoStore : Statement .fifoStore := by unfold Statement; decide
theorem fifoRead : Statement .fifoRead := by unfold Statement; decide
theorem fifoAvailable : Statement .fifoAvailable := by unfold Statement; decide
theorem fifoIsfull : Statement .fifoIsfull := by unfold Statement; decide
theorem fifoClear : Statement .fifoClear := by unfold Statement; decide

end Sys2Proof.Laws.EncodeFits
end

