-- ==== Sys2Proof/Tests/Slice0.lean ====
section
/-! SUPPORT. The model's own tests: the check of well-formedness, words written out from the encodings of 30_encoding.md,
one step of each row against the vectors of 95_test_vectors.md (named in each comment), and for every obligation with
hypotheses a concrete state that meets them. -/

namespace Sys2Proof.Tests

open Sys2Proof Sys2Proof.Machine

/-! ### Small states -/

/-- N = 2, T = 1, the handlers H1, H2, H3 of the vectors. -/
def par : Params :=
  { capIx := 1, depthIx := 0, handlers := [(1, [0x6000]), (2, [0x405A]), (3, [])], fgProgram := [0x5000] }

/-- After reset. -/
def uninit : State := State.resetWith par [] []

/-- FOLLOWER at 0x20 in a phase. -/
def fol (p : Phase) : State :=
  { uninit with role := .follower, ownAddr := 0x20, ien := 0x3F, phase := p, addressed := p != .idle }

/-- The engine servicing `snap` from bit `next` on, IF the same. -/
def running (p : Phase) (snap : BitVec 6) (next : Fin 7) : State :=
  { fol p with svState := .run, svSnap := snap, svNext := next, ifReg := snap.setWidth 8, ftip := true }

/-- A callback of a kind running handler `hid`. -/
def calling (p : Phase) (k : CbKind) (hid : Byte) : State :=
  { fol p with svState := .call, cbKind := k, cbHid := hid, ftip := true, svSnap := 0x10, svNext := 5 }

/-- A FIFO with its indices and its two slots. -/
def withFifo (s : State) (wr rd : Word) (mem : List Host.Cell) : State := { s with wr := wr, rd := rd, fifoMem := mem }

/-- The next state, if there is one. -/
def next? : Out → Option State
  | .next t => some t
  | .fault _ => none
  | .refused _ => none

/-! ### Well-formedness: ILLEGAL holds illegal words only -/

theorem test_wellFormed_refuses :
    [0x1000#16, 0x2000, 0x207F, 0x3000, 0x4000, 0x40FF, 0x5000, 0x6000, 0x7000, 0x70FF, 0x8000, 0x80FF].map
      (fun w => (Instr.illegal w).wellFormed) = List.replicate 12 false := by decide

/-- One word of each way a word can be illegal (R72). -/
theorem test_wellFormed_accepts :
    [0x0000#16, 0x0FFF, 0x9000, 0xF123, 0x1100, 0x4100, 0x8F00, 0x1001, 0x3010, 0x5001, 0x6001, 0x2080, 0x20A0].map
      (fun w => (Instr.illegal w).wellFormed) = List.replicate 13 true := by decide

/-! ### Decoding: words written out bit by bit -/

/-- CMD16, R70 and R71: op, rsv, imm8. -/
theorem test_decode_cmd16 :
    decode .cmd16 0b0001_0000_00000000 = .instr .activateL ∧
    decode .cmd16 0b0010_0000_0_0100001 = .instr (.activateF 0x21) ∧
    decode .cmd16 0b0011_0000_00000000 = .instr .deactivate ∧
    decode .cmd16 0b0100_0000_10100101 = .instr (.write 0xA5) ∧
    decode .cmd16 0b0101_0000_00000000 = .instr .read ∧
    decode .cmd16 0b0110_0000_00000000 = .instr .available ∧
    decode .cmd16 0b0111_0000_00000001 = .instr (.onReceive 1) ∧
    decode .cmd16 0b1000_0000_11111111 = .instr (.onRequest 255) ∧
    decode .cmd16 0b1001_0000_00000000 = .instr (.illegal 0x9000) ∧
    decode .cmd16 0b0010_0000_1_0100000 = .instr (.illegal 0x20A0) ∧
    decode .cmd16 0b0100_0001_00000000 = .instr (.illegal 0x4100) ∧
    decode .cmd16 0b0101_0000_00000001 = .instr (.illegal 0x5001) := by decide

/-- BUS16 input symbols, R77, R78, R81: kind, rsv, payload, the address in payload[7:1]. -/
theorem test_decode_bus16_in :
    decode .bus16 0b0001_0000_0100000_1 = .instr (.startAddr 0x20 .read) ∧
    decode .bus16 0b0001_0000_1010000_0 = .instr (.startAddr 0x50 .write) ∧
    decode .bus16 0b0001_0000_1111111_1 = .instr (.startAddr 0x7F .read) ∧
    decode .bus16 0b0010_0000_00010001 = .instr (.wbyte 0x11) ∧
    decode .bus16 0b0011_0000_00000000 = .instr .cack ∧
    decode .bus16 0b0100_0000_00000000 = .instr .cnack ∧
    decode .bus16 0b0101_0000_00000000 = .instr .stop ∧
    decode .bus16 0b0110_0000_00000000 = .instr .arblost ∧
    decode .bus16 0b0111_0000_00000000 = .instr .buserr := by decide

/-- BUS16 output symbols and reserved words, R79, R80. -/
theorem test_decode_bus16_out :
    decode .bus16 0b1000_0000_00000000 = .instr .outAck ∧
    decode .bus16 0b1001_0000_00000000 = .instr .outNack ∧
    decode .bus16 0b1010_0000_01011010 = .instr (.outByte 0x5A) ∧
    decode .bus16 0b1011_0000_00000000 = .rejected .reservedKind ∧
    decode .bus16 0b0001_0001_01000000 = .rejected .reservedField ∧
    decode .bus16 0b0101_0000_00000001 = .rejected .payloadNotZero := by decide

/-- IF8, FECMD2, FIFOOP3, R82 to R84. -/
theorem test_decode_internal :
    decode .if8 0b00000001 = .instr .ifArblost ∧ decode .if8 0b00000010 = .instr .ifBuserr ∧
    decode .if8 0b00000100 = .instr .ifSstop ∧ decode .if8 0b00001000 = .instr .ifAddr ∧
    decode .if8 0b00010000 = .instr .ifRxdatav ∧ decode .if8 0b00100000 = .instr .ifAck ∧
    decode .if8 0b00110000 = .instr .ifRxdatav ∧ decode .if8 0b11000000 = .rejected .noFlag ∧
    decode .fecmd2 0b01 = .instr .feAck ∧ decode .fecmd2 0b10 = .instr .feNack ∧
    decode .fecmd2 0b00 = .rejected .neverIssued ∧ decode .fecmd2 0b11 = .rejected .neverIssued ∧
    decode .fifoop3 0 = .instr .fifoStore ∧ decode .fifoop3 1 = .instr .fifoRead ∧
    decode .fifoop3 2 = .instr .fifoAvailable ∧ decode .fifoop3 3 = .instr .fifoIsfull ∧
    decode .fifoop3 4 = .instr .fifoClear ∧ decode .fifoop3 5 = .rejected .neverIssued := by decide

/-- The assembler's lines of P1, P4 and P5, and an operand out of range (R87, R88). -/
theorem test_assemble :
    assembleProgram [.onReceive 1, .activateF 0x20, .available, .read] = some [0x7001, 0x2020, 0x6000, 0x5000] ∧
    assembleProgram [.writeBytes [0x11, 0x22, 0x33]] = some [0x4011, 0x4022, 0x4033] ∧
    assembleProgram [.activateF 0x80] = none ∧
    BusLine.assemble (.startAddr 0x21 .read) = some 0x1043 ∧ BusLine.assemble (.wbyte 256) = none := by decide

/-- The element numbers run from 0 to 12 (R49) and read the codes of R85, R86. -/
theorem test_elements :
    Element.number .role = 0 ∧ Element.number .regReq = 12 ∧ (fol .txhold).element .phase = 7 ∧
    (fol .idle).element .role = 2 ∧ (fol .idle).element .ien = 0x3F := by decide

/-! ### Reset -/

/-- R46, and the memory's canonical form. -/
theorem test_reset :
    Memory.wf State.reset.fifoMem = true ∧ State.reset.role = .uninit ∧ State.reset.phase = .off ∧
    State.reset.readIF = 0 ∧ State.reset.readIEN = 0 ∧ State.reset.fgPc = 0 ∧ State.reset.fault = none := by decide

/-- A word of each space placed after reset is run by the next step, an internal row by the step that issues it. -/
theorem test_withFetchWord :
    (next? (step (State.reset.withFetchWord 16 0x2020))).map (·.ownAddr) = some 0x20 ∧
    (next? (step (State.reset.withFetchWord 16 0xA05A))).map (·.busOut) = some [.byte 0x5A] ∧
    (next? (step (State.reset.withFetchWord 16 0x9000))).map (·.busOut) = some [.nack] ∧
    (next? (step (State.reset.withFetchWord 8 0x08))).map (·.ftip) = some true ∧
    (next? (step (State.reset.withFetchWord 3 0))).map (·.wr) = some 1 ∧
    (next? (step (State.reset.withFetchWord 3 2))).map (·.fgRes) = some [0] := by decide

/-! ### One step of each row -/

/-- C-L1, C-L2. -/
theorem test_activateL :
    next? (exec .activateL uninit) = some { uninit with role := .leader, fgRes := [0], fgPc := 1 } ∧
    (next? (exec .activateL { uninit with role := .leader })).map (·.role) = some .leader := by decide

/-- C-F1, C-F2. -/
theorem test_activateF :
    next? (exec (.activateF 0x20) uninit) =
      some { uninit with role := .follower, ownAddr := 0x20, phase := .idle, ien := 0x3F, fgRes := [0], fgPc := 1 } ∧
    (next? (exec (.activateF 0x50) (fol .idle))).map (·.ownAddr) = some 0x20 := by decide

/-- C-D1. -/
theorem test_deactivate :
    next? (exec .deactivate
        { withFifo (fol .rxhold) 2 0 [(0, 0x11)] with ifReg := 0x10, regRx := 1, ftip := true }) =
      some { withFifo uninit 0 0 [(0, 0x11)] with ownAddr := 0x20, regRx := 1, fgRes := [0], fgPc := 1 } := by decide

/-- C-W5: the byte goes out at once. -/
theorem test_write_sends :
    next? (exec (.write 0x5A) (calling .aholdR .req 2)) =
      some { calling .aholdR .req 2 with busOut := [.ack, .byte 0x5A], phase := .txbusy, cbRes := [1], cbPc := 1 } := by
  decide

/-- C-W6 and C-W7, T = 1. -/
theorem test_write_queues_then_drops :
    (next? (exec (.write 0x5B) (calling .txbusy .req 2))).map (·.txq) = some [0x5B] ∧
    next? (exec (.write 0x5C) { calling .txbusy .req 2 with txq := [0x5B] }) =
      some { calling .txbusy .req 2 with txq := [0x5B], cbRes := [0], cbPc := 1 } := by decide

/-- C-R3: a byte 0xFF is not "no data"; F8: an empty FIFO is. -/
theorem test_read_callback :
    next? (exec .read (withFifo (calling .rx .rx 1) 1 0 [(0, 0xFF)])) =
      some { withFifo (calling .rx .rx 1) 1 1 [(0, 0xFF)] with cbRes := [0x00FF], cbPc := 1 } ∧
    (next? (exec .read (withFifo (calling .rx .rx 1) 3 3 []))).map (·.cbRes) = some [0xFFFF] := by decide

/-- The split foreground READ of L2.1, steps 1, 2 and 6. -/
theorem test_read_foreground :
    (next? (exec .read (withFifo (fol .rx) 1 0 [(0, 0x11)]))).map (·.fgMicro) = some (.open1 0) ∧
    (next? (exec .read { withFifo (fol .rx) 1 0 [(0, 0x11)] with fgMicro := .open1 0 })).map (·.fgMicro) =
      some (.open2 0 0x11) ∧
    next? (exec .read { withFifo (fol .rx) 2 0 [(0, 0x11), (1, 0x22)] with fgMicro := .open2 0 0x11 }) =
      some { withFifo (fol .rx) 2 1 [(0, 0x11), (1, 0x22)] with fgRes := [0x0011], fgPc := 1 } := by decide

/-- F6: the indices wrap; C-A3. -/
theorem test_available :
    (next? (exec .available (withFifo (fol .idle) 1 3 []))).map (·.fgRes) = some [2] ∧
    (next? (exec .available { uninit with role := .leader })).map (·.refused) = some (some .leaderPath) := by decide

/-- C-O1, C-O3. -/
theorem test_onReceive :
    next? (exec (.onReceive 1) uninit) = some { uninit with regRx := 1, fgRes := [0], fgPc := 1 } ∧
    (next? (exec (.onReceive 1) (calling .rx .rx 1))).map (·.fault) = some (some (.cbIllegalOp 0x7001)) := by decide

/-- C-O5. -/
theorem test_onRequest :
    next? (exec (.onRequest 3) { uninit with regReq := 2 }) =
      some { uninit with regReq := 3, fgRes := [0], fgPc := 1 } := by decide

/-- C-X5: an illegal word is reported before the context. -/
theorem test_illegal :
    next? (exec (decodeCmd 0x1001) (calling .rx .rx 1)) =
      some { calling .rx .rx 1 with fault := some (.illegalCommand 0x1001 (.cb .rx)) } := by decide

/-- B22: the top address, read. -/
theorem test_startAddr_match :
    next? (exec (.startAddr 0x7F .read) { fol .idle with ownAddr := 0x7F }) =
      some { fol .aholdR with ownAddr := 0x7F, addrStatus := 0xFF, ifReg := 0x08 } := by decide

/-- B4: another target's address leaves ADDRESSED; B21. -/
theorem test_startAddr_other :
    next? (exec (.startAddr 0x50 .write) (fol .rx)) = some { fol .rx with phase := .idle } ∧
    next? (exec .stop (fol .aholdR)) = none := by decide

/-- B6, B7. -/
theorem test_wbyte :
    next? (exec (.wbyte 0x11) (fol .rx)) = some { fol .rxhold with rxData := 0x11, ifReg := 0x10 } ∧
    next? (exec (.wbyte 0x11) (fol .idle)) = some (fol .idle) := by decide

/-- B9, B10. -/
theorem test_cack :
    next? (exec .cack (fol .txbusy)) = some { fol .txhold with ifReg := 0x20 } ∧
    next? (exec .cack { fol .txbusy with txq := [0x66] }) =
      some { fol .txbusy with ifReg := 0x20, busOut := [.byte 0x66] } := by decide

/-- B11: the queued byte is kept. -/
theorem test_cnack :
    next? (exec .cnack { fol .txbusy with txq := [0x66] }) = some { fol .nacked with txq := [0x66] } := by decide

/-- B14, B13. -/
theorem test_stop :
    next? (exec .stop { fol .nacked with txq := [0x66] }) = some { fol .idle with ifReg := 0x04 } ∧
    next? (exec .stop (fol .idle)) = some (fol .idle) := by decide

/-- B15, and a bit fault beside a pending byte. -/
theorem test_arblost :
    next? (exec .arblost { fol .rxhold with rxData := 0x22, ifReg := 0x10 }) =
      some { fol .idle with rxData := 0x22, ifReg := 0x11 } := by decide

/-- B16. -/
theorem test_buserr : next? (exec .buserr (fol .txhold)) = some { fol .idle with ifReg := 0x02 } := by decide

/-- R14, R42: oldest first. -/
theorem test_outSymbols :
    (next? (exec .outAck { fol .rx with busOut := [.nack] })).map (·.busOut) = some [.nack, .ack] ∧
    (next? (exec .outNack { fol .rx with busOut := [.ack] })).map (·.busOut) = some [.ack, .nack] ∧
    (next? (exec (.outByte 0x5A) { fol .rx with busOut := [.ack] })).map (·.busOut) = some [.ack, .byte 0x5A] := by decide

/-- S2, S3, S1's first branch. -/
theorem test_ifFaults_and_ifSstop :
    next? (exec .ifArblost (running .idle 0x01 0)) =
      some { running .idle 0x01 1 with ifReg := 0, ftip := false } ∧
    next? (exec .ifBuserr (running .idle 0x02 0)) =
      some { running .idle 0x02 2 with ifReg := 0, ftip := false } ∧
    next? (exec .ifSstop (running .aholdW 0x0C 0)) =
      some { running .aholdW 0x0C 3 with ifReg := 0x08, ftip := false } := by decide

/-- S1's second branch: a writing controller is acknowledged. -/
theorem test_ifAddr_write :
    next? (exec .ifAddr { running .aholdW 0x08 0 with addrStatus := 0x40, ftip := false }) =
      some { running .rx 0x08 4 with addrStatus := 0x40, ifReg := 0, busOut := [.ack] } := by decide

/-- S4: a reading one calls the handler. -/
theorem test_ifAddr_read :
    next? (exec .ifAddr { running .aholdR 0x08 0 with addrStatus := 0x41, regReq := 2, ftip := false }) =
      some { running .aholdR 0x08 4 with addrStatus := 0x41, regReq := 2, ifReg := 0, cbLog := [.req], cbKind := .req,
                                         cbHid := 2, svState := .call } := by decide

/-- S6. -/
theorem test_ifRxdatav_stores :
    next? (exec .ifRxdatav { running .rxhold 0x10 0 with rxData := 0x11, regRx := 1 }) =
      some { withFifo (running .rx 0x10 5) 1 0 [(0, 0x11)] with
               rxData := 0x11, regRx := 1, ifReg := 0, busOut := [.ack], cbLog := [.rx 1], cbHid := 1, cbArg := 1,
               svState := .call } := by decide

/-- S7. -/
theorem test_ifRxdatav_full :
    next? (exec .ifRxdatav (withFifo { running .rxhold 0x10 0 with rxData := 0x33, regRx := 1 } 2 0 [(0, 1), (1, 2)])) =
      some { withFifo (running .nacked 0x10 5) 2 0 [(0, 1), (1, 2)] with
               rxData := 0x33, regRx := 1, ifReg := 0, busOut := [.nack] } := by decide

/-- S8. -/
theorem test_ifAck :
    next? (exec .ifAck { running .txhold 0x20 0 with regReq := 2 }) =
      some { running .txhold 0x20 6 with regReq := 2, ifReg := 0, cbLog := [.req], cbKind := .req, cbHid := 2,
                                         svState := .call } := by decide

/-- K3, K4. -/
theorem test_feAck_aholdR :
    next? (exec .feAck (fol .aholdR)) = some (fol .aholdR) ∧
    next? (exec .feAck { fol .aholdR with txq := [0x5A] }) =
      some { fol .txbusy with busOut := [.ack, .byte 0x5A] } := by decide

/-- K2, K5. -/
theorem test_feAck_other_holds :
    next? (exec .feAck (fol .rxhold)) = some { fol .rx with busOut := [.ack] } ∧
    next? (exec .feAck { fol .txhold with txq := [0x77] }) = some { fol .txbusy with busOut := [.byte 0x77] } := by decide

/-- K9, K11. -/
theorem test_feNack :
    next? (exec .feNack (withFifo (running .rxhold 0x10 5) 2 0 [])) =
      some { withFifo (running .nacked 0x10 5) 2 0 [] with busOut := [.nack] } ∧
    next? (exec .feNack (withFifo (running .idle 0x10 5) 2 0 [])) = some (withFifo (running .idle 0x10 5) 2 0 []) := by
  decide

/-- F5: the write index wraps. -/
theorem test_fifoStore :
    next? (exec .fifoStore (withFifo { running .rxhold 0 5 with rxData := 0x7E } 3 2 [(0, 0x70)])) =
      some { withFifo { running .rxhold 0 5 with rxData := 0x7E } 0 2 [(0, 0x70), (1, 0x7E)] with
               fifoReply := some .ok } := by decide

/-- F15: the top of the index range, N = 32767. -/
theorem test_fifoStore_top :
    (next? (exec .fifoStore
        { running .rxhold 0 5 with
          params := { par with capIx := 32766 }, wr := 65533, rd := 32767, rxData := 0x5A })).map
      (fun t => (t.wr, t.fifoMem, t.count)) = some (0, [(32766, 0x5A)], 32767) := by decide

/-- F7, F8. -/
theorem test_fifoRead :
    next? (exec .fifoRead (withFifo (calling .rx .rx 1) 0 3 [(1, 0x44)])) =
      some { withFifo (calling .rx .rx 1) 0 0 [(1, 0x44)] with fifoReply := some (.byte 0x44) } ∧
    (next? (exec .fifoRead (withFifo (calling .rx .rx 1) 3 3 []))).map (·.fifoReply) = some (some .empty) := by decide

/-- F6, F4, F14, F13. -/
theorem test_fifoQueries_and_clear :
    (next? (exec .fifoAvailable (withFifo (fol .rx) 1 3 []))).map (·.fifoReply) = some (some (.count 2)) ∧
    (next? (exec .fifoIsfull (withFifo (running .rx 0 5) 2 0 []))).map (·.fifoReply) = some (some (.full true)) ∧
    (next? (exec .fifoIsfull (withFifo (running .rx 0 5) 2 1 []))).map (·.fifoReply) = some (some (.full false)) ∧
    next? (exec .fifoClear (withFifo (fol .rx) 3 1 [(0, 7)])) =
      some { withFifo (fol .rx) 0 0 [(0, 7)] with fifoReply := some .done } := by decide

/-- L2.3 S12 and S9's second entry: no request, no entry; an enabled pending flag is latched. -/
theorem test_entry :
    next? (State.agentStep { fol .idle with ien := 0, ifReg := 0x08 } .svc) = none ∧
    next? (State.agentStep { fol .idle with ifReg := 0x01 } .svc) =
      some { fol .idle with ifReg := 0x01, svSnap := 0x01, svState := .run } := by decide

/-! ### States that meet the hypotheses of the obligations -/

/-- A state with a turn first. -/
def turn (s : State) (a : AgentTurn) : State := s.withTurn a

/-- The invariant from decidable parts, for a state with no READ open. -/
theorem inv_of {s : State}
    (h : (s.role ≠ .follower →
        s.phase = .off ∧ s.readIEN = 0 ∧ s.readIF = 0 ∧ s.ftip = false ∧ s.txq = [] ∧ s.count = 0) ∧
      (s.role = .follower → s.phase ≠ .off ∧ s.readIEN = 0x3F) ∧
      s.count ≤ s.params.fifoCap ∧ s.txq.length ≤ s.params.txDepth ∧ (s.svState ≠ .idle → s.role = .follower) ∧
      (s.phase ∈ [Phase.aholdW, .aholdR, .rx, .rxhold, .txbusy, .txhold] → s.addressed = true) ∧
      s.wr.toNat < 2 * s.params.fifoCap ∧ s.rd.toNat < 2 * s.params.fifoCap ∧
      Memory.wf s.fifoMem = true ∧ (∀ c ∈ s.fifoMem, c.1 < s.params.fifoCap) ∧ s.fgMicro = .none ∧
      (s.svState = .idle → s.svSnap = 0 ∧ s.svNext = 0) ∧
      (s.svState = .call → (s.handlerOf s.cbHid).isSome = true) ∧ (s.phase = .off → s.addressed = false)) : Inv s := by
  obtain ⟨h1, h2, h3, h4, h5, h6, h7, h8, h9, h10, h11, h12, h13, h14⟩ := h
  exact ⟨⟨h1, h2, h3, h4, h5, h6⟩, h7, h8, ⟨h9, h10⟩, by simp [State.openReadSound, h11], h12, h13, h14⟩

theorem witness_DecodeOfEncodeIsTheInstruction :
    (Instr.illegal 0x9000).wellFormed = true ∧ (Instr.activateF 0x7F).wellFormed = true ∧
    Instr.ifAck.wellFormed = true ∧ Instr.fifoClear.wellFormed = true := by decide

theorem witness_DecodedWordsHaveOneMeaning :
    decode .bus16 0x10FF = .instr (.startAddr 0x7F .read) ∧ decode .if8 0x30 = .instr .ifRxdatav := by decide

/-- A word for each way to be illegal at its boundary, one for none, and an issuer without a fault. -/
theorem witness_IllegalCommandWordsAreExactlyThoseOfR72 :
    (0x0FFF#16).toNat / 4096 = 0 ∧ 9 ≤ (0x9000#16).toNat / 4096 ∧ (0x8100#16).toNat / 256 % 16 ≠ 0 ∧
    (0x6001#16).toNat % 256 ≠ 0 ∧ 128 ≤ (0x2080#16).toNat % 256 ∧ ¬ 128 ≤ (0x207F#16).toNat % 256 ∧
    (calling .rx .rx 1).issuer = some (.cb .rx) ∧ (calling .rx .rx 1).fault = none := by decide

theorem witness_ReservedBusWordsAreNeverPresented :
    (0x0FFF#16).toNat / 4096 = 0 ∧ 11 ≤ (0xB000#16).toNat / 4096 ∧ (0x1100#16).toNat / 256 % 16 ≠ 0 ∧
    (0x3001#16).toNat / 4096 = 3 ∧ (0x7001#16).toNat / 4096 = 7 ∧ (0x7001#16).toNat % 256 ≠ 0 := by decide

/-- Clause by clause. -/
theorem witness_AStepRunsTheDecodedInstruction :
    ((turn uninit .fg).nextTurn = .fg ∧ (turn uninit .fg).svState = .idle ∧ (turn uninit .fg).fgMicro = .none ∧
      (turn uninit .fg).params.fgProgram[(turn uninit .fg).fgPc]? = some 0x5000 ∧ uninit.fault = none ∧
      uninit.refused = none) ∧
    (({ turn (fol .rx) .fg with fgMicro := .open1 0 } : State).fgMicro ≠ .none) ∧
    ((turn (calling .rx .rx 1) .cb).nextTurn = .cb ∧ (calling .rx .rx 1).svState = .call ∧
      (calling .rx .rx 1).handlerOf 1 = some [0x6000] ∧ [0x6000#16][(calling .rx .rx 1).cbPc]? = some 0x6000) ∧
    ((turn (running .rxhold 0x10 0) .svc).nextTurn = .svc ∧ (running .rxhold 0x10 0).svState = .run ∧
      decode .if8 (running .rxhold 0x10 0).svcWord = .instr .ifRxdatav) ∧
    ((turn uninit (.bus 0x2011)).nextTurn = .bus 0x2011 ∧ decode .bus16 0x2011 = .instr (.wbyte 0x11) ∧
      (Instr.wbyte 0x11).isInputSymbol = true) ∧
    ((turn uninit (.bus 0x8000)).nextTurn = .bus 0x8000 ∧ decode .bus16 0x8000 = .instr .outAck ∧
      Instr.outAck.isInternal = true) ∧
    (next? (step (turn (calling .rx .rx 3) .cb))).map (·.svState) = some .run := by decide

theorem witness_AFetchWordIsRunByTheNextStep :
    decodeTableWord 16 0x2020 = some (.activateF 0x20) ∧ decodeTableWord 16 0xA05A = some (.outByte 0x5A) ∧
    decodeTableWord 8 0x20 = some .ifAck ∧ decode .bus16 0x8000 = .instr .outAck ∧
    decodeTableWord 16 0x9000 = some .outNack ∧ decodeTableWord 2 1 = some .feAck ∧ decodeTableWord 2 2 = some .feNack ∧
    decodeTableWord 3 0 = some .fifoStore ∧ decodeTableWord 3 1 = some .fifoRead ∧
    decodeTableWord 3 2 = some .fifoAvailable ∧ decodeTableWord 3 3 = some .fifoIsfull ∧
    decodeTableWord 3 4 = some .fifoClear := by decide

/-- Each agent with and without a step. -/
theorem witness_ExactlyTheEnabledStepsCanBeTaken :
    (turn uninit .fg).nextTurn = .fg ∧ Enabled uninit .fg ∧ Enabled { fol .idle with ifReg := 0x01 } .svc ∧
    Enabled (running .rx 0 6) .svc ∧ Enabled (calling .rx .rx 1) .cb ∧ Enabled (fol .txbusy) (.bus 0x3000) ∧
    ¬ Enabled (fol .rxhold) (.bus 0x2044) ∧ (running .rx 0 6).svState ≠ .idle := by
  unfold Enabled; decide

theorem witness_FaultsAndRefusalsAreTerminalAndSticky :
    ({ uninit with fault := some (.illegalCommand 0 .fg) } : State).fault = some (.illegalCommand 0 .fg) ∧
    (uninit.fault = none ∧ ({ uninit with refused := some .leaderPath } : State).refused = some .leaderPath) ∧
    step (turn uninit .fg) = exec .read (turn uninit .fg).takeTurn ∧
    exec (.illegal 0x9000) uninit = .next { uninit with fault := some (.illegalCommand 0x9000 .fg) } ∧
    exec .read { uninit with role := .leader } =
      .next { uninit with role := .leader, refused := some .leaderPath } :=
  ⟨rfl, ⟨rfl, rfl⟩, rfl, rfl, rfl⟩

theorem witness_OnlyBranchesAndTheSequencerChangeTheContext :
    (next? (exec .ifAck { running .txhold 0x20 0 with regReq := 2 })).map (·.svState) = some .call ∧
    (running .txhold 0x20 0).svState = .run := by decide

theorem witness_OnlyTheForegroundActsAfterReset : (Instr.startAddr 0x20 .write).isInputSymbol = true := by decide

theorem witness_TheInvariantHoldsAtReset : Memory.fits [(0, 0x55), (1, 0xAA)] par.fifoCap :=
  ⟨by decide, by decide⟩

/-- A full FIFO, a callback that reads from it. -/
theorem witness_EveryStepKeepsTheInvariant :
    Inv (turn (withFifo (calling .rx .rx 1) 2 0 [(0, 1), (1, 2)]) .cb) ∧
    (next? (step (turn (withFifo (calling .rx .rx 1) 2 0 [(0, 1), (1, 2)]) .cb))).map (·.cbRes) = some [2] :=
  ⟨inv_of (by decide), by decide⟩

theorem witness_EveryReachableStateMeetsR48 : Reachable uninit := .reset par [] [] ⟨by decide, by decide⟩

/-- The contexts of a command: FG in each role, both callbacks, no fault yet. -/
theorem witness_contexts :
    uninit.issuer = some .fg ∧ uninit.role = .uninit ∧ (fol .idle).issuer = some .fg ∧ (fol .idle).role ≠ .uninit ∧
    (fol .idle).role ≠ .leader ∧ ({ uninit with role := .leader } : State).issuer = some .fg ∧
    (calling .rx .rx 1).issuer = some (.cb .rx) ∧ (calling .rx .req 2).issuer = some (.cb .req) ∧
    (calling .rx .req 2).fault = none ∧ (0x01#8) ≠ 0 := by decide

theorem witness_ActivateLeaderTakesEffectOnlyInUninit :
    uninit.issuer = some .fg ∧ uninit.role = .uninit ∧ (fol .idle).issuer = some .fg ∧ (fol .idle).role ≠ .uninit ∧
    (calling .rx .rx 1).issuer = some (.cb .rx) ∧ (calling .rx .rx 1).fault = none ∧ (0xFF#8) ≠ 0 ∧
    Inv { uninit with role := .leader } :=
  ⟨by decide, by decide, by decide, by decide, by decide, by decide, by decide, inv_of (by decide)⟩

theorem witness_ActivateFollowerSetsUpOnlyFromUninit :
    uninit.issuer = some .fg ∧ uninit.role = .uninit ∧ (fol .idle).issuer = some .fg ∧ (fol .idle).role ≠ .uninit ∧
    (calling .rx .req 2).issuer = some (.cb .req) ∧ (calling .rx .req 2).fault = none := by decide

theorem witness_DeactivateResetsAllButWhatItKeeps :
    (fol .rxhold).issuer = some .fg ∧ (calling .rx .rx 1).issuer = some (.cb .rx) ∧ (calling .rx .rx 1).fault = none ∧
    (0x10#8) ≠ 0 ∧ (next? (exec .deactivate (fol .rxhold))).map (·.role) = some .uninit ∧
    (fol .rxhold).role ≠ .uninit := by decide

theorem witness_RegistrationReplacesTheHandlerId :
    ({ uninit with role := .leader } : State).issuer = some .fg ∧ (calling .rx .rx 1).issuer = some (.cb .rx) ∧
    (calling .rx .rx 1).fault = none := by decide

/-- The invariant in UNINIT, for the second clause of the WRITE statement. -/
theorem witness_inv_uninit : Inv uninit ∧ uninit.role = .uninit := ⟨inv_of (by decide), rfl⟩

/-- FTIP 0 from FG and from a callback, the wrong context, a full and a free TXQ, and the phases. -/
theorem witness_WriteFailsFaultsQueuesOrSends :
    (({ uninit with role := .leader } : State).issuer = some .fg ∧
      ({ uninit with role := .leader } : State).refused = none) ∧
    ((fol .idle).role ≠ .leader ∧ (fol .idle).issuer = some .fg ∧ (fol .idle).ftip = false) ∧
    (({ calling .idle .req 2 with ftip := false } : State).issuer = some (.cb .req)) ∧
    ((calling .rx .rx 1).issuer = some (.cb .rx) ∧ (calling .rx .rx 1).ftip = true ∧
      (calling .rx .rx 1).fault = none) ∧
    (({ fol .rx with ftip := true } : State).issuer = some .fg) ∧
    (({ calling .txbusy .req 2 with txq := [0x5B] } : State).txq.length = par.txDepth) ∧
    ((calling .txbusy .req 2).txq.length < par.txDepth ∧ (calling .txbusy .req 2).phase ∈ [Phase.off, .idle, .rx, .txbusy, .nacked]) ∧
    ((calling .rxhold .req 2).phase ∈ [Phase.aholdW, .rxhold]) ∧
    ((calling .aholdR .req 2).txq ++ [0x5A] = [0x5A] ∧ (calling .aholdR .req 2).phase = .aholdR) ∧
    ((calling .txhold .req 2).txq ++ [0x5A] = [0x5A] ∧ (calling .txhold .req 2).phase = .txhold) := by decide

/-- An open foreground READ, an empty FIFO, one byte at the last index. -/
theorem witness_CallbackReadTakesTheOldestByteInOneStep :
    (calling .rx .rx 1).issuer = some (.cb .rx) ∧ (calling .rx .rx 1).role ≠ .leader ∧
    ({ calling .rx .rx 1 with fgMicro := .open1 0 } : State).issuer = some (.cb .rx) ∧
    (calling .rx .rx 1).fgMicro = .none ∧ (calling .rx .rx 1).wr = (calling .rx .rx 1).rd ∧
    (withFifo (calling .rx .rx 1) 0 3 [(1, 0x44)]).wr ≠ (withFifo (calling .rx .rx 1) 0 3 [(1, 0x44)]).rd := by decide

theorem witness_ForegroundReadTakesThreeSteps :
    (fol .rx).svState = .idle ∧ (fol .rx).fgMicro = .none ∧ (fol .rx).role ≠ .leader ∧ (fol .rx).wr = (fol .rx).rd ∧
    (withFifo (fol .rx) 0 3 []).wr ≠ (withFifo (fol .rx) 0 3 []).rd ∧
    ({ fol .rx with fgMicro := .open1 3 } : State).fgMicro = .open1 3 ∧
    ({ fol .rx with fgMicro := .open2 3 0x11 } : State).fgMicro = .open2 3 0x11 := by decide

theorem witness_AvailableReturnsTheCount :
    (({ uninit with role := .leader } : State).issuer = some .fg ∧
      ({ uninit with role := .leader } : State).refused = none) ∧
    (fol .rx).role ≠ .leader ∧ (fol .rx).issuer = some .fg ∧ (calling .rx .rx 1).issuer = some (.cb .rx) ∧
    Inv (withFifo (fol .rx) 2 0 [(0, 1), (1, 2)]) ∧ uninit.role = .uninit :=
  ⟨by decide, by decide, by decide, by decide, inv_of (by decide), rfl⟩

theorem witness_DataCommandsAreRefusedInLeader :
    ({ uninit with role := .leader } : State).issuer = some .fg ∧
    ({ uninit with role := .leader } : State).refused = none := by decide

theorem witness_CallbacksMayIssueOnlyDataCommands :
    (calling .rx .rx 1).issuer = some (.cb .rx) ∧ (calling .rx .rx 1).fault = none ∧ (calling .rx .rx 1).role ≠ .leader ∧
    (calling .rx .rx 1).ftip = true := by decide

theorem witness_IllegalWordsFaultFromEveryContext :
    uninit.issuer = some .fg ∧ uninit.fault = none ∧ (calling .rx .req 2).issuer = some (.cb .req) := by decide

theorem witness_CommandsNeedAnIssuer :
    (running .rx 0x10 0).svState = .run ∧
    (({ fol .rx with fgMicro := .open1 0 } : State).svState = .idle ∧
      ({ fol .rx with fgMicro := .open1 0 } : State).fgMicro ≠ .none) := by decide

/-- `fol p` has phase p, for the hypotheses on the phase. -/
theorem witness_phases :
    ∀ p ∈ [Phase.off, .idle, .aholdW, .aholdR, .rx, .rxhold, .txbusy, .txhold, .nacked], (fol p).phase = p := by decide

theorem witness_SymbolsAreAdmittedAsTheTableSays :
    uninit.phase = .off ∧ (fol .idle).phase ∈ [Phase.idle, .nacked] ∧ (fol .nacked).phase ∈ [Phase.idle, .nacked] ∧
    (fol .rx).phase = .rx ∧ (fol .aholdW).phase.hold = true ∧ (fol .txhold).phase.hold = true ∧
    (fol .txbusy).phase = .txbusy ∧ (fol .rxhold).phase ≠ .off := by decide

theorem witness_StartAddrMatchesTheOwnAddress :
    (fol .nacked).phase ∈ [Phase.idle, .rx, .nacked] ∧ (fol .nacked).ownAddr = 0x20 ∧ (fol .rx).ownAddr ≠ 0x50 ∧
    (fol .rx).phase ∈ [Phase.idle, .rx, .nacked] ∧ (fol .rx).addressed = true := by decide

theorem witness_AByteArrivesOnlyInRx :
    (fol .rx).phase = .rx ∧ uninit.phase ∈ [Phase.idle, .nacked, .off] := by decide

theorem witness_ControllerAnswersMoveTheTransmitter :
    (fol .txbusy).phase = .txbusy ∧ (fol .txbusy).txq = [] ∧
    ({ fol .txbusy with txq := [0x66] } : State).txq = [0x66] ∧ (fol .rx).phase ∈ [Phase.idle, .rx, .nacked, .off] := by
  decide

theorem witness_StopEndsAnAddressedTransaction :
    (fol .nacked).phase ∈ [Phase.idle, .rx, .nacked] ∧ (fol .nacked).addressed = true ∧
    (fol .idle).phase ∈ [Phase.idle, .rx, .nacked] ∧ (fol .idle).addressed = false := by decide

theorem witness_BusFaultsAbortTheFrontEnd : (fol .rxhold).phase ≠ .off := by decide

theorem witness_FrontEndAckByPhase :
    (fol .rxhold).phase ∈ [Phase.aholdW, .rxhold] ∧
    (({ fol .aholdR with txq := [0x5A] } : State).phase = .aholdR ∧
      ({ fol .aholdR with txq := [0x5A] } : State).txq = [0x5A]) ∧
    (({ fol .txhold with txq := [0x77] } : State).phase = .txhold) ∧
    ((fol .txhold).phase ∈ [Phase.aholdR, .txhold] ∧ (fol .txhold).txq = []) ∧
    (fol .nacked).phase ∈ [Phase.off, .idle, .rx, .txbusy, .nacked] := by decide

theorem witness_FrontEndNackByPhase :
    (running .rxhold 0x10 5).svState = .run ∧ (running .rxhold 0x10 5).svNext = 5 ∧
    (withFifo (running .rxhold 0x10 5) 3 1 []).count = par.fifoCap ∧
    (running .aholdR 0x10 5).phase ∈ [Phase.aholdW, .rxhold, .aholdR] ∧
    (running .txhold 0x10 5).phase ∈ [Phase.off, .idle, .rx, .txbusy, .txhold, .nacked] ∧
    (fol .rx).svState ≠ .run ∧ (running .rx 0 6).svNext ≠ 5 ∧ (running .rx 0 5).count ≠ par.fifoCap := by decide

/-- A bus fault in a hold raises its flag; fe_cmd(NACK) ends one. -/
theorem witness_AHoldEndsOnlyByAnAnswerOrAFault :
    Inv (fol .rxhold) ∧ (fol .rxhold).phase.hold = true ∧
    exec .arblost (fol .rxhold) = .next ((fol .rxhold).busFault .arblost) ∧
    ((fol .rxhold).busFault .arblost).flag .arblost = true ∧ (fol .rxhold).flag .arblost = false ∧
    (next? (exec .feNack (withFifo (running .rxhold 0x10 5) 2 0 []))).map (·.phase) = some .nacked :=
  ⟨inv_of (by decide), rfl, rfl, by decide, by decide, by decide⟩

/-- A flag of each kind is raised, and one is cleared. -/
theorem witness_FlagsAreSetByTheBusAndClearedByTheirBranch :
    ((next? (exec .arblost (fol .rx))).map (·.flag .arblost) = some true ∧ (fol .rx).flag .arblost = false) ∧
    (next? (exec .buserr (fol .rx))).map (·.flag .buserr) = some true ∧
    (next? (exec .stop (fol .rx))).map (·.flag .sstop) = some true ∧
    (next? (exec (.startAddr 0x20 .write) (fol .rx))).map (·.flag .addr) = some true ∧
    (next? (exec (.wbyte 1) (fol .rx))).map (·.flag .rxdatav) = some true ∧
    (next? (exec .cack (fol .txbusy))).map (·.flag .ack) = some true ∧
    ((running .rx 0x3F 0).flag .arblost = true ∧
      (next? (exec .ifArblost (running .rx 0x3F 0))).map (·.flag .arblost) = some false) ∧
    (next? (exec .ifBuserr (running .rx 0x3F 0))).map (·.flag .buserr) = some false ∧
    (next? (exec .ifSstop (running .rx 0x3F 0))).map (·.flag .sstop) = some false ∧
    (next? (exec .ifAddr (running .rx 0x3F 0))).map (·.flag .addr) = some false ∧
    (next? (exec .ifRxdatav (running .rx 0x3F 0))).map (·.flag .rxdatav) = some false ∧
    (next? (exec .ifAck (running .rx 0x3F 0))).map (·.flag .ack) = some false := by decide

theorem witness_InterruptEntryLatchesTheSnapshot :
    (running .rx 0x3F 0).svState ≠ .idle ∧
    (fol .idle).svState = .idle ∧ ({ fol .idle with ifReg := 0x20 } : State).irq = true ∧
    (fol .idle).irq = false := by decide

/-- The first flag, the last one with all before it taken, and none left. -/
theorem witness_ServiceTakesTheLowestRemainingFlag :
    (running .rx 0x3F 0).svState = .run ∧
    ((running .rx 0x3F 0).svSnap.getLsbD Flag.arblost.bit.val = true ∧ (running .rx 0x3F 0).svNext.val ≤ 0) ∧
    ((running .rx 0x3F 5).svSnap.getLsbD Flag.ack.bit.val = true ∧
      (running .rx 0x3F 5).svNext.val ≤ Flag.ack.bit.val) ∧
    (∀ n < 6, (running .rx 0x0C 4).svNext.val ≤ n → (running .rx 0x0C 4).svSnap.getLsbD n = false) := by decide

theorem witness_FaultAndStopBranchesClearFtip : (running .idle 0x07 0).svState = .run := by decide

/-- Both directions, both phases, with no handler, an id without a program, and a handler. -/
theorem witness_AddressBranchAcknowledgesOrCalls :
    (running .aholdW 0x08 0).svState = .run ∧ (0x40#8).getLsbD 0 = false ∧ (0x41#8).getLsbD 0 = true ∧
    (running .aholdW 0x08 0).phase = .aholdW ∧ (running .idle 0x08 0).phase = .idle ∧
    (running .aholdR 0x08 0).regReq = 0 ∧ par.handlers.lookup 9 = none ∧ (par.handlers.lookup 2).isSome = true := by decide

theorem witness_ByteBranchStoresOrRefuses :
    Inv (withFifo (running .rxhold 0x10 0) 2 0 [(0, 1), (1, 2)]) ∧
    (withFifo (running .rxhold 0x10 0) 2 0 [(0, 1), (1, 2)]).count = par.fifoCap ∧
    Inv (withFifo { running .rxhold 0x10 0 with regRx := 1 } 3 2 [(0, 1)]) ∧
    (withFifo (running .rxhold 0x10 0) 3 2 [(0, 1)]).count < par.fifoCap ∧
    (par.handlers.lookup 1).isSome = true ∧ par.handlers.lookup 9 = none ∧ (running .rxhold 0x10 0).regRx = 0 ∧
    (running .rxhold 0x10 0).svState = .run :=
  ⟨inv_of (by decide), by decide, inv_of (by decide), by decide, by decide, by decide, by decide, by decide⟩

theorem witness_AcknowledgeBranchCalls :
    (running .txhold 0x20 0).svState = .run ∧ (running .txhold 0x20 0).regReq = 0 ∧ par.handlers.lookup 9 = none ∧
    (par.handlers.lookup 2).isSome = true := by decide

/-- An empty program returns at once; the first word of a program of one. -/
theorem witness_CallbacksReturnAtTheEndOfTheProgram :
    (calling .rx .rx 3).svState = .call ∧ (calling .rx .rx 3).handlerOf 3 = some [] ∧ (calling .rx .rx 3).cbPc = 0 ∧
    (calling .rx .rx 1).handlerOf 1 = some [0x6000] ∧ [0x6000#16][(calling .rx .rx 1).cbPc]? = some 0x6000 ∧
    (next? (State.agentStep (calling .rx .rx 1) .cb)).isSome = true := by decide

/-- The exit, and a service step. -/
theorem witness_InvocationsDoNotNestAndAreBounded :
    (next? (step (turn (running .rx 0x0C 4) .svc))).map (·.svState) = some .idle ∧
    (next? (step (turn (running .rx 0x3F 4) .svc))).map (·.svNext) = some 5 ∧
    (running .rx 0x3F 4).svState ≠ .idle := by decide

theorem witness_InterruptContextPreservesTheForeground :
    (turn { calling .rx .rx 1 with fgMicro := .open1 0 } .cb).nextTurn = .cb ∧ AgentTurn.cb ≠ .fg ∧
    (next? (step (turn { calling .rx .rx 1 with fgMicro := .open1 0 } .cb))).isSome = true := by decide

/-- A run that leaves an invocation and then sees ignored symbols for ever. -/
theorem witness_FairRunsReturnToTheForeground :
    let s := { running .idle 0 6 with fgPc := 1 }
    let r : Nat → State := fun n => if n = 0 then s else s.serviceExit
    let c : Nat → AgentTurn := fun n => if n = 0 then .svc else .bus 0x3000
    IsRun r c ∧ IsFair r c ∧ (r 0).svState = .run := by
  intro s r c
  have exit : s.svcStep = .next s.serviceExit := by
    have h : decodeFlags s.svcWord = .rejected .noFlag := by decide
    have hs : s.svState = .run := rfl
    simp only [State.svcStep, hs, h]
  refine ⟨fun n => ?_, fun a ha n h => ?_, rfl⟩
  · cases n with
    | zero => exact ⟨rfl, rfl, exit⟩
    | succ n => exact ⟨rfl, rfl, rfl⟩
  · have h1 := h (n + 1) (Nat.le_succ n)
    have e : r (n + 1) = s.serviceExit := rfl
    rw [e] at h1
    fin_cases ha <;> exact absurd h1 (by unfold Enabled; decide)

theorem witness_StoreWritesOneSlotOrRejects :
    (fol .rx).svState ≠ .run ∧ (running .rx 0 6).svNext ≠ 5 ∧ (running .rx 0 5).svState = .run ∧
    (running .rx 0 5).svNext = 5 ∧ (withFifo (running .rx 0 5) 3 1 []).count = par.fifoCap ∧
    (withFifo (running .rx 0 5) 3 2 [(0, 1)]).count ≠ par.fifoCap ∧ Memory.wf [(0, 0x01#8)] = true := by decide

theorem witness_ReadPortFollowsTheContext :
    (running .rx 0 6).svState = .run ∧
    (({ calling .rx .rx 1 with fgMicro := .open1 0 } : State).svState = .call ∧
      ({ calling .rx .rx 1 with fgMicro := .open1 0 } : State).fault = none) ∧
    ((calling .rx .rx 1).fgMicro = .none ∧ (withFifo (calling .rx .rx 1) 0 3 []).wr ≠ 3) ∧
    ((fol .rx).svState ≠ .run ∧ (fol .rx).wr = (fol .rx).rd) ∧
    ((fol .rx).svState = .idle ∧ (withFifo (fol .rx) 1 0 []).wr ≠ 0) ∧
    ({ fol .rx with fgMicro := .open1 3 } : State).fgMicro = .open1 3 ∧
    ({ fol .rx with fgMicro := .open2 3 0x11 } : State).fgMicro = .open2 3 0x11 := by decide

theorem witness_AvailableIsfullAndClearPorts :
    (fol .rx).issuer = some .fg ∧ (calling .rx .rx 1).issuer = some (.cb .rx) ∧ (running .rx 0 6).issuer = none ∧
    (running .rx 0 5).svState = .run ∧ (running .rx 0 5).svNext = 5 ∧ (fol .rx).svState ≠ .run ∧
    (running .rx 0 6).svNext ≠ 5 ∧ (calling .rx .rx 1).issuer ≠ some .fg := by decide

/-- A byte is stored, one is taken, and the FIFO is cleared. -/
theorem witness_TheFifoIsAQueue :
    (Inv (turn (withFifo (running .rxhold 0x10 0) 1 0 [(0, 1)]) .svc) ∧
      (next? (step (turn (withFifo (running .rxhold 0x10 0) 1 0 [(0, 1)]) .svc))).map (·.queue) = some [1, 0]) ∧
    (Inv (turn { withFifo (calling .rx .rx 1) 2 0 [(0, 1), (1, 2)] with
                 params := { par with handlers := [(1, [0x5000])] } } .cb) ∧
      (next? (step (turn { withFifo (calling .rx .rx 1) 2 0 [(0, 1), (1, 2)] with
                 params := { par with handlers := [(1, [0x5000])] } } .cb))).map (·.queue) = some [2]) ∧
    (Inv (turn { withFifo (fol .rx) 2 0 [(0, 1), (1, 2)] with params := { par with fgProgram := [0x3000] } } .fg) ∧
      (next? (step (turn { withFifo (fol .rx) 2 0 [(0, 1), (1, 2)] with
                 params := { par with fgProgram := [0x3000] } } .fg))).map (·.queue) = some []) :=
  ⟨⟨inv_of (by decide), by decide⟩, ⟨inv_of (by decide), by decide⟩, ⟨inv_of (by decide), by decide⟩⟩

/-- Each control register changes in some step. -/
theorem witness_ControlRegistersHaveOnlyTheirWriters :
    (next? (exec (.activateF 0x20) uninit)).map (fun t => (t.role, t.ownAddr, t.ien)) = some (.follower, 0x20, 0x3F) ∧
    (next? (exec (.onReceive 1) uninit)).map (·.regRx) = some 1 ∧
    (next? (exec (.onRequest 2) uninit)).map (·.regReq) = some 2 := by decide

theorem witness_DataRegistersAndFifoHaveOnlyTheirWriters :
    (next? (exec (.startAddr 0x20 .read) (fol .idle))).map (·.addrStatus) = some 0x41 ∧
    (next? (exec (.wbyte 7) (fol .rx))).map (·.rxData) = some 7 ∧
    (next? (exec .ifRxdatav { running .rxhold 0x10 0 with rxData := 7 })).map (fun t => (t.fifoMem, t.wr)) =
      some ([(0, 7)], 1) ∧
    (next? (exec .read (withFifo (calling .rx .rx 1) 1 0 [(0, 7)]))).map (·.rd) = some 1 ∧
    (next? (exec .read (withFifo (fol .rx) 1 0 [(0, 7)]))).map (·.fgMicro) = some (.open1 0) := by decide

theorem witness_TransactionStateHasOnlyItsWriters :
    (next? (exec .ifAddr { running .aholdW 0x08 0 with ftip := false })).map (·.ftip) = some true ∧
    (next? (exec .ifSstop (running .idle 0x04 0))).map (·.ftip) = some false ∧
    (next? (exec (.startAddr 0x20 .read) (fol .idle))).map (·.addressed) = some true ∧
    (next? (exec .stop (fol .rx))).map (·.addressed) = some false ∧
    (next? (exec .feAck { fol .txhold with txq := [0x77] })).map (·.txq) = some [] := by decide

theorem witness_ObservationListsOnlyGrow :
    (next? (step (turn (calling .aholdR .req 2) .cb))).map (fun t => (t.busOut, t.cbRes)) =
      some ([.ack, .byte 0x5A], [1]) ∧
    (next? (step (turn (withFifo (running .rxhold 0x10 0) 2 0 []) .svc))).map (·.busOut) = some [.nack] := by decide

/-- R224, R226 and R228, each at its flags. -/
theorem witness_ThreePendingPairsEndAsTheHazardRulesSay :
    (Inv { fol .aholdW with ifReg := 0x0C, addrStatus := 0x40, ftip := true } ∧
      ({ fol .aholdW with ifReg := 0x0C, addrStatus := 0x40 } : State).readIF = 0x0C ∧
      (fol .aholdW).readIEN = 0x3F ∧ (fol .aholdW).svState = .idle ∧ (0x40#8).getLsbD 0 = false) ∧
    (Inv { fol .idle with ifReg := 0x09, addrStatus := 0x40 } ∧
      ({ fol .idle with ifReg := 0x09, addrStatus := 0x40 } : State).readIF = 0x09) ∧
    (Inv { fol .idle with ifReg := 0x0A, addrStatus := 0x40 } ∧
      ({ fol .idle with ifReg := 0x0A, addrStatus := 0x40 } : State).readIF = 0x0A) ∧
    (Inv { withFifo (fol .idle) 1 0 [(0, 9)] with ifReg := 0x11, ftip := true } ∧
      ({ withFifo (fol .idle) 1 0 [(0, 9)] with ifReg := 0x11 } : State).readIF = 0x11 ∧
      (withFifo (fol .idle) 1 0 [(0, 9)]).count < par.fifoCap ∧ (fol .idle).regRx = 0) ∧
    (Inv { withFifo (fol .idle) 1 0 [(0, 9)] with ifReg := 0x12 } ∧
      ({ withFifo (fol .idle) 1 0 [(0, 9)] with ifReg := 0x12 } : State).readIF = 0x12) :=
  ⟨⟨inv_of (by decide), by decide, by decide, by decide, by decide⟩, ⟨inv_of (by decide), by decide⟩,
    ⟨inv_of (by decide), by decide⟩, ⟨inv_of (by decide), by decide, by decide, by decide⟩,
    ⟨inv_of (by decide), by decide⟩⟩

/-- P5's end state. -/
theorem witness_AnUnansweredReadIsStuck :
    ({ fol .aholdR with fgPc := 1, ftip := true } : State).phase ∈ [Phase.aholdR, .txhold] ∧
    ({ fol .aholdR with fgPc := 1, ftip := true } : State).svState = .idle ∧
    ({ fol .aholdR with fgPc := 1, ftip := true } : State).irq = false ∧ (fol .aholdR).fgMicro = .none ∧
    par.fgProgram.length ≤ 1 ∧ (fol .aholdR).fault = none ∧ (fol .aholdR).refused = none := by decide

theorem witness_InstancesAreIndependent :
    platformStep 1 [uninit, turn uninit (.bus 0x3000)] = some [uninit, { uninit with tick := 1 }] := by decide

end Sys2Proof.Tests
end

/-! PROOFS. The state and its registers (10_state.md): the reset values, the request IRQ, and what every row does to IF. -/

namespace Sys2Proof.Proofs

open Sys2Proof Sys2Proof.Machine Sys2Proof.Laws

/-! ### Reset (R46) -/

theorem readIF_eq_zero {s : State} (h : s.ifReg = 0) : s.readIF = 0 := by
  rw [State.readIF, h]; exact BitVec.zero_and

theorem readIEN_eq_zero {s : State} (h : s.ien = 0) : s.readIEN = 0 := by
  rw [State.readIEN, h]; exact BitVec.zero_and

@[simp] theorem resetWith_readIF (p : Params) (m : List Host.Cell) (q : List AgentTurn) :
    (State.resetWith p m q).readIF = 0 := readIF_eq_zero rfl

@[simp] theorem resetWith_readIEN (p : Params) (m : List Host.Cell) (q : List AgentTurn) :
    (State.resetWith p m q).readIEN = 0 := readIEN_eq_zero rfl

/-- A reset state is already what DEACTIVATE would leave (R168). -/
theorem resetWith_deactivate (p : Params) (m : List Host.Cell) (q : List AgentTurn) :
    (State.resetWith p m q).deactivate = State.resetWith p m q := rfl

/-- Settles O11: the reset values are those of `State.resetWith`, and DEACTIVATE writes each of its elements with the value
it has there. -/
theorem resetGivesEveryElementItsTableValue : Obligations.ResetGivesEveryElementItsTableValue := by
  refine ⟨⟨Params.atReset, [], [], rfl⟩, fun p m q => ⟨State.resetWith p m q, rfl, ?_⟩⟩
  simp only [resetWith_readIF, resetWith_readIEN, resetWith_deactivate]
  simp only [State.resetWith, and_self]

/-! ### The request (R24, R26, R27) -/

theorem flagBits_getLsbD_of_ge {j : Nat} (h : 6 ≤ j) : flagBits.getLsbD j = false := by
  have hlt : flagBits.toNat < 2 ^ j := Nat.lt_of_lt_of_le (by decide) (Nat.pow_le_pow_right Nat.two_pos h)
  exact Nat.testBit_lt_two_pow hlt

theorem flagBits_extract_reserved {v : BitVec 8} (hv : v &&& flagBits = v) : v.extractLsb' 6 2 = 0 := by
  rw [← hv]
  ext j hj
  simp [flagBits_getLsbD_of_ge (Nat.le_add_right 6 j)]

theorem exists_flag_bit (j : Fin 6) : ∃ f : Flag, f.bit = j :=
  match j with
  | 0 => ⟨.arblost, rfl⟩
  | 1 => ⟨.buserr, rfl⟩
  | 2 => ⟨.sstop, rfl⟩
  | 3 => ⟨.addr, rfl⟩
  | 4 => ⟨.rxdatav, rfl⟩
  | 5 => ⟨.ack, rfl⟩

/-- A register whose bits 7:6 are 0 is nonzero exactly when it has some flag's bit: every lower bit is a flag's. -/
theorem ne_zero_iff_exists_flag {v : BitVec 8} (hv : v &&& flagBits = v) :
    v ≠ 0 ↔ ∃ f : Flag, v.getLsbD f.bit.val = true := by
  constructor
  · intro hne
    by_contra hnone
    refine hne (BitVec.eq_of_getLsbD_eq fun j _ => ?_)
    refine Eq.trans ?_ BitVec.getLsbD_zero.symm
    by_cases hj : j < 6
    · obtain ⟨f, hf⟩ := exists_flag_bit ⟨j, hj⟩
      have hbit : v.getLsbD f.bit.val ≠ true := fun hb => hnone ⟨f, hb⟩
      simpa [hf] using hbit
    · rw [← hv, BitVec.getLsbD_and, flagBits_getLsbD_of_ge (Nat.not_lt.mp hj), Bool.and_false]
  · rintro ⟨f, hf⟩ rfl
    simp at hf

/-- Settles O38: IF and IEN hold flag bits only, so their conjunction is nonzero exactly at some flag's bit. -/
theorem theRequestIsAPendingEnabledFlag : Obligations.TheRequestIsAPendingEnabledFlag := by
  intro s
  refine ⟨?_, flagBits_extract_reserved (readIF_and_flagBits s), flagBits_extract_reserved (readIEN_and_flagBits s)⟩
  have hmask : s.readIF &&& s.readIEN &&& flagBits = s.readIF &&& s.readIEN := by
    rw [BitVec.and_assoc, readIEN_and_flagBits]
  rw [State.irq, bne_iff_ne, ne_zero_iff_exists_flag hmask]
  simp only [BitVec.getLsbD_and, Bool.and_eq_true]

/-! ### Who writes IF (R25) -/

/-- The row that raises a flag, with what the row says of its operand: ADDR needs a match, RXDATAV comes with its byte. -/
def RaisedBy (s t : State) (i : Instr) : Flag → Prop
  | .arblost => i = .arblost
  | .buserr => i = .buserr
  | .sstop => i = .stop
  | .addr => ∃ d, i = .startAddr s.ownAddr d
  | .rxdatav => ∃ b, i = .wbyte b ∧ t.rxData = b
  | .ack => i = .cack

/-- The row of a flag's service branch (R82). -/
def branchOf : Flag → Instr
  | .arblost => .ifArblost
  | .buserr => .ifBuserr
  | .sstop => .ifSstop
  | .addr => .ifAddr
  | .rxdatav => .ifRxdatav
  | .ack => .ifAck

/-- What a row can do to IF: nothing, one bit set by the flag's symbol, one bit cleared by the flag's branch, or all of it
cleared by one of the two role commands. -/
inductive IfChange (s t : State) (i : Instr) : Prop where
  | kept (h : t.readIF = s.readIF)
  | raised (f : Flag) (hi : RaisedBy s t i f) (h : t.readIF = (s.setFlag f).readIF)
  | cleared (f : Flag) (hi : i = branchOf f) (h : t.readIF = (s.clearFlag f).readIF)
  | zeroed (hi : i = .deactivate ∨ ∃ addr, i = .activateF addr) (h : t.readIF = 0)

theorem flag_eq_of_readIF_eq {s t : State} (h : t.readIF = s.readIF) (f : Flag) : t.flag f = s.flag f := by
  rw [State.flag, State.flag, h]

theorem readIF_of_ackEffect {s t : State} {v : BitVec 8} (h : AckEffect s t) (hs : s.readIF = v) : t.readIF = v := by
  rcases h with rfl | ⟨_, rfl⟩ | ⟨_, _, _, _, rfl⟩ | ⟨_, _, _, _, rfl⟩ <;> exact hs

theorem readIF_of_callEffect {s t : State} {k : CbKind} {arg : Word} {v : BitVec 8} (h : CallEffect s t k arg)
    (hs : s.readIF = v) : t.readIF = v := by
  rcases h with ⟨_, rfl⟩ | ⟨_, rfl⟩ <;> exact hs

theorem exec_deactivate_readIF {s t : State} (h : exec .deactivate s = .next t) :
    t.readIF = s.readIF ∨ t.readIF = 0 := by
  rcases exec_next _ _ _ h with ⟨_, _, rfl⟩ | ⟨_, _, rfl⟩
  · exact .inr (readIF_eq_zero rfl)
  · exact .inl rfl

theorem exec_activateF_readIF {s t : State} {a : Addr7} (h : exec (.activateF a) s = .next t) :
    t.readIF = s.readIF ∨ t.readIF = 0 := by
  rcases exec_next _ _ _ h with ⟨_, _, ⟨_, rfl⟩ | ⟨_, rfl⟩⟩ | ⟨_, _, rfl⟩
  · exact .inr (readIF_eq_zero rfl)
  · exact .inl rfl
  · exact .inl rfl

/-- R25 over the whole opcode table: in each case of a row's `Effect` the next state's IF is read off. -/
theorem exec_ifChange {i : Instr} {s t : State} (h : exec i s = .next t) : IfChange s t i := by
  have he := exec_next i s t h
  cases i
  -- the input symbols
  case startAddr a d =>
    rcases he with ⟨_, rfl⟩ | ⟨_, ⟨rfl, rfl⟩ | ⟨_, rfl⟩⟩
    · exact .kept rfl
    · exact .raised .addr ⟨d, rfl⟩ rfl
    · exact .kept rfl
  case wbyte b =>
    rcases he with ⟨_, rfl⟩ | ⟨_, rfl⟩
    · exact .kept rfl
    · exact .raised .rxdatav ⟨b, rfl, rfl⟩ rfl
  case cack =>
    rcases he with ⟨_, rfl⟩ | ⟨_, ⟨_, rfl⟩ | ⟨_, _, _, rfl⟩⟩
    · exact .kept rfl
    · exact .raised .ack rfl rfl
    · exact .raised .ack rfl rfl
  case cnack => rcases he with ⟨_, rfl⟩ | ⟨_, rfl⟩ <;> exact .kept rfl
  case stop =>
    rcases he with ⟨_, rfl⟩ | ⟨_, ⟨_, rfl⟩ | ⟨_, rfl⟩⟩
    · exact .kept rfl
    · exact .raised .sstop rfl rfl
    · exact .kept rfl
  case arblost =>
    rcases he with ⟨_, rfl⟩ | ⟨_, rfl⟩
    · exact .kept rfl
    · exact .raised .arblost rfl rfl
  case buserr =>
    rcases he with ⟨_, rfl⟩ | ⟨_, rfl⟩
    · exact .kept rfl
    · exact .raised .buserr rfl rfl
  -- the service branches
  case ifArblost => obtain ⟨_, rfl⟩ := he; exact .cleared .arblost rfl rfl
  case ifBuserr => obtain ⟨_, rfl⟩ := he; exact .cleared .buserr rfl rfl
  case ifSstop => obtain ⟨_, rfl⟩ := he; exact .cleared .sstop rfl rfl
  case ifAddr =>
    obtain ⟨_, hack | hcall⟩ := he
    · exact .cleared .addr rfl (readIF_of_ackEffect hack rfl)
    · exact .cleared .addr rfl (readIF_of_callEffect hcall rfl)
  case ifRxdatav =>
    obtain ⟨_, ⟨_, rfl | ⟨_, rfl⟩⟩ | ⟨_, u, arg, hack, hcall⟩⟩ := he
    · exact .cleared .rxdatav rfl rfl
    · exact .cleared .rxdatav rfl rfl
    · exact .cleared .rxdatav rfl (readIF_of_callEffect hcall (readIF_of_ackEffect hack rfl))
  case ifAck => obtain ⟨_, hcall⟩ := he; exact .cleared .ack rfl (readIF_of_callEffect hcall rfl)
  -- the role commands
  case deactivate => exact (exec_deactivate_readIF h).elim .kept (.zeroed (.inl rfl))
  case activateF a => exact (exec_activateF_readIF h).elim .kept (.zeroed (.inr ⟨a, rfl⟩))
  case activateL => rcases he with ⟨_, _, ⟨_, rfl⟩ | ⟨_, rfl⟩⟩ | ⟨_, rfl⟩ <;> exact .kept rfl
  -- the other commands
  case onReceive hid => rcases he with ⟨_, _, rfl⟩ | ⟨_, _, rfl⟩ <;> exact .kept rfl
  case onRequest hid => rcases he with ⟨_, _, rfl⟩ | ⟨_, _, rfl⟩ <;> exact .kept rfl
  case illegal w => obtain ⟨_, _, rfl⟩ := he; exact .kept rfl
  case available =>
    obtain ⟨ctx, _, ⟨_, rfl⟩ | ⟨_, rfl⟩⟩ := he
    · exact .kept rfl
    · exact .kept (result_readIF s ctx _)
  case write b =>
    obtain ⟨ctx, _, ⟨_, rfl⟩ | ⟨_, ⟨_, rfl⟩ | ⟨_, _, rfl⟩ | ⟨_, _, _, u, hack, rfl⟩ | ⟨_, _, _, rfl⟩⟩⟩ := he
    · exact .kept rfl
    · exact .kept (result_readIF s ctx _)
    · exact .kept rfl
    · have hu : u.readIF = s.readIF := readIF_of_ackEffect hack rfl
      exact .kept hu
    · exact .kept rfl
  case read =>
    rcases he with ⟨_, _, ⟨_, _, rfl⟩ | ⟨_, _, rfl⟩ | ⟨_, _, rfl⟩ | ⟨_, _, _, rfl⟩⟩ | ⟨_, _, _, rfl⟩ | ⟨_, _, rfl⟩ |
      ⟨_, _, ⟨_, rfl⟩ | ⟨_, _, rfl⟩ | ⟨_, _, rfl⟩⟩ <;> exact .kept rfl
  -- the rows that are issued inside other steps
  case outAck => cases he; exact .kept rfl
  case outNack => cases he; exact .kept rfl
  case outByte b => cases he; exact .kept rfl
  case feAck => exact .kept (readIF_of_ackEffect he rfl)
  case feNack => obtain ⟨_, _, _, rfl | ⟨_, rfl⟩⟩ := he <;> exact .kept rfl
  case fifoStore => obtain ⟨_, ⟨_, rfl⟩ | ⟨_, rfl⟩⟩ := he <;> exact .kept rfl
  case fifoRead =>
    rcases he with ⟨_, ⟨_, _, rfl⟩ | ⟨_, _, rfl⟩ | ⟨_, _, rfl⟩ | ⟨_, _, _, rfl⟩⟩ |
      ⟨_, ⟨_, rfl⟩ | ⟨_, _, rfl⟩ | ⟨_, _, rfl⟩⟩ <;> exact .kept rfl
  case fifoAvailable => cases he; exact .kept rfl
  case fifoIsfull => obtain ⟨_, rfl⟩ := he; exact .kept rfl
  case fifoClear => obtain ⟨_, _, rfl⟩ := he; exact .kept rfl

/-- A flag that is newly 1 was raised by its own symbol. -/
theorem raisedBy_of_flag_set {i : Instr} {s t : State} (h : exec i s = .next t) (f : Flag)
    (ht : t.flag f = true) (hs : s.flag f = false) : RaisedBy s t i f := by
  cases exec_ifChange h with
  | kept hIF => simp [flag_eq_of_readIF_eq hIF, hs] at ht
  | raised g hi hIF =>
    have hfg : f = g := by simpa [flag_eq_of_readIF_eq hIF, hs] using ht
    exact hfg ▸ hi
  | cleared g hi hIF => simp [flag_eq_of_readIF_eq hIF, hs] at ht
  | zeroed hi hIF => simp [State.flag, hIF] at ht

/-- A flag that is newly 0 was cleared by its own branch, or with the whole register. -/
theorem branchOf_of_flag_cleared {i : Instr} {s t : State} (h : exec i s = .next t)
    (hrole : i ≠ .deactivate ∧ ∀ addr, i ≠ .activateF addr) (f : Flag)
    (ht : t.flag f = false) (hs : s.flag f = true) : i = branchOf f := by
  cases exec_ifChange h with
  | kept hIF => simp [flag_eq_of_readIF_eq hIF, hs] at ht
  | raised g hi hIF => simp [flag_eq_of_readIF_eq hIF, hs] at ht
  | cleared g hi hIF =>
    have hfg : f = g := by simpa [flag_eq_of_readIF_eq hIF, hs] using ht
    exact hfg ▸ hi
  | zeroed hi hIF =>
    rcases hi with hi | ⟨addr, hi⟩
    · exact absurd hi hrole.1
    · exact absurd hi (hrole.2 addr)

/-- Settles O39: each clause is one flag's case of `raisedBy_of_flag_set` or `branchOf_of_flag_cleared`, and the last one is
the two role commands. -/
theorem flagsAreSetByTheBusAndClearedByTheirBranch : Obligations.FlagsAreSetByTheBusAndClearedByTheirBranch := by
  intro i s t h
  have hset := raisedBy_of_flag_set h
  refine ⟨⟨hset .arblost, hset .buserr, hset .sstop, hset .addr, hset .rxdatav, hset .ack⟩, fun hrole => ?_, ?_⟩
  · have hclear := branchOf_of_flag_cleared h hrole
    exact ⟨hclear .arblost, hclear .buserr, hclear .sstop, hclear .addr, hclear .rxdatav, hclear .ack⟩
  · rintro (rfl | ⟨addr, rfl⟩)
    · exact exec_deactivate_readIF h
    · exact exec_activateF_readIF h

end Sys2Proof.Proofs

/-! PROOFS. The encodings (30_encoding.md): which words spell no command (R72) and which spell no bus symbol (R80). -/

namespace Sys2Proof.Proofs

open Sys2Proof Sys2Proof.Machine Sys2Proof.Laws

/-! ### Command words (R71, R72) -/

/-- The four conditions of R72, on the fields of a word as numbers. -/
def IllegalFields (w : Word) : Prop :=
  (w.toNat / 4096 = 0 ∨ 9 ≤ w.toNat / 4096) ∨ w.toNat / 256 % 16 ≠ 0 ∨
  ((w.toNat / 4096 = 1 ∨ w.toNat / 4096 = 3 ∨ w.toNat / 4096 = 5 ∨ w.toNat / 4096 = 6) ∧ w.toNat % 256 ≠ 0) ∨
  (w.toNat / 4096 = 2 ∧ 128 ≤ w.toNat % 256)

/-- The eight commands of R71. -/
def LegalCommand (i : Instr) : Prop :=
  i ∈ [Instr.activateL, .deactivate, .read, .available] ∨
  (∃ addr, i = .activateF addr) ∨ (∃ b, i = .write b) ∨ (∃ hid, i = .onReceive hid) ∨ (∃ hid, i = .onRequest hid)

theorem bare_eq_illegal_iff {w : Word} {i : Instr} (hi : i ≠ .illegal w) :
    bare w i = .illegal w ↔ w.toNat % 256 ≠ 0 := by
  simp only [bare, ite_eq_right_iff, hi, imp_false, lowByte_eq_zero, ne_eq]

theorem bare_cases (w : Word) (i : Instr) : bare w i = .illegal w ∨ bare w i = i := by
  unfold bare; split
  · exact .inr rfl
  · exact .inl rfl

theorem decodeCmd_of_rsvField_ne_zero {w : Word} (h : rsvField w ≠ 0) : decodeCmd w = .illegal w := if_pos h

/-- By the reserved field, then by the opcode: R71's table has one row per opcode 1 to 8. -/
theorem decodeCmd_eq_illegal_iff (w : Word) : decodeCmd w = .illegal w ↔ IllegalFields w := by
  unfold IllegalFields
  by_cases hrsv : rsvField w = 0
  · have hrsv' := (rsvField_eq_zero w).mp hrsv
    unfold decodeCmd
    rw [if_neg (not_not.mpr hrsv), opField_toNat]
    split
    case h_2 hop => simp [hop, hrsv', ← lowByte_bit7]
    case h_1 hop | h_3 hop | h_5 hop | h_6 hop => simp [hop, hrsv', bare_eq_illegal_iff]
    case h_4 hop | h_7 hop | h_8 hop => simp [hop, hrsv']
    case h_9 =>
      have hop : w.toNat / 4096 = 0 ∨ 9 ≤ w.toNat / 4096 := by simp only [imp_false] at *; omega
      exact iff_of_true rfl (.inl hop)
  · have hrsv' := (rsvField_eq_zero w).not.mp hrsv
    exact iff_of_true (decodeCmd_of_rsvField_ne_zero hrsv) (.inr (.inl hrsv'))

/-- "The decode is total": a word is illegal or one of the eight commands. -/
theorem decodeCmd_cases (w : Word) : decodeCmd w = .illegal w ∨ LegalCommand (decodeCmd w) := by
  unfold decodeCmd
  split
  · exact .inl rfl
  · split
    case h_2 => split <;> simp [LegalCommand]
    case h_1 | h_3 | h_5 | h_6 =>
      refine (bare_cases w _).imp_right fun h => ?_
      rw [h]; simp [LegalCommand]
    all_goals simp [LegalCommand]

/-- An illegal word that is issued records itself and its context (R174, R191). -/
theorem exec_illegal_of_issuer {s : State} {ctx : Ctx} (w : Word) (hi : s.issuer = some ctx) (hf : s.fault = none) :
    exec (.illegal w) s = .next { s with fault := some (.illegalCommand w ctx) } := by
  show execIllegal w s = _
  rw [execIllegal, hi, ← raiseFault_of_none hf]

/-- Settles O3: R72's conditions are those under which a word decodes to ILLEGAL, and every other word is a command. -/
theorem illegalCommandWordsAreExactlyThoseOfR72 : Obligations.IllegalCommandWordsAreExactlyThoseOfR72 := by
  refine fun w => ⟨fun bad => ?_, fun legal => ?_⟩
  · have hw := (decodeCmd_eq_illegal_iff w).mpr bad
    refine ⟨hw, fun s ctx hi hf => ?_⟩
    rw [hw, exec_illegal_of_issuer w hi hf]
  · exact (decodeCmd_cases w).resolve_left ((decodeCmd_eq_illegal_iff w).not.mpr legal)

/-! ### Bus words (R78 to R80) -/

/-- The reserved words of R80, on the fields of a word as numbers. -/
def ReservedFields (w : Word) : Prop :=
  w.toNat / 4096 = 0 ∨ 11 ≤ w.toNat / 4096 ∨ w.toNat / 256 % 16 ≠ 0 ∨
  (3 ≤ w.toNat / 4096 ∧ w.toNat / 4096 ≤ 7 ∧ w.toNat % 256 ≠ 0)

theorem bareSymbol_of_payload_ne_zero {w : Word} (i : Instr) (h : w.toNat % 256 ≠ 0) :
    bareSymbol w i = .rejected .payloadNotZero := if_neg ((lowByte_eq_zero w).not.mpr h)

theorem decodeBus_of_rsvField_ne_zero {w : Word} (h : rsvField w ≠ 0) : decodeBus w = .rejected .reservedField :=
  if_pos h

/-- By the reserved field, then by the kind. -/
theorem decodeBus_of_reservedFields {w : Word} (h : ReservedFields w) : ∃ e, decodeBus w = .rejected e := by
  unfold ReservedFields at h
  by_cases hrsv : rsvField w = 0
  · have hrsv' := (rsvField_eq_zero w).mp hrsv
    unfold decodeBus
    rw [if_neg (not_not.mpr hrsv), opField_toNat]
    split
    case h_3 | h_4 | h_5 | h_6 | h_7 => exact ⟨_, bareSymbol_of_payload_ne_zero _ (by omega)⟩
    case h_11 => exact ⟨_, rfl⟩
    all_goals omega
  · exact ⟨_, decodeBus_of_rsvField_ne_zero hrsv⟩

/-- The BUS agent has no step for a word that spells no symbol (R132). -/
theorem busStep_of_rejected {w : Word} {e : DecodeError} (h : decodeBus w = .rejected e) (s : State) :
    s.busStep w = .refused .reservedSymbol := by
  rw [State.busStep, h]

/-- Settles O4: the reserved words are rejected by the decoder, and the BUS agent runs only what it decodes. -/
theorem reservedBusWordsAreNeverPresented : Obligations.ReservedBusWordsAreNeverPresented := by
  intro w kind reserved
  obtain ⟨e, he⟩ := decodeBus_of_reservedFields reserved
  refine ⟨fun i hi => ?_, busStep_of_rejected he⟩
  exact absurd (he.symm.trans hi) (by simp)

end Sys2Proof.Proofs

/-! PROOFS. The receive ring buffer (41_ring_buffer.md): READ from a callback (R92, R104) and from the foreground
(R93 to R95). -/

namespace Sys2Proof.Proofs

open Sys2Proof Sys2Proof.Machine Sys2Proof.Laws

section

variable {s : State}

/-! ### The READ port, an equation per case -/

theorem fifoGet_of_empty (he : s.wr = s.rd) : s.fifoGet = (s, .empty) := if_pos he

theorem fifoGet_of_nonempty (hne : s.wr ≠ s.rd) :
    s.fifoGet = ({ s with rd := s.advance s.rd }, .byte (s.memRead (s.slot s.rd))) := if_neg hne

theorem fifoGetFg_of_empty (hm : s.fgMicro = .none) (he : s.wr = s.rd) : s.fifoGetFg = (s, .empty) := by
  rw [State.fifoGetFg, hm]; exact if_pos he

theorem fifoGetFg_of_nonempty (hm : s.fgMicro = .none) (hne : s.wr ≠ s.rd) :
    s.fifoGetFg = ({ s with fgMicro := .open1 s.rd }, .pending) := by
  rw [State.fifoGetFg, hm]; exact if_neg hne

theorem fifoGetFg_of_open1 {r : Word} (hm : s.fgMicro = .open1 r) :
    s.fifoGetFg = ({ s with fgMicro := .open2 r (s.memRead (s.slot r)) }, .pending) := by
  rw [State.fifoGetFg, hm]

theorem fifoGetFg_of_open2 {r : Word} {b : Byte} (hm : s.fgMicro = .open2 r b) :
    s.fifoGetFg = ({ s with rd := s.advance r, fgMicro := .none }, .byte b) := by
  rw [State.fifoGetFg, hm]

/-! ### The READ command, by issuer (R165, R170) -/

theorem consOpen_iff : s.consOpen = true ↔ s.fgMicro ≠ .none := by simp [State.consOpen]

/-- A data command outside LEADER runs its rule (R165). -/
theorem issueData_of_not_leader {rule : Ctx → State} {ctx : Ctx} (hi : s.issuer = some ctx) (hl : s.role ≠ .leader) :
    s.issueData rule = .next (rule ctx) := by
  rw [issueData_issued hi, if_neg hl]

/-- A callback's READ never takes the foreground's path: that one needs SV_IDLE. -/
theorem exec_read_of_cb {k : CbKind} (hi : s.issuer = some (.cb k)) (hl : s.role ≠ .leader) :
    exec .read s = .next (s.readRule (.cb k)) := by
  have hcall : s.svState = .call := (issuer_cb.mp hi).1
  show execRead s = _
  rw [execRead, if_neg (by simp [hcall]), issueData_of_not_leader hi hl]

theorem exec_read_of_cb_race {k : CbKind} (hi : s.issuer = some (.cb k)) (hl : s.role ≠ .leader)
    (hm : s.fgMicro ≠ .none) : exec .read s = .next (s.raiseFault (.consumerRace (encode .read))) := by
  rw [exec_read_of_cb hi hl, State.readRule, if_pos (consOpen_iff.mpr hm)]

theorem exec_read_of_cb_closed {k : CbKind} (hi : s.issuer = some (.cb k)) (hl : s.role ≠ .leader)
    (hm : s.fgMicro = .none) : exec .read s = .next (State.readResult (.cb k) s.fifoGet) := by
  rw [exec_read_of_cb hi hl, State.readRule, if_neg (consOpen_iff.not.mpr (not_not.mpr hm))]

/-- In SV_IDLE the foreground's READ takes its next step: an open one whatever the role, a new one outside LEADER. -/
theorem exec_read_of_idle (hs : s.svState = .idle) (h : s.fgMicro ≠ .none ∨ s.role ≠ .leader) :
    exec .read s = .next (State.readResult .fg s.fifoGetFg) := by
  show execRead s = _
  by_cases hm : s.fgMicro = .none
  · have hl : s.role ≠ .leader := h.resolve_left (not_not.mpr hm)
    have hclosed : ¬ (s.svState = .idle ∧ s.consOpen) := fun hc => consOpen_iff.mp hc.2 hm
    rw [execRead, if_neg hclosed, issueData_of_not_leader (issuer_fg.mpr ⟨hs, hm⟩) hl, State.readRule]
  · rw [execRead, if_pos ⟨hs, consOpen_iff.mpr hm⟩, State.readRule]

end

/-! ### READ from a callback and from the foreground (R92 to R95, R104) -/

/-- Settles O21: while a foreground READ is open a callback's READ is the consumer race, else it is the port's one-step READ,
on an empty or a nonempty FIFO. -/
theorem callbackReadTakesTheOldestByteInOneStep : Obligations.CallbackReadTakesTheOldestByteInOneStep := by
  refine fun s k hi hl => ⟨fun hm hf => ?_, fun hm he => ?_, fun hm hne => ?_⟩
  · rw [exec_read_of_cb_race hi hl hm, raiseFault_of_none hf]; rfl
  · rw [exec_read_of_cb_closed hi hl hm, fifoGet_of_empty he]; rfl
  · rw [exec_read_of_cb_closed hi hl hm, fifoGet_of_nonempty hne]; rfl

/-- Settles O22: each clause is the step of the foreground's READ that FG_MICRO says is next; an open READ passes no role
check. -/
theorem foregroundReadTakesThreeSteps : Obligations.ForegroundReadTakesThreeSteps := by
  refine fun s hs => ⟨fun hm hl he => ?_, fun hm hl hne => ?_, fun r hm => ?_, fun r b hm => ?_⟩
  · rw [exec_read_of_idle hs (.inr hl), fifoGetFg_of_empty hm he]; rfl
  · rw [exec_read_of_idle hs (.inr hl), fifoGetFg_of_nonempty hm hne]; rfl
  · rw [exec_read_of_idle hs (.inl (by simp [hm])), fifoGetFg_of_open1 hm]; rfl
  · rw [exec_read_of_idle hs (.inl (by simp [hm])), fifoGetFg_of_open2 hm]; rfl

end Sys2Proof.Proofs

/-! PROOFS. The bus front end (42_bus_protocol.md): the admission of the symbols (R113), their effects (R114 to R124), and
fe_cmd(ACK) (R128). -/

namespace Sys2Proof.Proofs

open Sys2Proof Sys2Proof.Machine Sys2Proof.Laws

section

variable {s : State}

/-! ### Admission (R113) -/

/-- The entry of R113's table for a phase and a symbol; a row that is no input symbol has no entry. -/
def symbolAdmission (p : Phase) : Instr → Option Admission
  | .startAddr _ _ | .stop => some p.admitsStartStop
  | .wbyte _ => some p.admitsWbyte
  | .cack | .cnack => some p.admitsAnswer
  | .arblost | .buserr => some p.admitsFault
  | _ => none

/-- The table is the one `exec` follows: the entry alone decides between the symbol's effect, nothing and no step. -/
theorem exec_of_symbolAdmission {i : Instr} {a : Admission} (h : symbolAdmission s.phase i = some a) :
    ∃ effect, exec i s = s.admitSymbol a effect := by
  cases i <;> cases h <;> exact ⟨_, rfl⟩

theorem exec_of_ignored {i : Instr} (h : symbolAdmission s.phase i = some .ignored) : exec i s = .next s :=
  (exec_of_symbolAdmission h).choose_spec

theorem exec_of_notAdmitted {i : Instr} (h : symbolAdmission s.phase i = some .notAdmitted) :
    exec i s = .refused .notAdmitted := (exec_of_symbolAdmission h).choose_spec

theorem exec_of_admitted {i : Instr} (h : symbolAdmission s.phase i = some .effect) : ∃ t, exec i s = .next t :=
  exec_of_symbolAdmission h

theorem admitsStartStop_eq_effect {p : Phase} (h : p ∈ [Phase.idle, .rx, .nacked]) : p.admitsStartStop = .effect := by
  fin_cases h <;> rfl

theorem admitsAnswer_eq_ignored {p : Phase} (h : p ∈ [Phase.idle, .rx, .nacked, .off]) : p.admitsAnswer = .ignored := by
  fin_cases h <;> rfl

theorem admitsWbyte_eq_ignored {p : Phase} (h : p ∈ [Phase.idle, .nacked, .off]) : p.admitsWbyte = .ignored := by
  fin_cases h <;> rfl

theorem admitsFault_eq_effect {p : Phase} (h : p ≠ .off) : p.admitsFault = .effect := by
  cases p
  case off => exact absurd rfl h
  all_goals rfl

/-- While the bus is held only a bus fault is admitted (R112). -/
theorem symbolAdmission_of_hold {p : Phase} (h : p.hold = true) (a : Addr7) (d : Dir) (b : Byte) :
    ∀ i ∈ [Instr.startAddr a d, .wbyte b, .cack, .cnack, .stop], symbolAdmission p i = some .notAdmitted := by
  intro i hi
  cases p <;> cases h
  all_goals fin_cases hi <;> rfl

/-! ### The effects where R113 says E -/

theorem exec_startAddr_of_phase (h : s.phase ∈ [Phase.idle, .rx, .nacked]) (a : Addr7) (d : Dir) :
    exec (.startAddr a d) s = .next (s.startAddr a d) := by
  show execStartAddr a d s = _
  rw [execStartAddr, admitsStartStop_eq_effect h]; rfl

theorem exec_wbyte_of_rx (h : s.phase = .rx) (b : Byte) :
    exec (.wbyte b) s = .next (State.setFlag { s with rxData := b, phase := .rxhold } .rxdatav) := by
  show execWbyte b s = _
  rw [execWbyte, h]; rfl

theorem exec_cack_of_txbusy (h : s.phase = .txbusy) : exec .cack s = .next s.acknowledged := by
  show execCack s = _
  rw [execCack, h]; rfl

theorem exec_cnack_of_txbusy (h : s.phase = .txbusy) : exec .cnack s = .next { s with phase := .nacked } := by
  show execCnack s = _
  rw [execCnack, h]; rfl

/-- STOP of an addressed transaction raises SSTOP (R121). -/
theorem exec_stop_of_addressed (h : s.phase ∈ [Phase.idle, .rx, .nacked]) (ha : s.addressed = true) :
    exec .stop s = .next { s.setFlag .sstop with addressed := false, txq := [], phase := .idle } := by
  show execStop s = _
  rw [execStop, admitsStartStop_eq_effect h, if_pos ha]; rfl

theorem exec_stop_of_not_addressed (h : s.phase ∈ [Phase.idle, .rx, .nacked]) (ha : s.addressed = false) :
    exec .stop s = .next { s with addressed := false, txq := [], phase := .idle } := by
  show execStop s = _
  rw [execStop, admitsStartStop_eq_effect h, if_neg (by simp [ha])]; rfl

theorem exec_arblost_of_ne_off (h : s.phase ≠ .off) : exec .arblost s = .next (s.busFault .arblost) := by
  show execArblost s = _
  rw [execArblost, admitsFault_eq_effect h]; rfl

theorem exec_buserr_of_ne_off (h : s.phase ≠ .off) : exec .buserr s = .next (s.busFault .buserr) := by
  show execBuserr s = _
  rw [execBuserr, admitsFault_eq_effect h]; rfl

theorem startAddr_of_match (d : Dir) :
    s.startAddr s.ownAddr d = State.setFlag
      { s with addrStatus := addressByte s.ownAddr d, addressed := true, txq := [],
               phase := if d = .read then .aholdR else .aholdW } .addr := by
  cases d <;> exact if_pos rfl

theorem startAddr_of_ne {a : Addr7} (h : a ≠ s.ownAddr) (d : Dir) : s.startAddr a d = { s with phase := .idle } :=
  if_neg h

/-- A START_ADDR word spells its address and direction (R78, R81). -/
theorem decodeBus_makeWord_startAddr (a : Addr7) (d : Dir) :
    decodeBus (makeWord 0x1 (addressByte a d)) = .instr (.startAddr a d) := by
  simp [decodeBus]

/-! ### fe_cmd(ACK), an equation per case (R128) -/

theorem sendHead_of_nil (h : s.txq = []) : s.sendHead = s := by rw [State.sendHead, h]

theorem sendHead_of_cons {b : Byte} {rest : List Byte} (h : s.txq = b :: rest) :
    s.sendHead = { s with busOut := s.busOut ++ [.byte b], txq := rest, phase := .txbusy } := by
  rw [State.sendHead, h]; rfl

theorem feCmdAck_of_writeHold (h : s.phase ∈ [Phase.aholdW, .rxhold]) :
    s.feCmdAck = { s with busOut := s.busOut ++ [.ack], phase := .rx } := by
  rcases List.mem_pair.mp h with h | h
  · rw [State.feCmdAck, h]; rfl
  · rw [State.feCmdAck, h]; rfl

theorem feCmdAck_of_aholdR_of_cons {b : Byte} {rest : List Byte} (h : s.phase = .aholdR) (hq : s.txq = b :: rest) :
    s.feCmdAck = { s with busOut := s.busOut ++ [.ack, .byte b], txq := rest, phase := .txbusy } := by
  have hne : ¬ s.txq = [] := by simp [hq]
  have hsend := sendHead_of_cons (s := s.emit .ack) hq
  rw [State.feCmdAck, h]
  refine (if_neg hne).trans (hsend.trans ?_)
  simp [State.emit]

theorem feCmdAck_of_txhold (h : s.phase = .txhold) : s.feCmdAck = s.sendHead := by rw [State.feCmdAck, h]

/-- With no byte queued a hold of a reading controller stays (R128). -/
theorem feCmdAck_of_readHold_of_nil (h : s.phase ∈ [Phase.aholdR, .txhold]) (hq : s.txq = []) : s.feCmdAck = s := by
  rcases List.mem_pair.mp h with h | h
  · rw [State.feCmdAck, h]; exact if_pos hq
  · rw [feCmdAck_of_txhold h, sendHead_of_nil hq]

theorem feCmdAck_of_not_hold (h : s.phase.hold = false) : s.feCmdAck = s := by
  cases hp : s.phase <;> rw [hp] at h <;> cases h
  all_goals rw [State.feCmdAck, hp]

end

/-! ### The symbols and fe_cmd(ACK) (R113 to R124, R128) -/

/-- Settles O28: each clause is a part of R113's table; what a symbol's entry says decides its step. -/
theorem symbolsAreAdmittedAsTheTableSays : Obligations.SymbolsAreAdmittedAsTheTableSays := by
  refine fun s a d b => ⟨fun h i hi => exec_of_ignored ?_, fun h i hi => exec_of_ignored ?_,
    fun h i hi => exec_of_ignored ?_, fun h i hi => exec_of_notAdmitted (symbolAdmission_of_hold h a d b i hi),
    fun h i hi => exec_of_notAdmitted ?_, fun h i hi => exec_of_admitted ?_, fun h => ⟨_, exec_wbyte_of_rx h b, rfl⟩,
    fun h i hi => exec_of_admitted ?_, fun h i hi => ?_⟩
  · rw [h]; fin_cases hi <;> rfl
  · rcases List.mem_pair.mp h with h | h
    · rw [h]; fin_cases hi <;> rfl
    · rw [h]; fin_cases hi <;> rfl
  · rw [h]; fin_cases hi <;> rfl
  · rw [h]; fin_cases hi <;> rfl
  · have hadm := congrArg some (admitsStartStop_eq_effect h)
    fin_cases hi <;> exact hadm
  · rw [h]; fin_cases hi <;> rfl
  · fin_cases hi
    · exact ⟨_, exec_arblost_of_ne_off h, rfl⟩
    · exact ⟨_, exec_buserr_of_ne_off h, rfl⟩

/-- Settles O29: the address is compared once, and the flag raised by a match is ADDR; another target's address leaves
ADDRESSED, which is all that STOP asks. -/
theorem startAddrMatchesTheOwnAddress : Obligations.StartAddrMatchesTheOwnAddress := by
  refine ⟨fun a => ⟨decodeBus_makeWord_startAddr a .read, decodeBus_makeWord_startAddr a .write⟩,
    fun s a d h => ⟨?_, fun hne => ?_, fun ha => ?_⟩⟩
  · rintro rfl
    have hexec := exec_startAddr_of_phase h s.ownAddr d
    rw [startAddr_of_match] at hexec
    cases d <;> exact ⟨_, hexec, rfl, setFlag_readIF _ .addr, rfl⟩
  · rw [exec_startAddr_of_phase h, startAddr_of_ne hne]
  · have hidle : ({ s with phase := .idle } : State).phase ∈ [Phase.idle, .rx, .nacked] := by simp
    refine ⟨_, exec_stop_of_addressed hidle ha, ?_⟩
    exact (setFlag_flag { s with phase := .idle } .sstop .sstop).trans (by simp)

/-- Settles O30: RX is the one phase whose WBYTE entry is E, and its effect raises RXDATAV. -/
theorem aByteArrivesOnlyInRx : Obligations.AByteArrivesOnlyInRx := by
  refine fun s b => ⟨fun h => ⟨_, exec_wbyte_of_rx h b, rfl, setFlag_readIF _ .rxdatav⟩, fun h => exec_of_ignored ?_⟩
  exact congrArg some (admitsWbyte_eq_ignored h)

/-- Settles O31: CACK by whether a byte is queued. -/
theorem controllerAnswersMoveTheTransmitter : Obligations.ControllerAnswersMoveTheTransmitter := by
  refine ⟨by decide, by decide, fun s => ⟨fun h => ⟨?_, exec_cnack_of_txbusy h⟩, fun h => ?_⟩⟩
  · have hcack := exec_cack_of_txbusy h
    rcases acknowledged_cases s with ⟨hq, hack⟩ | ⟨b, rest, hq, hack⟩
    · rw [hack] at hcack
      exact ⟨_, hcack, setFlag_readIF s .ack, fun _ => rfl, fun b rest hq' => absurd (hq.symm.trans hq') (by simp)⟩
    · rw [hack] at hcack
      refine ⟨_, hcack, setFlag_readIF s .ack, fun hq' => absurd (hq.symm.trans hq') (by simp), fun b' rest' hq' => ?_⟩
      obtain ⟨rfl, rfl⟩ := List.cons.inj (hq.symm.trans hq')
      rfl
  · have hadm := congrArg some (admitsAnswer_eq_ignored h)
    exact ⟨exec_of_ignored hadm, exec_of_ignored hadm⟩

/-- Settles O32: by ADDRESSED. -/
theorem stopEndsAnAddressedTransaction : Obligations.StopEndsAnAddressedTransaction := by
  refine ⟨by decide, fun s h => ?_⟩
  cases ha : s.addressed with
  | true => exact ⟨_, exec_stop_of_addressed h ha, rfl, setFlag_readIF s .sstop⟩
  | false => exact ⟨_, exec_stop_of_not_addressed h ha, rfl, rfl⟩

/-- Settles O34: each clause is one equation of `feCmdAck`. -/
theorem frontEndAckByPhase : Obligations.FrontEndAckByPhase := by
  refine ⟨by decide, fun s => ⟨fun h => congrArg _ (feCmdAck_of_writeHold h),
    fun b rest h hq => congrArg _ (feCmdAck_of_aholdR_of_cons h hq),
    fun b rest h hq => congrArg _ ((feCmdAck_of_txhold h).trans (sendHead_of_cons hq)),
    fun h hq => congrArg _ (feCmdAck_of_readHold_of_nil h hq), fun h => congrArg _ (feCmdAck_of_not_hold ?_)⟩⟩
  generalize s.phase = p at h
  fin_cases h <;> rfl

end Sys2Proof.Proofs

/-! PROOFS. The event service (43_event_service.md): interrupt entry (R142), the service branches (R144 to R150), and what a
callback may issue (R156). -/

namespace Sys2Proof.Proofs

open Sys2Proof Sys2Proof.Machine Sys2Proof.Laws

section

variable {s : State}

/-! ### The sequencer outside a service step (R142) -/

theorem fgStep_of_not_idle (h : s.svState ≠ .idle) : s.fgStep = .refused .noStep := by
  cases hs : s.svState with
  | idle => exact absurd hs h
  | run | call => rw [State.fgStep, hs]

theorem svcStep_of_idle_of_irq (hs : s.svState = .idle) (hq : s.irq = true) : s.svcStep = .next s.serviceEntry := by
  rw [State.svcStep, hs]; exact if_pos hq

theorem svcStep_of_idle_of_no_irq (hs : s.svState = .idle) (hq : s.irq = false) : s.svcStep = .refused .noStep := by
  rw [State.svcStep, hs]; exact if_neg (by simp [hq])

/-! ### The service step (R144) -/

/-- The state a service branch starts from: its flag is cleared and SV_NEXT is past it (R144). -/
def serviced (s : State) (f : Flag) : State := { s.clearFlag f with svNext := f.bit.succ }

/-- The branch of each flag (R145 to R150). -/
def branchEffect : Flag → State → State
  | .arblost | .buserr | .sstop => fun t => { t with ftip := false }
  | .addr => State.addrBranch
  | .rxdatav => State.rxdatavBranch
  | .ack => fun t => t.callHandler .req 0

theorem serviceStep_of_run (hs : s.svState = .run) (f : Flag) (branch : State → State) :
    s.serviceStep f branch = .next (branch (serviced s f)) := by
  rw [State.serviceStep, hs]; rfl

theorem exec_branchOf (s : State) (f : Flag) : exec (branchOf f) s = s.serviceStep f (branchEffect f) := by
  cases f <;> rfl

/-- In SV_RUN every flag's row is its branch, run from the serviced state. -/
theorem exec_branchOf_of_run (hs : s.svState = .run) (f : Flag) :
    exec (branchOf f) s = .next (branchEffect f (serviced s f)) := by
  rw [exec_branchOf, serviceStep_of_run hs]

/-- The cleared bit as a mask within the six that exist, as R144's branches write it. -/
theorem serviced_readIF (s : State) (f : Flag) : (serviced s f).readIF = s.readIF &&& (flagBits &&& ~~~ f.mask) := by
  rw [← BitVec.and_assoc, readIF_and_flagBits]
  exact clearFlag_readIF s f

/-! ### call(kind, arg), an equation per case (R151, R153) -/

theorem callHandler_of_no_handler {k : CbKind} (arg : Word)
    (h : s.registered k = 0 ∨ s.params.handlers.lookup (s.registered k) = none) : s.callHandler k arg = s := by
  rcases callHandler_cases s k arg with ⟨_, hcall⟩ | ⟨hsome, _⟩
  · exact hcall
  · simp [handlerOf_none.mpr h] at hsome

theorem callHandler_of_handler {k : CbKind} (arg : Word) (hid : s.registered k ≠ 0)
    (hprog : (s.params.handlers.lookup (s.registered k)).isSome = true) :
    s.callHandler k arg = { s with cbLog := s.cbLog ++ [k.entry arg], cbKind := k, cbHid := s.registered k, cbPc := 0,
                                   cbArg := arg, svState := .call } := by
  rcases callHandler_cases s k arg with ⟨hnone, _⟩ | ⟨_, hcall⟩
  · simp [handlerOf_some.mpr ⟨hid, hprog⟩] at hnone
  · exact hcall

theorem feCmdAck_registered (s : State) (k : CbKind) : s.feCmdAck.registered k = s.registered k := by
  cases k
  · exact feCmdAck_regRx s
  · exact feCmdAck_regReq s

/-- fe_cmd(ACK) leaves what a call reads, so the call after it is decided by the state before it. -/
theorem feCmdAck_callHandler_of_no_handler {k : CbKind} (arg : Word)
    (h : s.registered k = 0 ∨ s.params.handlers.lookup (s.registered k) = none) :
    s.feCmdAck.callHandler k arg = s.feCmdAck :=
  callHandler_of_no_handler arg (by rwa [feCmdAck_registered, feCmdAck_params])

theorem feCmdAck_callHandler_of_handler {k : CbKind} (arg : Word) (hid : s.registered k ≠ 0)
    (hprog : (s.params.handlers.lookup (s.registered k)).isSome = true) :
    s.feCmdAck.callHandler k arg =
      { s.feCmdAck with cbLog := s.cbLog ++ [k.entry arg], cbKind := k, cbHid := s.registered k, cbPc := 0,
                        cbArg := arg, svState := .call } := by
  rw [callHandler_of_handler arg (by rwa [feCmdAck_registered]) (by rwa [feCmdAck_registered, feCmdAck_params]),
    feCmdAck_registered, feCmdAck_cbLog]

/-! ### The ADDR branch, by the direction (R148) -/

/-- The ADDR branch sets FTIP in every case (R148). -/
def withFtip (s : State) : State := { s with ftip := true }

theorem addrBranch_of_write (h : s.addrStatus.getLsbD 0 = false) :
    s.addrBranch = (withFtip s).feCmdAck := by
  have hdir : dirOfPayload s.addrStatus = .write := if_neg (Bool.eq_false_iff.mp h)
  simp only [State.addrBranch, hdir, withFtip]

theorem addrBranch_of_read (h : s.addrStatus.getLsbD 0 = true) :
    s.addrBranch = (withFtip s).callHandler .req 0 := by
  have hdir : dirOfPayload s.addrStatus = .read := if_pos h
  simp only [State.addrBranch, hdir, withFtip]

/-! ### STORE below N and the RXDATAV branch (R91, R149) -/

/-- What STORE makes of a FIFO that has room (R91). -/
def stored (s : State) (b : Byte) : State :=
  { s with fifoMem := Memory.write s.fifoMem (s.slot s.wr).val b, wr := s.advance s.wr }

theorem stored_count (h : InRange s) (hc : s.count < s.params.fifoCap) (b : Byte) : (stored s b).count = s.count + 1 :=
  count_advance_wr h hc rfl rfl rfl

theorem stored_read (h : Memory.wf s.fifoMem = true) (b : Byte) (a : Nat) :
    Memory.read (stored s b).fifoMem a = if a = s.wr.toNat % s.params.fifoCap then b else Memory.read s.fifoMem a :=
  read_write h _ b a

theorem rxdatavBranch_of_full (h : s.isFull = true) : s.rxdatavBranch = s.feCmdNack := if_pos h

/-- The handler is told the COUNT after the store: fe_cmd(ACK) does not touch the FIFO. -/
theorem rxdatavBranch_of_room (h : InRange s) (hc : s.count < s.params.fifoCap) :
    s.rxdatavBranch = (stored s s.rxData).feCmdAck.callHandler .rx (countResult (s.count + 1)) := by
  have hfull : s.isFull = false := (not_full_iff hc.le).mpr hc
  have hput : s.fifoPut s.rxData = (stored s s.rxData, .ok) := fifoPut_ok hfull s.rxData
  rw [State.rxdatavBranch, if_neg (Bool.eq_false_iff.mp hfull), hput]
  simp only [feCmdAck_count, stored_count h hc]

/-! ### What a callback may issue (R156, R207) -/

/-- The commands only the foreground may issue (R156). -/
def isFgOnly : Instr → Bool
  | .activateL | .activateF _ | .deactivate | .onReceive _ | .onRequest _ => true
  | _ => false

theorem exec_of_isFgOnly {i : Instr} (h : isFgOnly i = true) : ∃ rule, exec i s = s.issueFgOnly (encode i) rule := by
  cases i <;> cases h <;> exact ⟨_, rfl⟩

/-- The fault of R156, whatever the command would have done. -/
theorem exec_of_isFgOnly_of_cb {i : Instr} {k : CbKind} (h : isFgOnly i = true) (hi : s.issuer = some (.cb k))
    (hf : s.fault = none) : exec i s = .next { s with fault := some (.cbIllegalOp (encode i)) } := by
  obtain ⟨rule, hexec⟩ := exec_of_isFgOnly (s := s) h
  rw [hexec, State.issueFgOnly, hi, ← raiseFault_of_none hf]

/-- READ from a callback is never a later step of the foreground's open READ. -/
theorem exec_read_eq_issueData_of_cb {k : CbKind} (hi : s.issuer = some (.cb k)) :
    exec .read s = s.issueData s.readRule := by
  have hcall : s.svState = .call := (issuer_cb.mp hi).1
  exact if_neg (by simp [hcall])

/-- FAULT does not hold CB_ILLEGAL_OP. -/
def NoIllegalOp (t : State) : Prop := ∀ w, t.fault ≠ some (.cbIllegalOp w)

theorem noIllegalOp_of_fault_eq_none {t : State} (h : t.fault = none) : NoIllegalOp t := by simp [NoIllegalOp, h]

theorem issueData_noIllegalOp {rule : Ctx → State} {ctx : Ctx} (hi : s.issuer = some ctx) (hf : s.fault = none)
    (hrule : NoIllegalOp (rule ctx)) : ∃ t, s.issueData rule = .next t ∧ NoIllegalOp t := by
  refine ⟨_, issueData_issued hi, ?_⟩
  split
  · exact noIllegalOp_of_fault_eq_none hf
  · exact hrule

theorem writeRule_noIllegalOp (hf : s.fault = none) (b : Byte) (ctx : Ctx) : NoIllegalOp (s.writeRule b ctx) := by
  rcases writeRule_cases s b ctx with ⟨_, h⟩ | ⟨_, _, h⟩ | ⟨_, _, _, h⟩ | ⟨_, _, _, h⟩
  · rw [h]; exact noIllegalOp_of_fault_eq_none (by simp [hf])
  · rw [h, raiseFault_of_none hf]; simp [NoIllegalOp]
  · rw [h]; exact noIllegalOp_of_fault_eq_none (by simp [hf])
  · rw [h]; exact noIllegalOp_of_fault_eq_none (by simp [hf])

theorem readRule_cb_noIllegalOp (hf : s.fault = none) (k : CbKind) : NoIllegalOp (s.readRule (.cb k)) := by
  rcases readRule_cb_cases s k with ⟨_, h⟩ | ⟨_, _, h⟩ | ⟨_, _, h⟩
  · rw [h, raiseFault_of_none hf]; simp [NoIllegalOp]
  · rw [h]; exact noIllegalOp_of_fault_eq_none (by simp [hf])
  · rw [h]; exact noIllegalOp_of_fault_eq_none (by simp [hf])

/-- WRITE in a transaction, from any context but the on-request handler (R169). -/
theorem exec_write_of_wrong_context {ctx : Ctx} (hi : s.issuer = some ctx) (hl : s.role ≠ .leader) (hf : s.fault = none)
    (ht : s.ftip = true) (hctx : ctx ≠ .cb .req) (b : Byte) :
    exec (.write b) s = .next { s with fault := some (.writeContext (encode (.write b)) ctx) } := by
  show execWrite b s = _
  rw [execWrite, issueData_of_not_leader hi hl, State.writeRule, if_neg (by simp [ht]), if_pos hctx,
    raiseFault_of_none hf]

end

/-! ### The obligations of the event service -/

/-- Settles O25: the commands of the foreground fault as `issueFgOnly` says; no rule of a data command raises that fault. -/
theorem callbacksMayIssueOnlyDataCommands : Obligations.CallbacksMayIssueOnlyDataCommands := by
  refine fun s k hi hf => ⟨fun i hmem => exec_of_isFgOnly_of_cb ?_ hi hf,
    fun x i hmem => exec_of_isFgOnly_of_cb ?_ hi hf, fun x i hmem => ?_, fun x hk hl ht => ?_⟩
  · fin_cases hmem <;> rfl
  · fin_cases hmem <;> rfl
  · fin_cases hmem
    · exact issueData_noIllegalOp hi hf (writeRule_noIllegalOp hf x _)
    · rw [exec_read_eq_issueData_of_cb hi]
      exact issueData_noIllegalOp hi hf (readRule_cb_noIllegalOp hf k)
    · exact issueData_noIllegalOp hi hf (noIllegalOp_of_fault_eq_none (by simp [hf]))
  · subst hk
    exact exec_write_of_wrong_context hi hl hf ht (by simp) x

/-- Settles O40: entry writes the three sequencer fields, and FG steps in SV_IDLE only. -/
theorem interruptEntryLatchesTheSnapshot : Obligations.InterruptEntryLatchesTheSnapshot := by
  refine ⟨fun s t h ht => ?_, fun s hs => ⟨fun hq => ?_, svcStep_of_idle_of_no_irq hs⟩⟩
  · have hstep : s.fgStep = .next t := ht
    rw [fgStep_of_not_idle h] at hstep
    cases hstep
  · show s.svcStep = _
    rw [svcStep_of_idle_of_irq hs hq, ← BitVec.setWidth_eq_extractLsb' (by decide)]; rfl

/-- Settles O42: each of the three branches clears FTIP in the serviced state. -/
theorem faultAndStopBranchesClearFtip : Obligations.FaultAndStopBranchesClearFtip := by
  intro s hs
  exact ⟨⟨_, exec_branchOf_of_run hs .arblost, rfl, serviced_readIF s .arblost⟩,
    ⟨_, exec_branchOf_of_run hs .buserr, rfl, serviced_readIF s .buserr⟩,
    ⟨_, exec_branchOf_of_run hs .sstop, rfl, serviced_readIF s .sstop⟩⟩

/-- Settles O45: the call from the serviced state, by whether a handler is registered. -/
theorem acknowledgeBranchCalls : Obligations.AcknowledgeBranchCalls := by
  intro s hs
  have hexec : exec .ifAck s = .next ((serviced s .ack).callHandler .req 0) := exec_branchOf_of_run hs .ack
  refine ⟨_, hexec, ?_, ?_⟩
  · exact (callHandler_readIF _ _ _).trans (serviced_readIF s .ack)
  · rw [callHandler_ifReg]
    exact ⟨callHandler_of_no_handler (s := serviced s .ack) (k := .req) 0,
      callHandler_of_handler (s := serviced s .ack) (k := .req) 0⟩

/-- Settles O43: by the direction; a writing controller is acknowledged by the phase, a reading one answered by the call. -/
theorem addressBranchAcknowledgesOrCalls : Obligations.AddressBranchAcknowledgesOrCalls := by
  intro s hs
  have hexec : exec .ifAddr s = .next (serviced s .addr).addrBranch := exec_branchOf_of_run hs .addr
  cases hdir : s.addrStatus.getLsbD 0 with
  | false =>
    rw [addrBranch_of_write (s := serviced s .addr) hdir] at hexec
    refine ⟨_, hexec, ?_, ?_, fun _ => ⟨?_, fun hp => ?_, fun hp => ?_⟩, nofun⟩
    · exact (feCmdAck_readIF _).trans (serviced_readIF s .addr)
    · exact feCmdAck_ftip _
    · rw [feCmdAck_ifReg]; rfl
    · rw [feCmdAck_ifReg]
      exact feCmdAck_of_writeHold (s := withFtip (serviced s .addr)) (List.mem_pair.mpr (.inl hp))
    · rw [feCmdAck_ifReg]
      exact feCmdAck_of_not_hold (s := withFtip (serviced s .addr)) (congrArg Phase.hold hp)
  | true =>
    rw [addrBranch_of_read (s := serviced s .addr) hdir] at hexec
    refine ⟨_, hexec, ?_, ?_, nofun, fun _ => ?_⟩
    · exact (callHandler_readIF _ _ _).trans (serviced_readIF s .addr)
    · exact callHandler_ftip _ _ _
    · rw [callHandler_ifReg]
      exact ⟨callHandler_of_no_handler (s := withFtip (serviced s .addr)) (k := .req) 0,
        callHandler_of_handler (s := withFtip (serviced s .addr)) (k := .req) 0⟩

/-- Settles O44: by FULL; the store, the acknowledge and the call each leave what the next one reads. -/
theorem byteBranchStoresOrRefuses : Obligations.ByteBranchStoresOrRefuses := by
  intro s hinv hs
  have hexec := exec_branchOf_of_run hs .rxdatav
  rcases hinv.countRange.eq_or_lt with hcount | hlt
  · have hbranch : branchEffect .rxdatav (serviced s .rxdatav) = (serviced s .rxdatav).feCmdNack :=
      rxdatavBranch_of_full (isFull_iff.mpr hcount)
    rw [hbranch] at hexec
    refine ⟨_, hexec, ?_, fun _ => ?_, fun hlt => absurd hcount hlt.ne⟩
    · exact (feCmdNack_readIF _).trans (serviced_readIF s .rxdatav)
    · rw [feCmdNack_ifReg]; rfl
  · have hrange : InRange (serviced s .rxdatav) := ⟨hinv.wrRange, hinv.rdRange⟩
    have hwf : Memory.wf (serviced s .rxdatav).fifoMem = true := hinv.memory.1
    have hbranch : branchEffect .rxdatav (serviced s .rxdatav) =
        (stored (serviced s .rxdatav) s.rxData).feCmdAck.callHandler .rx (countResult (s.count + 1)) :=
      rxdatavBranch_of_room hrange hlt
    rw [hbranch] at hexec
    refine ⟨_, hexec, ?_, fun hcount => absurd hcount hlt.ne, fun _ => ⟨⟨_, rfl, ?_⟩, ?_⟩⟩
    · rw [callHandler_readIF, feCmdAck_readIF]
      exact serviced_readIF s .rxdatav
    · rw [callHandler_ifReg, callHandler_fifoMem, feCmdAck_ifReg, feCmdAck_fifoMem]
      exact ⟨feCmdAck_callHandler_of_no_handler (s := stored (serviced s .rxdatav) s.rxData) (k := .rx) _,
        feCmdAck_callHandler_of_handler (s := stored (serviced s .rxdatav) s.rxData) (k := .rx) _⟩
    · rw [callHandler_fifoMem, callHandler_count, feCmdAck_fifoMem, feCmdAck_count]
      exact ⟨stored_read hwf s.rxData, write_wf hwf _ _, stored_count hrange hlt s.rxData⟩

end Sys2Proof.Proofs

/-! PROOFS. The client commands (44_client_ops.md): the role commands (R166 to R168), WRITE (R169), AVAILABLE (R171), the
registrations (R172, R173), and an illegal word (R174). -/

namespace Sys2Proof.Proofs

open Sys2Proof Sys2Proof.Machine Sys2Proof.Laws

/-! ### The words of the commands (R71 to R73) -/

/-- A command word written as `op` in bits 15:12, or-ed with its operand byte. -/
theorem or_setWidth_eq_makeWord (op : BitVec 4) (low : Byte) : (op ++ 0#12) ||| low.setWidth 16 = makeWord op low := by
  refine BitVec.eq_of_getLsbD_eq fun i hi => ?_
  simp only [makeWord, BitVec.getLsbD_or, BitVec.getLsbD_setWidth, BitVec.getLsbD_append, hi, decide_true, Bool.true_and]
  by_cases hlow : i < 8
  · simp [hlow, show i < 12 by omega]
  · have hout : low.getLsbD i = false := BitVec.getLsbD_of_ge low i (by omega)
    by_cases hrsv : i < 12
    · simp [hlow, hrsv, hout, show i - 8 < 4 by omega]
    · simp [hlow, hrsv, hout, show ¬ i - 8 < 4 by omega, show i - 8 - 4 = i - 12 by omega]

/-- An own address is an operand byte with bit 7 clear (R73). -/
theorem or_setWidth_eq_encode_activateF (addr : Addr7) : 0x2000#16 ||| addr.setWidth 16 = encode (.activateF addr) := by
  have hbyte : addr.setWidth 16 = (0#1 ++ addr : Byte).setWidth 16 := by revert addr; decide
  rw [hbyte]
  exact or_setWidth_eq_makeWord 0x2 _

/-- The word of a command decodes to the command. -/
theorem decodeCmd_encode {i : Instr} (h : LegalCommand i) : decodeCmd (encode i) = i := by
  rcases h with h | ⟨addr, rfl⟩ | ⟨b, rfl⟩ | ⟨hid, rfl⟩ | ⟨hid, rfl⟩
  · fin_cases h <;> rfl
  · have hbit : (0#1 ++ addr : Byte).getLsbD 7 = false := by revert addr; decide
    simp only [decodeCmd, encode, rsvField_makeWord, opField_makeWord, lowByte_makeWord, hbit, addrField_append]; rfl
  all_goals simp [decodeCmd, encode]

theorem decode_encode_of_legalCommand {i : Instr} (h : LegalCommand i) : decode .cmd16 (encode i) = .instr i :=
  congrArg Decoded.instr (decodeCmd_encode h)

/-- A command without operand is illegal with a nonzero operand byte (R72). -/
theorem decode_makeWord_of_operand {op : BitVec 4} {low : Byte} (hop : op ∈ [0x1#4, 0x3#4, 0x5#4, 0x6#4])
    (hlow : low ≠ 0) : decode .cmd16 (makeWord op low) = .instr (.illegal (makeWord op low)) := by
  refine congrArg Decoded.instr ?_
  fin_cases hop
  all_goals simpa [decodeCmd, bare] using hlow

/-- ACTIVATE_F is illegal with `imm8[7]` set (R72). -/
theorem decode_makeWord_activateF_of_bit7 {low : Byte} (h : low.getLsbD 7 = true) :
    decode .cmd16 (makeWord 0x2 low) = .instr (.illegal (makeWord 0x2 low)) := by
  refine congrArg Decoded.instr ?_
  simp only [decodeCmd, rsvField_makeWord, opField_makeWord, lowByte_makeWord, h]; rfl

/-- An own address with bit 7 set beside it. -/
theorem or_setWidth_eq_makeWord_bit7 (addr : Addr7) :
    0x2080#16 ||| addr.setWidth 16 = makeWord 0x2 (1#1 ++ addr) := by revert addr; decide

section

variable {s : State}

/-! ### Issuing, an equation per issuer (R165, R195) -/

/-- The foreground runs the rule of a command that only it may issue (R165). -/
theorem issueFgOnly_of_fg (hi : s.issuer = some .fg) (w : Word) (rule : State) : s.issueFgOnly w rule = .next rule := by
  rw [State.issueFgOnly, hi]

/-- A data command in LEADER is refused (R195). -/
theorem issueData_of_leader {ctx : Ctx} (hi : s.issuer = some ctx) (hl : s.role = .leader) (hr : s.refused = none)
    (rule : Ctx → State) : s.issueData rule = .next { s with refused := some .leaderPath } := by
  rw [issueData_issued hi, if_pos hl, refuse_of_none hr]

/-! ### The role commands from the foreground (R166 to R168) -/

theorem exec_activateL_of_uninit (hi : s.issuer = some .fg) (hr : s.role = .uninit) :
    exec .activateL s = .next (State.result { s with role := .leader } .fg 0x0000) := by
  show execActivateL s = _
  rw [execActivateL, issueFgOnly_of_fg hi, if_pos hr]

theorem exec_activateL_of_ne_uninit (hi : s.issuer = some .fg) (hr : s.role ≠ .uninit) :
    exec .activateL s = .next (s.result .fg 0x0000) := by
  show execActivateL s = _
  rw [execActivateL, issueFgOnly_of_fg hi, if_neg hr]

theorem exec_activateF_of_uninit (hi : s.issuer = some .fg) (hr : s.role = .uninit) (addr : Addr7) :
    exec (.activateF addr) s = .next ((s.activate addr).result .fg 0x0000) := by
  show execActivateF addr s = _
  rw [execActivateF, issueFgOnly_of_fg hi, if_pos hr]

theorem exec_activateF_of_ne_uninit (hi : s.issuer = some .fg) (hr : s.role ≠ .uninit) (addr : Addr7) :
    exec (.activateF addr) s = .next (s.result .fg 0x0000) := by
  show execActivateF addr s = _
  rw [execActivateF, issueFgOnly_of_fg hi, if_neg hr]

theorem exec_deactivate_of_fg (hi : s.issuer = some .fg) : exec .deactivate s = .next (s.deactivate.result .fg 0x0000) :=
  issueFgOnly_of_fg hi _ _

@[simp] theorem activate_readIF (s : State) (addr : Addr7) : (s.activate addr).readIF = 0x00 :=
  (writeIF_readIF s 0x00).trans BitVec.zero_and

@[simp] theorem activate_readIEN (s : State) (addr : Addr7) : (s.activate addr).readIEN = 0x3F :=
  (writeIEN_readIEN s 0x3F).trans (by decide)

@[simp] theorem deactivate_readIF (s : State) : s.deactivate.readIF = 0x00 :=
  (writeIF_readIF s 0x00).trans BitVec.zero_and

@[simp] theorem deactivate_readIEN (s : State) : s.deactivate.readIEN = 0x00 :=
  (writeIEN_readIEN s 0x00).trans BitVec.zero_and

@[simp] theorem deactivate_count (s : State) : s.deactivate.count = 0 := by
  have hpos : 0 < 2 * s.params.fifoCap := Nat.mul_pos Nat.two_pos s.params.fifoCap_pos
  have hrange : InRange s.deactivate := ⟨hpos, hpos⟩
  exact (count_eq_zero hrange).mpr rfl

/-- What ACTIVATE_F would clear, DEACTIVATE has cleared (R167, R168). -/
theorem deactivate_cleared (s : State) :
    s.deactivate.wr = 0 ∧ s.deactivate.rd = 0 ∧ s.deactivate.readIF = 0 ∧ s.deactivate.ftip = false ∧
    s.deactivate.txq = [] ∧ s.deactivate.addressed = false := 
  ⟨rfl, rfl, deactivate_readIF s, rfl, rfl, rfl⟩

/-! ### WRITE, an equation per check of R169 -/

theorem exec_write_of_not_leader {ctx : Ctx} (hi : s.issuer = some ctx) (hl : s.role ≠ .leader) (b : Byte) :
    exec (.write b) s = .next (s.writeRule b ctx) := issueData_of_not_leader hi hl

theorem exec_write_of_no_transaction {ctx : Ctx} (hi : s.issuer = some ctx) (hl : s.role ≠ .leader)
    (ht : s.ftip = false) (b : Byte) : exec (.write b) s = .next (s.result ctx 0x0000) := by
  rw [exec_write_of_not_leader hi hl, State.writeRule, if_pos ht]

theorem exec_write_of_full (hi : s.issuer = some (.cb .req)) (hl : s.role ≠ .leader) (ht : s.ftip = true)
    (hq : s.txq.length = s.params.txDepth) (b : Byte) : exec (.write b) s = .next (s.result (.cb .req) 0x0000) := by
  rw [exec_write_of_not_leader hi hl, State.writeRule, if_neg (by simp [ht]), if_neg (not_not.mpr rfl), if_neg hq.not_lt]

/-- The state in which a WRITE that has room acknowledges: its byte is the last of TXQ (R169). -/
def queued (s : State) (b : Byte) : State := { s with txq := s.txq ++ [b] }

theorem exec_write_of_room (hi : s.issuer = some (.cb .req)) (hl : s.role ≠ .leader) (ht : s.ftip = true)
    (hq : s.txq.length < s.params.txDepth) (b : Byte) :
    exec (.write b) s = .next ((queued s b).feCmdAck.result (.cb .req) 0x0001) := by
  rw [exec_write_of_not_leader hi hl, State.writeRule, if_neg (by simp [ht]), if_neg (not_not.mpr rfl), if_pos hq, queued]

/-! ### COUNT as AVAILABLE's result (R171) -/

theorem queue_length (s : State) : s.queue.length = s.count := by simp [State.queue]

/-- COUNT fits a result word, for N is at most 32767 (R7). -/
theorem countResult_toNat (h : s.count ≤ s.params.fifoCap) : (countResult s.count).toNat = s.count := by
  have hcap := s.params.fifoCap_le
  rw [countResult, BitVec.toNat_ofNat, Nat.mod_eq_of_lt (by omega)]

/-! ### Who writes ROLE (R22) -/

/-- What a row can do to ROLE: nothing, or what the role command that it is says. -/
inductive RoleChange (s t : State) (i : Instr) : Prop where
  | kept (h : t.role = s.role)
  | led (hi : i = .activateL) (h : t.role = .leader)
  | followed (addr : Addr7) (hi : i = .activateF addr) (h : t.role = .follower)
  | left (hi : i = .deactivate) (h : t.role = .uninit)

theorem role_of_ackEffect {s t : State} {r : Role} (h : AckEffect s t) (hs : s.role = r) : t.role = r := by
  rcases h with rfl | ⟨_, rfl⟩ | ⟨_, _, _, _, rfl⟩ | ⟨_, _, _, _, rfl⟩ <;> exact hs

theorem role_of_callEffect {s t : State} {k : CbKind} {arg : Word} {r : Role} (h : CallEffect s t k arg)
    (hs : s.role = r) : t.role = r := by
  rcases h with ⟨_, rfl⟩ | ⟨_, rfl⟩ <;> exact hs

/-- R22 over the whole opcode table: in each case of a row's `Effect` the next state's ROLE is read off. -/
theorem exec_roleChange {i : Instr} {s t : State} (h : exec i s = .next t) : RoleChange s t i := by
  have he := exec_next i s t h
  cases i
  -- the role commands
  case activateL =>
    rcases he with ⟨_, _, ⟨_, rfl⟩ | ⟨_, rfl⟩⟩ | ⟨_, rfl⟩
    · exact .led rfl rfl
    · exact .kept rfl
    · exact .kept rfl
  case activateF addr =>
    rcases he with ⟨_, _, ⟨_, rfl⟩ | ⟨_, rfl⟩⟩ | ⟨_, _, rfl⟩
    · exact .followed addr rfl rfl
    · exact .kept rfl
    · exact .kept rfl
  case deactivate =>
    rcases he with ⟨_, _, rfl⟩ | ⟨_, _, rfl⟩
    · exact .left rfl rfl
    · exact .kept rfl
  -- every other row keeps ROLE
  all_goals refine .kept ?_
  case onReceive | onRequest => rcases he with ⟨_, _, rfl⟩ | ⟨_, _, rfl⟩ <;> rfl
  case illegal => obtain ⟨_, _, rfl⟩ := he; rfl
  case available =>
    obtain ⟨ctx, _, ⟨_, rfl⟩ | ⟨_, rfl⟩⟩ := he
    · rfl
    · exact result_role s ctx _
  case write =>
    obtain ⟨ctx, _, ⟨_, rfl⟩ | ⟨_, ⟨_, rfl⟩ | ⟨_, _, rfl⟩ | ⟨_, _, _, u, hack, rfl⟩ | ⟨_, _, _, rfl⟩⟩⟩ := he
    · rfl
    · exact result_role s ctx _
    · rfl
    · have hu : u.role = s.role := role_of_ackEffect hack rfl
      exact hu
    · rfl
  case read =>
    rcases he with ⟨_, _, ⟨_, _, rfl⟩ | ⟨_, _, rfl⟩ | ⟨_, _, rfl⟩ | ⟨_, _, _, rfl⟩⟩ | ⟨_, _, _, rfl⟩ | ⟨_, _, rfl⟩ |
      ⟨_, _, ⟨_, rfl⟩ | ⟨_, _, rfl⟩ | ⟨_, _, rfl⟩⟩ <;> rfl
  case startAddr => rcases he with ⟨_, rfl⟩ | ⟨_, ⟨_, rfl⟩ | ⟨_, rfl⟩⟩ <;> rfl
  case stop => rcases he with ⟨_, rfl⟩ | ⟨_, ⟨_, rfl⟩ | ⟨_, rfl⟩⟩ <;> rfl
  case cack => rcases he with ⟨_, rfl⟩ | ⟨_, ⟨_, rfl⟩ | ⟨_, _, _, rfl⟩⟩ <;> rfl
  case wbyte | cnack | arblost | buserr => rcases he with ⟨_, rfl⟩ | ⟨_, rfl⟩ <;> rfl
  case ifArblost | ifBuserr | ifSstop => obtain ⟨_, rfl⟩ := he; rfl
  case ifAddr =>
    obtain ⟨_, hack | hcall⟩ := he
    · exact role_of_ackEffect hack rfl
    · exact role_of_callEffect hcall rfl
  case ifRxdatav =>
    obtain ⟨_, ⟨_, rfl | ⟨_, rfl⟩⟩ | ⟨_, u, _, hack, hcall⟩⟩ := he
    · rfl
    · rfl
    · exact role_of_callEffect hcall (role_of_ackEffect hack rfl)
  case ifAck => exact role_of_callEffect he.2 rfl
  case outAck | outNack | outByte | fifoAvailable => cases he; rfl
  case feAck => exact role_of_ackEffect he rfl
  case feNack => obtain ⟨_, _, _, rfl | ⟨_, rfl⟩⟩ := he <;> rfl
  case fifoStore => obtain ⟨_, ⟨_, rfl⟩ | ⟨_, rfl⟩⟩ := he <;> rfl
  case fifoRead =>
    rcases he with ⟨_, ⟨_, _, rfl⟩ | ⟨_, _, rfl⟩ | ⟨_, _, rfl⟩ | ⟨_, _, _, rfl⟩⟩ |
      ⟨_, ⟨_, rfl⟩ | ⟨_, _, rfl⟩ | ⟨_, _, rfl⟩⟩ <;> rfl
  case fifoIsfull => obtain ⟨_, rfl⟩ := he; rfl
  case fifoClear => obtain ⟨_, _, rfl⟩ := he; rfl

/-- The only way back to UNINIT (R168). -/
theorem eq_deactivate_of_role_uninit {i : Instr} {s t : State} (h : exec i s = .next t) (hs : s.role ≠ .uninit)
    (ht : t.role = .uninit) : i = .deactivate := by
  cases exec_roleChange h with
  | kept hrole => exact absurd (hrole.symm.trans ht) hs
  | led _ hrole => simp [hrole] at ht
  | followed _ _ hrole => simp [hrole] at ht
  | left hi _ => exact hi

end

/-! ### The obligations of the client commands -/

/-- Settles O16: by ROLE; out of FOLLOWER the invariant holds the front end off and the FIFO empty. -/
theorem activateLeaderTakesEffectOnlyInUninit : Obligations.ActivateLeaderTakesEffectOnlyInUninit := by
  refine fun s => ⟨fun hi hr => exec_activateL_of_uninit hi hr, fun hi hr => exec_activateL_of_ne_uninit hi hr,
    fun k hi hf => exec_of_isFgOnly_of_cb (i := .activateL) rfl hi hf,
    fun imm8 h => decode_makeWord_of_operand (op := 0x1) (by simp) h,
    fun hinv hr => ?_⟩
  obtain ⟨hphase, _, _, _, _, hcount⟩ := hinv.outOfFollower (by simp [hr])
  exact ⟨hphase, hcount⟩

/-- Settles O17: by ROLE; a reset state is one that DEACTIVATE leaves. -/
theorem activateFollowerSetsUpOnlyFromUninit : Obligations.ActivateFollowerSetsUpOnlyFromUninit := by
  refine ⟨fun s addr => ⟨fun hi hr => ⟨_, exec_activateF_of_uninit hi hr addr, rfl, by simp, by simp⟩,
    fun hi hr => exec_activateF_of_ne_uninit hi hr addr, fun k hi hf => ?_, ?_, ?_⟩,
    fun s p m q u hu => ?_⟩
  · rw [or_setWidth_eq_encode_activateF]
    exact exec_of_isFgOnly_of_cb rfl hi hf
  · rw [or_setWidth_eq_encode_activateF]
    exact decode_encode_of_legalCommand (.inr (.inl ⟨addr, rfl⟩))
  · rw [or_setWidth_eq_makeWord_bit7]
    have hbit : (1#1 ++ addr : Byte).getLsbD 7 = true := by revert addr; decide
    exact decode_makeWord_activateF_of_bit7 hbit
  · rcases List.mem_pair.mp hu with rfl | rfl
    · exact deactivate_cleared s
    · exact resetWith_deactivate p m q ▸ deactivate_cleared _

/-- Settles O18: DEACTIVATE's rule does not look at ROLE, and no other row writes UNINIT. -/
theorem deactivateResetsAllButWhatItKeeps : Obligations.DeactivateResetsAllButWhatItKeeps := by
  exact fun s => ⟨fun hi => ⟨_, exec_deactivate_of_fg hi, rfl, by simp, by simp, by simp, rfl⟩,
    fun k hi hf => exec_of_isFgOnly_of_cb (i := .deactivate) rfl hi hf,
    fun imm8 h => decode_makeWord_of_operand (op := 0x3) (by simp) h,
    fun i t h => eq_deactivate_of_role_uninit h⟩

/-- Settles O19: the foreground's registration is one update, whatever ROLE is. -/
theorem registrationReplacesTheHandlerId : Obligations.RegistrationReplacesTheHandlerId := by
  intro s hid
  have hrx : 0x7000#16 ||| hid.setWidth 16 = encode (.onReceive hid) := or_setWidth_eq_makeWord 0x7 hid
  have hreq : 0x8000#16 ||| hid.setWidth 16 = encode (.onRequest hid) := or_setWidth_eq_makeWord 0x8 hid
  refine ⟨decode_encode_of_legalCommand (i := .onReceive hid) (by simp [LegalCommand]),
    decode_encode_of_legalCommand (i := .onRequest hid) (by simp [LegalCommand]), rfl, rfl, rfl,
    fun hi => ⟨issueFgOnly_of_fg hi _ _, issueFgOnly_of_fg hi _ _⟩, fun k hi hf => ?_⟩
  rw [hrx, hreq]
  exact ⟨exec_of_isFgOnly_of_cb rfl hi hf, exec_of_isFgOnly_of_cb rfl hi hf⟩

/-- Settles O20: R169's checks in their order; a WRITE that passes them is fe_cmd(ACK) on the longer queue, by the phase. -/
theorem writeFailsFaultsQueuesOrSends : Obligations.WriteFailsFaultsQueuesOrSends := by
  refine ⟨fun b => decode_encode_of_legalCommand (i := .write b) (by simp [LegalCommand]), fun s hinv hr => ?_,
    fun s b ctx hl hi hr => issueData_of_leader hi hl hr _,
    fun s b hl => ⟨fun hi ht => exec_write_of_no_transaction hi hl ht b,
      fun k hi ht => exec_write_of_no_transaction hi hl ht b, fun ctx hi ht hctx hf => ?_,
      fun hi ht hq => exec_write_of_full hi hl ht hq b, fun hi ht hq => ?_⟩⟩
  · obtain ⟨_, _, _, hftip, _, _⟩ := hinv.outOfFollower (by simp [hr])
    exact hftip
  · have hword : 0x4000#16 ||| b.setWidth 16 = encode (.write b) := or_setWidth_eq_makeWord 0x4 b
    rw [hword]
    exact exec_write_of_wrong_context hi hl hf ht hctx b
  · rw [exec_write_of_room hi hl ht hq]
    refine ⟨fun hp => ?_, fun hp => ?_, fun h rest hcons hp => ?_, fun h rest hcons hp => ?_⟩
    · have hhold : s.phase.hold = false := by
        generalize s.phase = p at hp
        fin_cases hp <;> rfl
      rw [feCmdAck_of_not_hold (s := queued s b) hhold]; rfl
    · rw [feCmdAck_of_writeHold (s := queued s b) hp]; rfl
    · rw [feCmdAck_of_aholdR_of_cons (s := queued s b) hp hcons]; rfl
    · rw [feCmdAck_of_txhold (s := queued s b) hp, sendHead_of_cons (s := queued s b) hcons]; rfl

/-- Settles O23: AVAILABLE's rule is COUNT as a result, and the invariant bounds COUNT. -/
theorem availableReturnsTheCount : Obligations.AvailableReturnsTheCount := by
  refine ⟨rfl, fun s => ⟨fun hl hi => issueData_of_not_leader hi hl, fun k hl hi => issueData_of_not_leader hi hl,
    fun ctx hl hi hr => issueData_of_leader hi hl hr _, fun hinv => ?_⟩⟩
  rw [queue_length]
  refine ⟨countResult_toNat hinv.countRange, hinv.countRange, fun hr => ?_⟩
  obtain ⟨_, _, _, _, _, hcount⟩ := hinv.outOfFollower (by simp [hr])
  exact hcount

/-- Settles O26: no check comes before the fault. -/
theorem illegalWordsFaultFromEveryContext : Obligations.IllegalWordsFaultFromEveryContext :=
  fun _ _ w hi hf => exec_illegal_of_issuer w hi hf

end Sys2Proof.Proofs

/-! PROOFS. Enabled steps, faults and refusals, and several instances (60_exceptions.md R190, R194, R195, R197; R210). -/

namespace Sys2Proof.Proofs

open Sys2Proof Sys2Proof.Machine Sys2Proof.Laws

section

variable {s t : State}

/-! ### What a row can do to FAULT and REFUSED (R44, R190, R194) -/

/-- FAULT and REFUSED are as before. -/
def KeepsRecords (s t : State) : Prop := t.fault = s.fault ∧ t.refused = s.refused

/-- What a row can do to FAULT and REFUSED: nothing, or raise one of them and do nothing else. -/
inductive RecordChange (s t : State) : Prop where
  | kept (h : KeepsRecords s t)
  | faulted (r : FaultRecord) (h : t = s.raiseFault r)
  | refused (r : RefusedReason) (h : t = s.refuse r)

theorem keepsRecords_self : KeepsRecords s s := ⟨rfl, rfl⟩

theorem KeepsRecords.trans {u : State} (h : KeepsRecords s t) (h' : KeepsRecords t u) : KeepsRecords s u :=
  ⟨h'.1.trans h.1, h'.2.trans h.2⟩

theorem result_keepsRecords (ctx : Ctx) (v : Word) : KeepsRecords s (s.result ctx v) := by simp [KeepsRecords]

theorem feCmdAck_keepsRecords : KeepsRecords s s.feCmdAck := by simp [KeepsRecords]

theorem feCmdNack_keepsRecords : KeepsRecords s s.feCmdNack := by simp [KeepsRecords]

theorem callHandler_keepsRecords (k : CbKind) (arg : Word) : KeepsRecords s (s.callHandler k arg) := by
  simp [KeepsRecords]

theorem fifoPut_keepsRecords (b : Byte) : KeepsRecords s (s.fifoPut b).1 := by
  rcases fifoPut_cases s b with ⟨_, h⟩ | ⟨_, h⟩ <;> rw [h] <;> exact ⟨rfl, rfl⟩

theorem fifoGet_keepsRecords : KeepsRecords s s.fifoGet.1 := by
  rcases fifoGet_cases s with ⟨_, h⟩ | ⟨_, h⟩ <;> rw [h] <;> exact ⟨rfl, rfl⟩

theorem fifoGetFg_keepsRecords : KeepsRecords s s.fifoGetFg.1 := by
  rcases fifoGetFg_cases s with ⟨_, _, h⟩ | ⟨_, _, h⟩ | ⟨_, _, h⟩ | ⟨_, _, _, h⟩ <;> rw [h] <;> exact ⟨rfl, rfl⟩

theorem startAddr_keepsRecords (a : Addr7) (d : Dir) : KeepsRecords s (s.startAddr a d) := by
  unfold State.startAddr; split <;> exact ⟨rfl, rfl⟩

theorem acknowledged_keepsRecords : KeepsRecords s s.acknowledged := by
  rcases acknowledged_cases s with ⟨_, h⟩ | ⟨_, _, _, h⟩ <;> rw [h] <;> exact ⟨rfl, rfl⟩

theorem addrBranch_keepsRecords : KeepsRecords s s.addrBranch := by
  cases h : s.addrStatus.getLsbD 0
  · rw [addrBranch_of_write h]; exact feCmdAck_keepsRecords (s := withFtip s)
  · rw [addrBranch_of_read h]; exact callHandler_keepsRecords (s := withFtip s) _ _

theorem rxdatavBranch_keepsRecords : KeepsRecords s s.rxdatavBranch := by
  unfold State.rxdatavBranch
  split
  · exact feCmdNack_keepsRecords
  · exact ((fifoPut_keepsRecords _).trans feCmdAck_keepsRecords).trans (callHandler_keepsRecords _ _)

theorem branchEffect_keepsRecords (f : Flag) : KeepsRecords s (branchEffect f s) := by
  cases f
  case arblost | buserr | sstop => exact ⟨rfl, rfl⟩
  case addr => exact addrBranch_keepsRecords
  case rxdatav => exact rxdatavBranch_keepsRecords
  case ack => exact callHandler_keepsRecords _ _

theorem exec_branchOf_keepsRecords {f : Flag} (h : exec (branchOf f) s = .next t) : KeepsRecords s t := by
  rw [exec_branchOf] at h
  obtain ⟨_, rfl⟩ := serviceStep_next h
  exact KeepsRecords.trans (t := serviced s f) ⟨rfl, rfl⟩ (branchEffect_keepsRecords f)

theorem admitSymbol_keepsRecords {a : Admission} {effect : State} (h : s.admitSymbol a effect = .next t)
    (heffect : KeepsRecords s effect) : KeepsRecords s t := by
  rcases admit_next h with ⟨_, rfl⟩ | ⟨_, rfl⟩
  · exact heffect
  · exact keepsRecords_self

theorem engineOp_keepsRecords {op : State × FifoReply} (h : s.engineOp op = .next t) (hop : KeepsRecords s op.1) :
    KeepsRecords s t := by
  obtain ⟨_, rfl⟩ := engineOp_next h
  exact hop

theorem issueFgOnly_recordChange {w : Word} {rule : State} (h : s.issueFgOnly w rule = .next t)
    (hrule : KeepsRecords s rule) : RecordChange s t := by
  rcases issueFgOnly_next h with ⟨_, _, rfl⟩ | ⟨_, rfl⟩
  · exact .kept hrule
  · exact .faulted _ rfl

theorem issueData_recordChange {rule : Ctx → State} (h : s.issueData rule = .next t)
    (hrule : ∀ ctx, RecordChange s (rule ctx)) : RecordChange s t := by
  obtain ⟨ctx, _, ⟨_, rfl⟩ | ⟨_, rfl⟩⟩ := issueData_next h
  · exact .refused _ rfl
  · exact hrule ctx

theorem writeRule_recordChange (b : Byte) (ctx : Ctx) : RecordChange s (s.writeRule b ctx) := by
  rcases writeRule_cases s b ctx with ⟨_, h⟩ | ⟨_, _, h⟩ | ⟨_, _, _, h⟩ | ⟨_, _, _, h⟩
  · exact .kept (h ▸ result_keepsRecords _ _)
  · exact .faulted _ h
  · rw [h]
    exact .kept (KeepsRecords.trans (feCmdAck_keepsRecords (s := queued s b)) (result_keepsRecords _ _))
  · exact .kept (h ▸ result_keepsRecords _ _)

theorem readRule_recordChange (ctx : Ctx) : RecordChange s (s.readRule ctx) := by
  cases ctx with
  | fg =>
    rcases readRule_fg_cases s with ⟨_, _, h⟩ | ⟨_, _, h⟩ | ⟨_, _, h⟩ | ⟨_, _, _, h⟩ <;> rw [h] <;> exact .kept ⟨rfl, rfl⟩
  | cb k =>
    rcases readRule_cb_cases s k with ⟨_, h⟩ | ⟨_, _, h⟩ | ⟨_, _, h⟩
    · exact .faulted _ h
    · exact .kept (h ▸ ⟨rfl, rfl⟩)
    · exact .kept (h ▸ ⟨rfl, rfl⟩)

theorem execRead_recordChange (h : execRead s = .next t) : RecordChange s t := by
  unfold execRead at h
  split at h
  · cases h; exact readRule_recordChange .fg
  · exact issueData_recordChange h readRule_recordChange

theorem execFifoRead_recordChange (h : execFifoRead s = .next t) : RecordChange s t := by
  unfold execFifoRead at h
  split at h
  · cases h; exact .kept fifoGetFg_keepsRecords
  · split at h <;> cases h
    · exact .faulted _ rfl
    · exact .kept fifoGet_keepsRecords
  · cases h

/-- R44 over the whole opcode table, by the operation each row is made of. -/
theorem exec_recordChange {i : Instr} (h : exec i s = .next t) : RecordChange s t := by
  cases i
  -- the client commands
  case activateL | activateF =>
    refine issueFgOnly_recordChange h (KeepsRecords.trans ?_ (result_keepsRecords _ _))
    split <;> exact ⟨rfl, rfl⟩
  case deactivate | onReceive | onRequest => exact issueFgOnly_recordChange h ⟨rfl, rfl⟩
  case write b => exact issueData_recordChange h (writeRule_recordChange b)
  case read => exact execRead_recordChange h
  case available => exact issueData_recordChange h fun ctx => .kept (result_keepsRecords ctx _)
  case illegal w => obtain ⟨_, _, rfl⟩ := exec_next _ _ _ h; exact .faulted _ rfl
  -- the port's READ, which a callback can race (R104)
  case fifoRead => exact execFifoRead_recordChange h
  -- every other row keeps both
  all_goals refine .kept ?_
  case startAddr a d => exact admitSymbol_keepsRecords h (startAddr_keepsRecords a d)
  case cack => exact admitSymbol_keepsRecords h acknowledged_keepsRecords
  case stop =>
    refine admitSymbol_keepsRecords h ?_
    split <;> exact ⟨rfl, rfl⟩
  case wbyte | cnack | arblost | buserr => exact admitSymbol_keepsRecords h ⟨rfl, rfl⟩
  case ifArblost => exact exec_branchOf_keepsRecords (f := .arblost) h
  case ifBuserr => exact exec_branchOf_keepsRecords (f := .buserr) h
  case ifSstop => exact exec_branchOf_keepsRecords (f := .sstop) h
  case ifAddr => exact exec_branchOf_keepsRecords (f := .addr) h
  case ifRxdatav => exact exec_branchOf_keepsRecords (f := .rxdatav) h
  case ifAck => exact exec_branchOf_keepsRecords (f := .ack) h
  case outAck | outNack | outByte => cases h; exact ⟨rfl, rfl⟩
  case feAck => cases h; exact feCmdAck_keepsRecords
  case feNack => obtain ⟨_, _, _, rfl | ⟨_, rfl⟩⟩ := exec_next _ _ _ h <;> exact ⟨rfl, rfl⟩
  case fifoStore => exact engineOp_keepsRecords h (fifoPut_keepsRecords _)
  case fifoIsfull => exact engineOp_keepsRecords h keepsRecords_self
  case fifoAvailable => cases exec_next _ _ _ h; exact ⟨rfl, rfl⟩
  case fifoClear => obtain ⟨_, _, rfl⟩ := exec_next _ _ _ h; exact ⟨rfl, rfl⟩

/-- A FAULT that is set stays: each of the two operations keeps a first reason (R44). -/
theorem fault_of_recordChange {r : FaultRecord} (h : RecordChange s t) (hs : s.fault = some r) : t.fault = some r := by
  cases h with
  | kept h => exact h.1.trans hs
  | faulted _ h => rw [h, raiseFault_of_some hs, hs]
  | refused _ h => rw [h, refuse_fault, hs]

theorem refused_of_recordChange {r : RefusedReason} (h : RecordChange s t) (hs : s.refused = some r) :
    t.refused = some r := by
  cases h with
  | kept h => exact h.2.trans hs
  | faulted _ h => rw [h, raiseFault_refused, hs]
  | refused _ h => rw [h, refuse_of_some hs, hs]

/-- A newly set FAULT is the whole change (R190). -/
theorem eq_of_fault_set {r : FaultRecord} (h : RecordChange s t) (hs : s.fault = none) (ht : t.fault = some r) :
    t = { s with fault := some r } := by
  cases h with
  | kept h => simp [h.1, hs] at ht
  | faulted q h =>
    rw [h, raiseFault_of_none hs] at ht ⊢
    rw [← ht]
  | refused _ h => simp [h, hs] at ht

/-- A newly set REFUSED is the whole change (R194). -/
theorem eq_of_refused_set {r : RefusedReason} (h : RecordChange s t) (hs : s.refused = none) (ht : t.refused = some r) :
    t = { s with refused := some r } := by
  cases h with
  | kept h => simp [h.2, hs] at ht
  | faulted _ h => simp [h, hs] at ht
  | refused q h => rw [h, refuse_of_none hs] -- there is one reason only (R195), so `q` is `r`

/-- FAULT stops every agent (R190). -/
theorem step_of_fault {r : FaultRecord} (h : s.fault = some r) : step s = .fault (.modelFault r) := by
  rw [step, State.machineStep, h]

/-- REFUSED stops every agent (R194). -/
theorem step_of_refused (hf : s.fault = none) (hr : s.refused = some .leaderPath) : step s = .refused .leaderPath := by
  rw [step, State.machineStep, hf, hr]

/-! ### A command that is issued has a next state (R165) -/

/-- READ in a context that issues is never a later step of an open READ. -/
theorem exec_read_of_issuer {ctx : Ctx} (hi : s.issuer = some ctx) : exec .read s = s.issueData s.readRule := by
  cases ctx with
  | fg => exact if_neg fun hopen => consOpen_iff.mp hopen.2 (issuer_fg.mp hi).2
  | cb k => exact exec_read_eq_issueData_of_cb hi

theorem issueFgOnly_of_issuer {ctx : Ctx} (hi : s.issuer = some ctx) (w : Word) (rule : State) :
    ∃ t, s.issueFgOnly w rule = .next t := by
  rw [State.issueFgOnly, hi]
  cases ctx <;> exact ⟨_, rfl⟩

theorem exec_of_legalCommand {i : Instr} {ctx : Ctx} (h : LegalCommand i) (hi : s.issuer = some ctx) :
    ∃ t, exec i s = .next t := by
  rcases h with h | ⟨_, rfl⟩ | ⟨_, rfl⟩ | ⟨_, rfl⟩ | ⟨_, rfl⟩
  · fin_cases h
    · exact issueFgOnly_of_issuer hi _ _
    · exact issueFgOnly_of_issuer hi _ _
    · exact ⟨_, (exec_read_of_issuer hi).trans (issueData_issued hi)⟩
    · exact ⟨_, issueData_issued hi⟩
  · exact issueFgOnly_of_issuer hi _ _
  · exact ⟨_, issueData_issued hi⟩
  · exact issueFgOnly_of_issuer hi _ _
  · exact issueFgOnly_of_issuer hi _ _

theorem exec_decodeCmd_of_issuer {ctx : Ctx} (hi : s.issuer = some ctx) (hf : s.fault = none) (w : Word) :
    ∃ t, exec (decodeCmd w) s = .next t := by
  rcases decodeCmd_cases w with h | h
  · exact ⟨_, h ▸ exec_illegal_of_issuer w hi hf⟩
  · exact exec_of_legalCommand h hi

/-! ### Which words the BUS agent presents, and when (R78, R80, R113) -/

/-- The kind of a bus symbol (R78, R79). -/
def symbolKind : Instr → Nat
  | .startAddr _ _ => 1
  | .wbyte _ => 2
  | .cack => 3
  | .cnack => 4
  | .stop => 5
  | .arblost => 6
  | .buserr => 7
  | .outAck => 8
  | .outNack => 9
  | .outByte _ => 10
  | _ => 0

theorem isInputSymbol_iff (i : Instr) : i.isInputSymbol = true ↔ 1 ≤ symbolKind i ∧ symbolKind i ≤ 7 := by
  cases i <;> simp [Instr.isInputSymbol, symbolKind]

theorem bareSymbol_eq_instr_iff {w : Word} {i j : Instr} :
    bareSymbol w i = .instr j ↔ w.toNat % 256 = 0 ∧ i = j := by
  rw [← lowByte_eq_zero, bareSymbol]
  split <;> simp_all

/-- A word decodes to the symbol of its kind: the decoder's table is R78's and R79's. -/
theorem symbolKind_of_decodeBus {w : Word} {i : Instr} (h : decodeBus w = .instr i) :
    symbolKind i = w.toNat / 4096 := by
  unfold decodeBus at h
  rw [opField_toNat] at h
  split at h
  · cases h
  · split at h
    case h_11 => cases h
    case h_1 hop | h_2 hop | h_10 hop => cases h; exact hop.symm
    all_goals
      rename_i hop
      obtain ⟨_, rfl⟩ := bareSymbol_eq_instr_iff.mp h
      exact hop.symm

/-- Among the kinds of input symbols R80's reserved words are the only ones that spell none. -/
theorem exists_decodeBus_of_not_reserved {w : Word} (h : ¬ ReservedFields w) (hkind : w.toNat / 4096 ≤ 7) :
    ∃ i, decodeBus w = .instr i := by
  unfold ReservedFields at h
  have hrsv : rsvField w = 0 := (rsvField_eq_zero w).mpr (by omega)
  unfold decodeBus
  rw [if_neg (not_not.mpr hrsv), opField_toNat]
  split
  case h_1 | h_2 => exact ⟨_, rfl⟩
  case h_11 => simp only [imp_false] at *; omega
  case h_8 | h_9 | h_10 => omega
  all_goals exact ⟨_, bareSymbol_eq_instr_iff.mpr ⟨by omega, rfl⟩⟩

theorem inputSymbolWord_iff (w : Word) : inputSymbolWord w = true ↔ ¬ ReservedFields w ∧ w.toNat / 4096 ≤ 7 := by
  simp only [inputSymbolWord, ReservedFields, Bool.and_eq_true, Bool.or_eq_true, beq_iff_eq, decide_eq_true_eq]
  omega

theorem inputSymbolWord_iff_decodeBus (w : Word) :
    inputSymbolWord w = true ↔ ∃ i, decodeBus w = .instr i ∧ i.isInputSymbol = true := by
  rw [inputSymbolWord_iff]
  constructor
  · rintro ⟨hres, hkind⟩
    obtain ⟨i, hi⟩ := exists_decodeBus_of_not_reserved hres hkind
    have hw := symbolKind_of_decodeBus hi
    have hpos : w.toNat / 4096 ≠ 0 := fun h0 => hres (.inl h0)
    exact ⟨i, hi, (isInputSymbol_iff i).mpr (by omega)⟩
  · rintro ⟨i, hi, hin⟩
    refine ⟨fun hres => ?_, ?_⟩
    · obtain ⟨e, he⟩ := decodeBus_of_reservedFields hres
      simp [he] at hi
    · exact symbolKind_of_decodeBus hi ▸ ((isInputSymbol_iff i).mp hin).2

/-- R113's table, read by columns: the phases with an entry other than "-". -/
theorem symbolAdmission_ne_iff {i : Instr} (h : i.isInputSymbol = true) (p : Phase) :
    symbolAdmission p i ≠ some .notAdmitted ↔ p ∈ admittedIn (symbolKind i) := by
  cases i <;> cases h
  case startAddr => show some p.admitsStartStop ≠ _ ↔ p ∈ admittedIn 1; cases p <;> decide
  case wbyte => show some p.admitsWbyte ≠ _ ↔ p ∈ admittedIn 2; cases p <;> decide
  all_goals cases p <;> decide

theorem admitSymbol_isNext_iff {a : Admission} {effect : State} :
    (∃ t, s.admitSymbol a effect = .next t) ↔ a ≠ .notAdmitted := by
  cases a <;> simp [State.admitSymbol]

theorem exec_inputSymbol_isNext_iff {i : Instr} (h : i.isInputSymbol = true) :
    (∃ t, exec i s = .next t) ↔ s.phase ∈ admittedIn (symbolKind i) := by
  obtain ⟨a, ha⟩ : ∃ a, symbolAdmission s.phase i = some a := by cases i <;> cases h <;> exact ⟨_, rfl⟩
  obtain ⟨effect, hexec⟩ := exec_of_symbolAdmission ha
  rw [hexec, admitSymbol_isNext_iff, ← symbolAdmission_ne_iff h, ha, ne_eq, ne_eq, Option.some.injEq]

/-! ### The step of each agent (R197) -/

theorem busStep_isNext_iff (w : Word) :
    (∃ t, s.busStep w = .next t) ↔ inputSymbolWord w = true ∧ s.phase ∈ admittedIn (w.toNat / 0x1000) := by
  rw [inputSymbolWord_iff_decodeBus]
  constructor
  · rintro ⟨t, h⟩
    obtain ⟨i, hi, hin, hexec⟩ := busStep_next h
    exact ⟨⟨i, hi, hin⟩, symbolKind_of_decodeBus hi ▸ (exec_inputSymbol_isNext_iff hin).mp ⟨t, hexec⟩⟩
  · rintro ⟨⟨i, hi, hin⟩, hphase⟩
    rw [State.busStep, hi]
    simp only [hin, if_true]
    exact (exec_inputSymbol_isNext_iff hin).mpr (symbolKind_of_decodeBus hi ▸ hphase)

theorem svcStep_of_run (hs : s.svState = .run) : ∃ t, s.svcStep = .next t := by
  rw [State.svcStep, hs]
  cases hd : decodeFlags s.svcWord with
  | rejected e => exact ⟨_, rfl⟩
  | instr i =>
    obtain ⟨f, _, hi⟩ := decodeFlags_instr hd
    have hf : i = branchOf f := by cases f <;> exact hi
    exact ⟨_, hf ▸ exec_branchOf_of_run hs f⟩

theorem svcStep_isNext_iff :
    (∃ t, s.svcStep = .next t) ↔ (s.svState = .idle ∧ s.irq = true) ∨ s.svState = .run := by
  constructor
  · rintro ⟨t, h⟩
    rcases svcStep_next h with ⟨hs, hq, _⟩ | ⟨hs, _⟩ | ⟨hs, _⟩
    · exact .inl ⟨hs, hq⟩
    · exact .inr hs
    · exact .inr hs
  · rintro (⟨hs, hq⟩ | hs)
    · exact ⟨_, svcStep_of_idle_of_irq hs hq⟩
    · exact svcStep_of_run hs

theorem cbStep_isNext_iff (hf : s.fault = none) : (∃ t, s.cbStep = .next t) ↔ s.svState = .call := by
  refine ⟨fun ⟨t, h⟩ => (cbStep_next h).1, fun hs => ?_⟩
  rw [State.cbStep, hs]
  cases s.cbWord with
  | none => exact ⟨_, rfl⟩
  | some w => exact exec_decodeCmd_of_issuer (issuer_cb.mpr ⟨hs, rfl⟩) hf w

theorem fgWord_isSome_iff : (∃ w, s.fgWord = some w) ↔ s.fgPc < s.params.fgProgram.length := by
  rw [← Option.isSome_iff_exists, State.fgWord]
  simp

theorem fgStep_of_open (hs : s.svState = .idle) (hm : s.fgMicro ≠ .none) : s.fgStep = exec .read s := by
  rw [State.fgStep, hs]; exact if_pos (consOpen_iff.mpr hm)

theorem fgStep_of_word {w : Word} (hs : s.svState = .idle) (hm : s.fgMicro = .none) (hw : s.fgWord = some w) :
    s.fgStep = exec (decodeCmd w) s := by
  rw [State.fgStep, hs, hw]; exact if_neg (consOpen_iff.not.mpr (not_not.mpr hm))

theorem fgStep_isNext_iff (hf : s.fault = none) :
    (∃ t, s.fgStep = .next t) ↔
      s.svState = .idle ∧ (s.fgMicro ≠ .none ∨ s.fgPc < s.params.fgProgram.length) := by
  rw [← fgWord_isSome_iff]
  constructor
  · rintro ⟨t, h⟩
    obtain ⟨hs, ⟨hm, _⟩ | ⟨_, w, hw, _⟩⟩ := fgStep_next h
    · exact ⟨hs, .inl hm⟩
    · exact ⟨hs, .inr ⟨w, hw⟩⟩
  · rintro ⟨hs, h⟩
    by_cases hm : s.fgMicro = .none
    · obtain ⟨w, hw⟩ := h.resolve_left (not_not.mpr hm)
      rw [fgStep_of_word hs hm hw]
      exact exec_decodeCmd_of_issuer (issuer_fg.mpr ⟨hs, hm⟩) hf w
    · exact ⟨_, (fgStep_of_open hs hm).trans (exec_read_of_idle hs (.inl hm))⟩

/-- In a live state an agent has a step exactly where R197 enables it. -/
theorem agentStep_isNext_iff (hf : s.fault = none) (hr : s.refused = none) (a : AgentTurn) :
    (∃ t, s.agentStep a = .next t) ↔ Enabled s a := by
  refine Iff.trans ?_ ⟨fun h => ⟨hf, hr, h⟩, fun h => h.2.2⟩
  cases a with
  | fg => exact fgStep_isNext_iff hf
  | svc => exact svcStep_isNext_iff
  | cb => exact cbStep_isNext_iff hf
  | bus w => exact busStep_isNext_iff w

/-- Taking the turn off the schedule enables and disables nothing (R197). -/
theorem enabled_takeTurn (a : AgentTurn) : Enabled s.takeTurn a ↔ Enabled s a := by
  cases a <;> exact Iff.rfl

/-- A step of the machine exists exactly where the agent whose turn it is has an enabled one. -/
theorem step_isNext_iff : (∃ t, step s = .next t) ↔ Enabled s s.nextTurn := by
  have hlive (hf : s.fault = none) (hr : s.refused = none) : (∃ t, step s = .next t) ↔ Enabled s s.nextTurn := by
    rw [step_live hf hr, agentStep_isNext_iff (s := s.takeTurn) hf hr, enabled_takeTurn]
  refine ⟨fun h => ?_, fun h => (hlive h.1 h.2.1).mpr h⟩
  obtain ⟨hf, hr, _⟩ := step_next h.choose_spec
  exact (hlive hf hr).mp h

/-- Whose turn is next is no part of the rule: the choice is free (R197). -/
theorem enabled_withSchedule (q : List AgentTurn) (a : AgentTurn) : Enabled { s with sched := q } a ↔ Enabled s a := by
  cases a <;> exact Iff.rfl

/-! ### Several instances (R210) -/

theorem platformStep_eq_some {p q : Platform} {k : Nat} (h : platformStep k p = some q) :
    ∃ s t, p[k]? = some s ∧ step s = .next t ∧ q = p.set k t := by
  unfold platformStep at h
  split at h
  · cases h
  · split at h <;> cases h
    exact ⟨_, _, ‹_›, ‹_›, rfl⟩

end

/-! ### The obligations -/

/-- Settles O8: every agent's step is a next state exactly where R197 enables it, and FG needs SV_IDLE where CB needs
SV_CALL. -/
theorem exactlyTheEnabledStepsCanBeTaken : Obligations.ExactlyTheEnabledStepsCanBeTaken := by
  refine fun s a => ⟨?_, fun h => step_isNext_iff.mpr ((enabled_withSchedule [a] a).mpr h), ?_, ?_⟩
  · rintro rfl
    exact step_isNext_iff
  · rintro ⟨⟨_, _, hidle, _⟩, ⟨_, _, hcall⟩⟩
    simp [hidle] at hcall
  · rintro hne ⟨_, _, hidle, _⟩
    exact hne hidle

/-- Settles O9: `step` looks at FAULT, then at REFUSED, before any agent; a row changes them by `raiseFault` and `refuse`
only. -/
theorem faultsAndRefusalsAreTerminalAndSticky : Obligations.FaultsAndRefusalsAreTerminalAndSticky := by
  refine ⟨fun s => ⟨fun r => step_of_fault, step_of_refused, fun t h => ?_⟩, fun i s t h => ?_⟩
  · obtain ⟨hf, hr, _⟩ := step_next h
    exact ⟨hf, hr⟩
  · have hchange := exec_recordChange h
    exact ⟨fun _ => fault_of_recordChange hchange, fun _ => refused_of_recordChange hchange,
      fun _ => eq_of_fault_set hchange, fun _ => eq_of_refused_set hchange⟩

/-- Settles O24: the three are data commands, and in a context that issues a READ is not an open one's later step. -/
theorem dataCommandsAreRefusedInLeader : Obligations.DataCommandsAreRefusedInLeader := by
  refine ⟨rfl, fun s ctx b hi hl hr i hmem => ?_⟩
  fin_cases hmem
  · exact issueData_of_leader hi hl hr _
  · exact (exec_read_of_issuer hi).trans (issueData_of_leader hi hl hr _)
  · exact issueData_of_leader hi hl hr _

/-- Settles O60: a platform's step replaces one entry of the list, by that entry's own step. -/
theorem instancesAreIndependent : Obligations.InstancesAreIndependent := by
  intro p q k h
  obtain ⟨s, t, hs, hstep, rfl⟩ := platformStep_eq_some h
  have hk : k < p.length := (List.getElem?_eq_some_iff.mp hs).1
  exact ⟨List.length_set, fun j hj => List.getElem?_set_ne hj.symm, s, t, hs, List.getElem?_set_self hk, hstep⟩

end Sys2Proof.Proofs

/-! PROOFS. Reset (70_reset_and_hazards.md R217): which agents have a step that does anything in a reset state. -/

namespace Sys2Proof.Proofs

open Sys2Proof Sys2Proof.Machine Sys2Proof.Laws

section

variable (p : Params) (m : List Host.Cell) (q : List AgentTurn)

/-- No flag is set at reset, so none is a request (R46). -/
@[simp] theorem resetWith_irq : (State.resetWith p m q).irq = false := by simp [State.irq]

/-- SV_STATE is SV_IDLE, which only a request leaves (R197). -/
theorem not_enabled_svc_resetWith : ¬ Enabled (State.resetWith p m q) .svc := by
  rintro ⟨_, _, ⟨_, hirq⟩ | hrun⟩
  · exact absurd ((resetWith_irq p m q).symm.trans hirq) Bool.false_ne_true
  · cases hrun

theorem not_enabled_cb_resetWith : ¬ Enabled (State.resetWith p m q) .cb := by
  rintro ⟨_, _, hcall⟩
  cases hcall

/-- FG_PC is 0 and no READ is open, so FG needs a first word to step at all (R197). -/
theorem enabled_fg_resetWith_iff : Enabled (State.resetWith p m q) .fg ↔ p.fgProgram ≠ [] := by
  rw [← List.length_pos_iff]
  constructor
  · rintro ⟨_, _, _, hopen | hword⟩
    · exact absurd rfl hopen
    · exact hword
  · exact fun hword => ⟨rfl, rfl, rfl, .inr hword⟩

theorem fgWord_resetWith : (State.resetWith p m q).fgWord = p.fgProgram.head? := List.head?_eq_getElem?.symm

end

/-- The OFF row of R113's table: every input symbol is ignored. -/
theorem symbolAdmission_off {i : Instr} (h : i.isInputSymbol = true) : symbolAdmission .off i = some .ignored := by
  cases i <;> cases h <;> rfl

/-! ### The obligation -/

/-- Settles O12: SVC and CB lack what R197 asks of them, FG needs its first word only, and the front end is OFF. -/
theorem onlyTheForegroundActsAfterReset : Obligations.OnlyTheForegroundActsAfterReset :=
  fun p m q => ⟨not_enabled_svc_resetWith p m q, not_enabled_cb_resetWith p m q, resetWith_irq p m q, rfl,
    enabled_fg_resetWith_iff p m q, fgWord_resetWith p m q, fun _ h => exec_of_ignored (symbolAdmission_off h)⟩

end Sys2Proof.Proofs

/-! PROOFS. The frame of every row (10_state.md, 20_memory.md): which fields it can write, said once as a table. -/

namespace Sys2Proof.Proofs

open Sys2Proof Sys2Proof.Machine Sys2Proof.Laws

/-! ### The table: which fields a row can write -/

/-- The fields of the state that the frame speaks of. -/
inductive Field where
  | role | ownAddr | ifReg | ien | addrStatus | rxData | phase | addressed | txq | ftip | fifoMem | wr | rd | regRx | regReq
  | svState | svSnap | svNext | cbKind | cbHid | cbPc | fgPc | fgMicro | busOut | cbLog | fgRes | cbRes | params
  deriving DecidableEq

/-- A field is as before. -/
def Kept (s t : State) : Field → Prop
  | .role => t.role = s.role
  | .ownAddr => t.ownAddr = s.ownAddr
  | .ifReg => t.ifReg = s.ifReg
  | .ien => t.ien = s.ien
  | .addrStatus => t.addrStatus = s.addrStatus
  | .rxData => t.rxData = s.rxData
  | .phase => t.phase = s.phase
  | .addressed => t.addressed = s.addressed
  | .txq => t.txq = s.txq
  | .ftip => t.ftip = s.ftip
  | .fifoMem => t.fifoMem = s.fifoMem
  | .wr => t.wr = s.wr
  | .rd => t.rd = s.rd
  | .regRx => t.regRx = s.regRx
  | .regReq => t.regReq = s.regReq
  | .svState => t.svState = s.svState
  | .svSnap => t.svSnap = s.svSnap
  | .svNext => t.svNext = s.svNext
  | .cbKind => t.cbKind = s.cbKind
  | .cbHid => t.cbHid = s.cbHid
  | .cbPc => t.cbPc = s.cbPc
  | .fgPc => t.fgPc = s.fgPc
  | .fgMicro => t.fgMicro = s.fgMicro
  | .busOut => t.busOut = s.busOut
  | .cbLog => t.cbLog = s.cbLog
  | .fgRes => t.fgRes = s.fgRes
  | .cbRes => t.cbRes = s.cbRes
  | .params => t.params = s.params

/-- The fields that `fe_cmd(ACK)` and `fe_cmd(NACK)` can write (R128, R129). -/
@[simp] def frontEndWrites : List Field := [.phase, .busOut, .txq]

/-- The fields that a call writes (R151), CB_ARG aside. -/
@[simp] def callWrites : List Field := [.cbLog, .cbKind, .cbHid, .cbPc, .svState]

/-- The fields that a returned command writes, by the context it returns in (R45, R165). -/
@[simp] def resultWrites : List Field := [.fgRes, .fgPc, .cbRes, .cbPc]

/-- The fields that a row can write. -/
def writes : Instr → List Field
  | .activateL => [.role, .fgRes, .fgPc]
  | .activateF _ =>
    [.role, .ownAddr, .wr, .rd, .ifReg, .ien, .ftip, .txq, .addressed, .phase, .fgRes, .fgPc]
  | .deactivate => [.role, .wr, .rd, .ifReg, .ien, .ftip, .txq, .addressed, .phase, .fgRes, .fgPc]
  | .write _ => frontEndWrites ++ resultWrites
  | .read => [.rd, .fgMicro] ++ resultWrites
  | .available => resultWrites
  | .onReceive _ => [.regRx, .fgRes, .fgPc]
  | .onRequest _ => [.regReq, .fgRes, .fgPc]
  | .illegal _ => []
  | .startAddr _ _ => [.ifReg, .addrStatus, .addressed, .txq, .phase]
  | .wbyte _ => [.ifReg, .rxData, .phase]
  | .cack => [.ifReg, .busOut, .txq, .phase]
  | .cnack => [.phase]
  | .stop | .arblost | .buserr => [.ifReg, .addressed, .txq, .phase]
  | .outAck | .outNack | .outByte _ => [.busOut]
  | .ifArblost | .ifBuserr | .ifSstop => [.ifReg, .svNext, .ftip]
  | .ifAddr => [.ifReg, .svNext, .ftip] ++ frontEndWrites ++ callWrites
  | .ifRxdatav => [.ifReg, .svNext, .fifoMem, .wr] ++ frontEndWrites ++ callWrites
  | .ifAck => [.ifReg, .svNext] ++ callWrites
  | .feAck | .feNack => frontEndWrites
  | .fifoStore => [.fifoMem, .wr]
  | .fifoRead => [.rd, .fgMicro]
  | .fifoAvailable | .fifoIsfull => []
  | .fifoClear => [.wr, .rd]

/-! ### The rows keep to the table -/

/-- Every field but those listed is as before. -/
def Frame (W : List Field) (s t : State) : Prop := ∀ f, f ∉ W → Kept s t f

section

variable {s t u : State} {V W : List Field}

theorem Frame.self : Frame W s s := fun f _ => by cases f <;> rfl

theorem Frame.trans (h : Frame W s t) (h' : Frame W t u) : Frame W s u := fun f hf => by
  have h1 := h f hf
  have h2 := h' f hf
  cases f <;> exact Eq.trans h2 h1

theorem Frame.mono (h : Frame V s t) (hsub : ∀ f ∈ V, f ∈ W) : Frame W s t := fun f hf => h f fun hV => hf (hsub f hV)

theorem ackEffect_frame (h : AckEffect s t) : Frame frontEndWrites s t := by
  rcases h with rfl | ⟨_, rfl⟩ | ⟨_, _, _, _, rfl⟩ | ⟨_, _, _, _, rfl⟩
  · exact .self
  all_goals intro f hf; cases f <;> simp at hf <;> rfl

theorem callEffect_frame {k : CbKind} {arg : Word} (h : CallEffect s t k arg) : Frame callWrites s t := by
  rcases h with ⟨_, rfl⟩ | ⟨_, rfl⟩
  · exact .self
  · intro f hf; cases f <;> simp at hf <;> rfl

theorem result_frame (ctx : Ctx) (v : Word) : Frame resultWrites s (s.result ctx v) := by
  intro f hf; cases ctx <;> cases f <;> simp at hf <;> rfl

theorem raiseFault_frame (r : FaultRecord) : Frame W s (s.raiseFault r) := fun f _ => by cases f <;> rfl

theorem refuse_frame (r : RefusedReason) : Frame W s (s.refuse r) := fun f _ => by cases f <;> rfl

/-! The updates that rows share, each with the fields it writes. -/

theorem serviced_frame (g : Flag) : Frame [.ifReg, .svNext] s (serviced s g) := by
  intro f hf; cases f <;> simp at hf <;> rfl

theorem setFtip_frame (b : Bool) : Frame [.ftip] s { s with ftip := b } := by
  intro f hf; cases f <;> simp at hf <;> rfl

theorem stored_frame (b : Byte) : Frame [.fifoMem, .wr] s (stored s b) := by
  intro f hf; cases f <;> simp at hf <;> rfl

theorem queued_frame (b : Byte) : Frame frontEndWrites s (queued s b) := by
  intro f hf; cases f <;> simp at hf <;> rfl

theorem setRd_frame (x : Word) : Frame [.rd] s { s with rd := x } := by
  intro f hf; cases f <;> simp at hf <;> rfl

/-- The table holds over every row: in each case of a row's `Effect` the fields it does not list are read off. -/
theorem exec_frame {i : Instr} (h : exec i s = .next t) : Frame (writes i) s t := by
  have he := exec_next i s t h
  cases i
  -- the rows made of a shared operation: its frame is part of the row's
  case illegal => obtain ⟨_, _, rfl⟩ := he; exact raiseFault_frame _
  case available =>
    obtain ⟨ctx, _, ⟨_, rfl⟩ | ⟨_, rfl⟩⟩ := he
    · exact refuse_frame _
    · exact result_frame ctx _
  case write b =>
    have hresult (u : State) (ctx : Ctx) (v : Word) : Frame (writes (.write b)) u (u.result ctx v) :=
      (result_frame ctx v).mono fun _ => List.mem_append_right _
    obtain ⟨ctx, _, ⟨_, rfl⟩ | ⟨_, ⟨_, rfl⟩ | ⟨_, _, rfl⟩ | ⟨_, _, _, u, hack, rfl⟩ | ⟨_, _, _, rfl⟩⟩⟩ := he
    · exact refuse_frame _
    · exact hresult s ctx _
    · exact raiseFault_frame _
    · have hu : Frame (writes (.write b)) s u :=
        ((queued_frame b).trans (ackEffect_frame hack)).mono fun _ => List.mem_append_left _
      exact hu.trans (hresult u (.cb .req) 1)
    · exact hresult s (.cb .req) 0
  case ifAddr =>
    have hstart : Frame (writes .ifAddr) s (withFtip (serviced s .addr)) :=
      ((serviced_frame .addr).mono (by simp [writes])).trans ((setFtip_frame true).mono (by simp [writes]))
    obtain ⟨_, hack | hcall⟩ := he
    · exact hstart.trans ((ackEffect_frame hack).mono fun _ hf => List.mem_append_left _ (List.mem_append_right _ hf))
    · exact hstart.trans ((callEffect_frame hcall).mono fun _ => List.mem_append_right _)
  case ifRxdatav =>
    obtain ⟨_, ⟨_, hnack⟩ | ⟨_, u, _, hack, hcall⟩⟩ := he
    · rcases hnack with rfl | ⟨_, rfl⟩ <;> intro f hf <;> cases f <;> simp [writes] at hf <;> rfl
    · have hstart : Frame (writes .ifRxdatav) s (stored (serviced s .rxdatav) s.rxData) :=
        ((serviced_frame .rxdatav).mono (by simp [writes])).trans ((stored_frame s.rxData).mono (by simp [writes]))
      have hu := hstart.trans
        ((ackEffect_frame hack).mono fun _ hf => List.mem_append_left _ (List.mem_append_right _ hf))
      exact hu.trans ((callEffect_frame hcall).mono fun _ => List.mem_append_right _)
  case ifAck =>
    have hstart : Frame (writes .ifAck) s (serviced s .ack) := (serviced_frame .ack).mono (by simp [writes])
    exact hstart.trans ((callEffect_frame he.2).mono fun _ => List.mem_append_right _)
  case feAck => exact ackEffect_frame he
  -- the rows whose next states are written out
  case' activateL => rcases he with ⟨_, _, ⟨_, rfl⟩ | ⟨_, rfl⟩⟩ | ⟨_, rfl⟩
  case' activateF => rcases he with ⟨_, _, ⟨_, rfl⟩ | ⟨_, rfl⟩⟩ | ⟨_, _, rfl⟩
  case' deactivate => rcases he with ⟨_, _, rfl⟩ | ⟨_, _, rfl⟩
  case' onReceive => rcases he with ⟨_, _, rfl⟩ | ⟨_, _, rfl⟩
  case' onRequest => rcases he with ⟨_, _, rfl⟩ | ⟨_, _, rfl⟩
  case' read =>
    rcases he with ⟨_, _, ⟨_, _, rfl⟩ | ⟨_, _, rfl⟩ | ⟨_, _, rfl⟩ | ⟨_, _, _, rfl⟩⟩ | ⟨_, _, _, rfl⟩ | ⟨_, _, rfl⟩ |
      ⟨_, _, ⟨_, rfl⟩ | ⟨_, _, rfl⟩ | ⟨_, _, rfl⟩⟩
  case' startAddr => rcases he with ⟨_, rfl⟩ | ⟨_, ⟨_, rfl⟩ | ⟨_, rfl⟩⟩
  case' stop => rcases he with ⟨_, rfl⟩ | ⟨_, ⟨_, rfl⟩ | ⟨_, rfl⟩⟩
  case' cack => rcases he with ⟨_, rfl⟩ | ⟨_, ⟨_, rfl⟩ | ⟨_, _, _, rfl⟩⟩
  case' wbyte => rcases he with ⟨_, rfl⟩ | ⟨_, rfl⟩
  case' cnack => rcases he with ⟨_, rfl⟩ | ⟨_, rfl⟩
  case' arblost => rcases he with ⟨_, rfl⟩ | ⟨_, rfl⟩
  case' buserr => rcases he with ⟨_, rfl⟩ | ⟨_, rfl⟩
  case' ifArblost => obtain ⟨_, rfl⟩ := he
  case' ifBuserr => obtain ⟨_, rfl⟩ := he
  case' ifSstop => obtain ⟨_, rfl⟩ := he
  case' outAck => cases he
  case' outNack => cases he
  case' outByte => cases he
  case' feNack => obtain ⟨_, _, _, rfl | ⟨_, rfl⟩⟩ := he
  case' fifoStore => obtain ⟨_, ⟨_, rfl⟩ | ⟨_, rfl⟩⟩ := he
  case' fifoRead =>
    rcases he with ⟨_, ⟨_, _, rfl⟩ | ⟨_, _, rfl⟩ | ⟨_, _, rfl⟩ | ⟨_, _, _, rfl⟩⟩ |
      ⟨_, ⟨_, rfl⟩ | ⟨_, _, rfl⟩ | ⟨_, _, rfl⟩⟩
  case' fifoAvailable => cases he
  case' fifoIsfull => obtain ⟨_, rfl⟩ := he
  case' fifoClear => obtain ⟨_, _, rfl⟩ := he
  all_goals intro f hf; cases f <;> try rfl
  -- and what is left are the fields of the row's list
  all_goals exact absurd (by simp [writes]) hf

end

end Sys2Proof.Proofs

/-! PROOFS. Who writes what (10_state.md, 20_memory.md): a field is written by the rows whose list has it. -/

namespace Sys2Proof.Proofs

open Sys2Proof Sys2Proof.Machine Sys2Proof.Laws

/-! ### The rows of a field -/

theorem role_mem_writes {i : Instr} :
    .role ∈ writes i ↔ i = .activateL ∨ i = .deactivate ∨ ∃ addr, i = .activateF addr := by
  cases i <;> simp [writes]

theorem ownAddr_mem_writes {i : Instr} : .ownAddr ∈ writes i ↔ ∃ addr, i = .activateF addr := by
  cases i <;> simp [writes]

theorem ien_mem_writes {i : Instr} : .ien ∈ writes i ↔ i = .deactivate ∨ ∃ addr, i = .activateF addr := by
  cases i <;> simp [writes]

theorem regRx_mem_writes {i : Instr} : .regRx ∈ writes i ↔ ∃ hid, i = .onReceive hid := by
  cases i <;> simp [writes]

theorem regReq_mem_writes {i : Instr} : .regReq ∈ writes i ↔ ∃ hid, i = .onRequest hid := by
  cases i <;> simp [writes]

theorem params_not_mem_writes (i : Instr) : .params ∉ writes i := by
  cases i <;> simp [writes]

theorem addrStatus_mem_writes {i : Instr} : .addrStatus ∈ writes i ↔ ∃ a d, i = .startAddr a d := by
  cases i <;> simp [writes]

theorem rxData_mem_writes {i : Instr} : .rxData ∈ writes i ↔ ∃ b, i = .wbyte b := by
  cases i <;> simp [writes]

theorem fifoMem_mem_writes {i : Instr} : .fifoMem ∈ writes i ↔ i ∈ [Instr.ifRxdatav, .fifoStore] := by
  cases i <;> simp [writes]

theorem wr_mem_writes {i : Instr} : .wr ∈ writes i ↔
    i ∈ [Instr.ifRxdatav, .fifoStore, .deactivate, .fifoClear] ∨ ∃ addr, i = .activateF addr := by
  cases i <;> simp [writes]

theorem rd_mem_writes {i : Instr} : .rd ∈ writes i ↔
    i ∈ [Instr.read, .fifoRead, .deactivate, .fifoClear] ∨ ∃ addr, i = .activateF addr := by
  cases i <;> simp [writes]

theorem fgMicro_mem_writes {i : Instr} : .fgMicro ∈ writes i ↔ i ∈ [Instr.read, .fifoRead] := by
  cases i <;> simp [writes]

theorem svState_mem_writes {i : Instr} : .svState ∈ writes i ↔ i ∈ [Instr.ifAddr, .ifRxdatav, .ifAck] := by
  cases i <;> simp [writes]

section

variable {i : Instr} {s t : State}

/-- A field that changed is in the row's list. -/
theorem mem_writes_of_changed (h : exec i s = .next t) {f : Field} (hf : ¬ Kept s t f) : f ∈ writes i :=
  by_contra fun hout => hf (exec_frame h f hout)

/-! ### The values the writers leave -/

theorem exec_activateF_ownAddr {addr : Addr7} (h : exec (.activateF addr) s = .next t) :
    t.ownAddr = s.ownAddr ∨ t.ownAddr = addr := by
  rcases exec_next _ _ _ h with ⟨_, _, ⟨_, rfl⟩ | ⟨_, rfl⟩⟩ | ⟨_, _, rfl⟩
  · exact .inr rfl
  · exact .inl rfl
  · exact .inl rfl

theorem exec_onReceive_regRx {hid : Byte} (h : exec (.onReceive hid) s = .next t) :
    t.regRx = s.regRx ∨ t.regRx = hid := by
  rcases exec_next _ _ _ h with ⟨_, _, rfl⟩ | ⟨_, _, rfl⟩
  · exact .inr rfl
  · exact .inl rfl

theorem exec_onRequest_regReq {hid : Byte} (h : exec (.onRequest hid) s = .next t) :
    t.regReq = s.regReq ∨ t.regReq = hid := by
  rcases exec_next _ _ _ h with ⟨_, _, rfl⟩ | ⟨_, _, rfl⟩
  · exact .inr rfl
  · exact .inl rfl

theorem exec_startAddr_addrStatus {a : Addr7} {d : Dir} (h : exec (.startAddr a d) s = .next t) :
    t.addrStatus = s.addrStatus ∨ a = s.ownAddr := by
  rcases exec_next _ _ _ h with ⟨_, rfl⟩ | ⟨_, ⟨ha, _⟩ | ⟨_, rfl⟩⟩
  · exact .inl rfl
  · exact .inr ha
  · exact .inl rfl

theorem exec_wbyte_rxData {b : Byte} (h : exec (.wbyte b) s = .next t) :
    t.rxData = s.rxData ∨ (t.rxData = b ∧ s.phase = .rx) := by
  rcases exec_next _ _ _ h with ⟨_, rfl⟩ | ⟨hp, rfl⟩
  · exact .inl rfl
  · exact .inr ⟨rfl, hp⟩

/-- A call leaves SV_STATE, or sets SV_CALL (R151, R153). -/
theorem svState_of_callEffect {u : State} {k : CbKind} {arg : Word} (h : CallEffect u t k arg) :
    t.svState = u.svState ∨ t.svState = .call := by
  rcases h with ⟨_, rfl⟩ | ⟨_, rfl⟩
  · exact .inl rfl
  · exact .inr rfl

/-- A calling branch runs in SV_RUN and leaves SV_RUN or SV_CALL. -/
theorem exec_callingBranch_svState (hi : i ∈ [Instr.ifAddr, .ifRxdatav, .ifAck]) (h : exec i s = .next t) :
    s.svState = .run ∧ (t.svState = .run ∨ t.svState = .call) := by
  have he := exec_next i s t h
  fin_cases hi
  · obtain ⟨hs, hack | hcall⟩ := he
    · exact ⟨hs, .inl ((ackEffect_frame hack .svState (by simp)).trans hs)⟩
    · exact ⟨hs, (svState_of_callEffect hcall).imp_left fun hc => hc.trans hs⟩
  · obtain ⟨hs, ⟨_, rfl | ⟨_, rfl⟩⟩ | ⟨_, u, _, hack, hcall⟩⟩ := he
    · exact ⟨hs, .inl hs⟩
    · exact ⟨hs, .inl hs⟩
    · have hu : u.svState = .run := (ackEffect_frame hack .svState (by simp)).trans hs
      exact ⟨hs, (svState_of_callEffect hcall).imp_left fun hc => hc.trans hu⟩
  · obtain ⟨hs, hcall⟩ := he
    exact ⟨hs, (svState_of_callEffect hcall).imp_left fun hc => hc.trans hs⟩

end

/-! ### The obligations -/

/-- Settles O54: the writers of each register, and of those with an operand the value they write. -/
theorem controlRegistersHaveOnlyTheirWriters : Obligations.ControlRegistersHaveOnlyTheirWriters := by
  refine fun i s t h => ⟨fun hne => role_mem_writes.mp (mem_writes_of_changed h hne), fun hne => ?_,
    fun hne => ien_mem_writes.mp (mem_writes_of_changed h hne), fun hne => ?_, fun hne => ?_,
    exec_frame h .params (params_not_mem_writes i)⟩
  · obtain ⟨addr, rfl⟩ := ownAddr_mem_writes.mp (mem_writes_of_changed h hne)
    rw [(exec_activateF_ownAddr h).resolve_left hne]
  · obtain ⟨hid, rfl⟩ := regRx_mem_writes.mp (mem_writes_of_changed h hne)
    rw [(exec_onReceive_regRx h).resolve_left hne]
  · obtain ⟨hid, rfl⟩ := regReq_mem_writes.mp (mem_writes_of_changed h hne)
    rw [(exec_onRequest_regReq h).resolve_left hne]

/-- Settles O55: the writers of each field; ADDR_STATUS is written on a match only and RXDATA in RX only. -/
theorem dataRegistersAndFifoHaveOnlyTheirWriters : Obligations.DataRegistersAndFifoHaveOnlyTheirWriters := by
  refine fun i s t h => ⟨fun hne => ?_, fun hne => ?_, fun hne => fifoMem_mem_writes.mp (mem_writes_of_changed h hne),
    fun hne => wr_mem_writes.mp (mem_writes_of_changed h hne), fun hne => rd_mem_writes.mp (mem_writes_of_changed h hne),
    fun hne => fgMicro_mem_writes.mp (mem_writes_of_changed h hne)⟩
  · obtain ⟨a, d, rfl⟩ := addrStatus_mem_writes.mp (mem_writes_of_changed h hne)
    exact ⟨d, by rw [(exec_startAddr_addrStatus h).resolve_left hne]⟩
  · obtain ⟨b, rfl⟩ := rxData_mem_writes.mp (mem_writes_of_changed h hne)
    obtain ⟨hb, hp⟩ := (exec_wbyte_rxData h).resolve_left hne
    exact ⟨by rw [hb], hp⟩

/-- Settles O10: SV_STATE is in the list of the calling branches only, and they leave SV_RUN for SV_CALL or not at all. -/
theorem onlyBranchesAndTheSequencerChangeTheContext : Obligations.OnlyBranchesAndTheSequencerChangeTheContext := by
  intro i s t h hne
  have hi := svState_mem_writes.mp (mem_writes_of_changed h hne)
  obtain ⟨hs, ht⟩ := exec_callingBranch_svState hi h
  exact ⟨hs, ht.resolve_left fun ht => hne (ht.trans hs.symm), hi⟩

end Sys2Proof.Proofs

/-! PROOFS. The encodings (30_encoding.md): decoding an encoding, and the one word of a decoded row. -/

namespace Sys2Proof.Proofs

open Sys2Proof Sys2Proof.Machine Sys2Proof.Laws

/-! ### The decoder on encodings (R71, R78, R79) -/

theorem decodeCmd_encode_of_format {i : Instr} (hw : i.wellFormed = true) (hf : i.format = .cmd16) :
    decodeCmd (encode i) = i := by
  cases i <;> cases hf
  case illegal w => exact (illegalWord_iff w).mp hw
  all_goals exact decodeCmd_encode (by simp [LegalCommand])

theorem decodeBus_encode {i : Instr} (hf : i.format = .bus16) : decodeBus (encode i) = .instr i := by
  cases i <;> cases hf
  case startAddr a d => exact decodeBus_makeWord_startAddr a d
  case wbyte | outByte => simp [decodeBus, encode]
  all_goals decide

/-- Settles O1: by the space of the row; the two 16-bit spaces have their own lemma, and the small ones no operand. -/
theorem decodeOfEncodeIsTheInstruction : Obligations.DecodeOfEncodeIsTheInstruction := by
  intro i hw
  cases hf : i.format with
  | cmd16 => exact congrArg Decoded.instr (decodeCmd_encode_of_format hw hf)
  | bus16 => exact decodeBus_encode hf
  | if8 | fecmd2 | fifoop3 => cases i <;> cases hf <;> decide

/-! ### The one word of a decoded row (R89) -/

theorem encode_of_fields {w : Word} (hrsv : rsvField w = 0) {op : BitVec 4} (hop : (opField w).toNat = op.toNat) :
    makeWord op (lowByte w) = w := by
  rw [← BitVec.eq_of_toNat_eq hop, makeWord_fields w hrsv]

/-- A word of an operand-free row is the row's encoding. -/
theorem encode_of_bare_fields {w : Word} (hrsv : rsvField w = 0) {op : BitVec 4} (hop : (opField w).toNat = op.toNat)
    (hlow : lowByte w = 0) : makeWord op 0 = w := by
  rw [← encode_of_fields hrsv hop, hlow]

theorem append_addrField {b : Byte} (h : b.getLsbD 7 = false) : (0#1 ++ addrField b : Byte) = b := by
  revert b; decide

/-- A command word that spells a command is that command's encoding, by the opcode (R71). -/
theorem encode_decodeCmd (w : Word) : encode (decodeCmd w) = w := by
  unfold decodeCmd
  split
  · rfl
  · rename_i hrsv
    have hrsv : rsvField w = 0 := not_not.mp hrsv
    have hbare {op : BitVec 4} {i : Instr} (hop : (opField w).toNat = op.toNat) (hi : encode i = makeWord op 0) :
        encode (bare w i) = w := by
      unfold bare
      split
      · exact hi.trans (encode_of_bare_fields hrsv hop ‹_›)
      · rfl
    split
    case h_1 hop => exact hbare (op := 0x1) hop rfl
    case h_2 hop =>
      split
      · rfl
      · rename_i hbit
        rw [encode, append_addrField (Bool.eq_false_iff.mpr hbit)]
        exact encode_of_fields (op := 0x2) hrsv hop
    case h_3 hop => exact hbare (op := 0x3) hop rfl
    case h_4 hop => exact encode_of_fields (op := 0x4) hrsv hop
    case h_5 hop => exact hbare (op := 0x5) hop rfl
    case h_6 hop => exact hbare (op := 0x6) hop rfl
    case h_7 hop => exact encode_of_fields (op := 0x7) hrsv hop
    case h_8 hop => exact encode_of_fields (op := 0x8) hrsv hop
    case h_9 => rfl

theorem decodeCmd_format (w : Word) : (decodeCmd w).format = .cmd16 := by
  rcases decodeCmd_cases w with h | h | ⟨_, h⟩ | ⟨_, h⟩ | ⟨_, h⟩ | ⟨_, h⟩
  · rw [h]; rfl
  · generalize decodeCmd w = i at h
    fin_cases h <;> rfl
  all_goals rw [h]; rfl

theorem decodeCmd_wellFormed (w : Word) : (decodeCmd w).wellFormed = true := by
  rcases decodeCmd_cases w with h | h | ⟨_, h⟩ | ⟨_, h⟩ | ⟨_, h⟩ | ⟨_, h⟩
  · rw [h]; exact (illegalWord_iff w).mpr h
  · generalize decodeCmd w = i at h
    fin_cases h <;> rfl
  all_goals rw [h]; rfl

/-- A row of any space but CMD16 has no condition (R72 is the one there is). -/
theorem wellFormed_of_format {i : Instr} (h : i.format ≠ .cmd16) : i.wellFormed = true := by
  cases i
  case illegal => exact absurd rfl h
  all_goals rfl

theorem decodeBus_format_encode {w : Word} {i : Instr} (h : decodeBus w = .instr i) :
    i.format = .bus16 ∧ encode i = w := by
  unfold decodeBus at h
  split at h
  · cases h
  · rename_i hrsv
    have hrsv : rsvField w = 0 := not_not.mp hrsv
    have hbare {op : BitVec 4} {j : Instr} (hop : (opField w).toNat = op.toNat) (hj : j.format = .bus16)
        (he : encode j = makeWord op 0) (h : bareSymbol w j = .instr i) : i.format = .bus16 ∧ encode i = w := by
      obtain ⟨hlow, rfl⟩ := bareSymbol_eq_instr_iff.mp h
      exact ⟨hj, he.trans (encode_of_bare_fields hrsv hop ((lowByte_eq_zero w).mpr hlow))⟩
    split at h
    case h_1 hop =>
      cases h
      rw [encode, addressByte_fields]
      exact ⟨rfl, encode_of_fields (op := 0x1) hrsv hop⟩
    case h_2 hop => cases h; exact ⟨rfl, encode_of_fields (op := 0x2) hrsv hop⟩
    case h_3 hop => exact hbare (op := 0x3) hop rfl rfl h
    case h_4 hop => exact hbare (op := 0x4) hop rfl rfl h
    case h_5 hop => exact hbare (op := 0x5) hop rfl rfl h
    case h_6 hop => exact hbare (op := 0x6) hop rfl rfl h
    case h_7 hop => exact hbare (op := 0x7) hop rfl rfl h
    case h_8 hop => exact hbare (op := 0x8) hop rfl rfl h
    case h_9 hop => exact hbare (op := 0x9) hop rfl rfl h
    case h_10 hop => cases h; exact ⟨rfl, encode_of_fields (op := 0xA) hrsv hop⟩
    case h_11 => cases h

theorem decodeFlags_branchOf {w : Word} {i : Instr} (h : decodeFlags w = .instr i) : ∃ f, i = branchOf f := by
  obtain ⟨f, _, hi⟩ := decodeFlags_instr h
  exact ⟨f, by cases f <;> exact hi⟩

theorem decodeFe_format_encode {w : Word} {i : Instr} (h : decodeFe w = .instr i) : i.format = .fecmd2 ∧ encode i = w := by
  unfold decodeFe at h
  split at h
  case h_3 => cases h
  all_goals
    rename_i hw
    cases h
    exact ⟨rfl, BitVec.eq_of_toNat_eq hw.symm⟩

theorem decodeFifo_format_encode {w : Word} {i : Instr} (h : decodeFifo w = .instr i) :
    i.format = .fifoop3 ∧ encode i = w := by
  unfold decodeFifo at h
  split at h
  case h_6 => cases h
  all_goals
    rename_i hw
    cases h
    exact ⟨rfl, BitVec.eq_of_toNat_eq hw.symm⟩

/-- Settles O2: by the space the word is read in. -/
theorem decodedWordsHaveOneMeaning : Obligations.DecodedWordsHaveOneMeaning := by
  intro f w i h
  have hother (hf : i.format = f) (hne : f ≠ .cmd16) (he : f ≠ .if8 → encode i = w) :
      i.wellFormed = true ∧ i.format = f ∧ (f ≠ .if8 → encode i = w) :=
    ⟨wellFormed_of_format (hf ▸ hne), hf, he⟩
  cases f with
  | cmd16 => cases h; exact ⟨decodeCmd_wellFormed w, decodeCmd_format w, fun _ => encode_decodeCmd w⟩
  | bus16 =>
    obtain ⟨hf, he⟩ := decodeBus_format_encode h
    exact hother hf nofun fun _ => he
  | if8 =>
    obtain ⟨f, rfl⟩ := decodeFlags_branchOf h
    exact hother (by cases f <;> rfl) nofun fun hne => absurd rfl hne
  | fecmd2 =>
    obtain ⟨hf, he⟩ := decodeFe_format_encode h
    exact hother hf nofun fun _ => he
  | fifoop3 =>
    obtain ⟨hf, he⟩ := decodeFifo_format_encode h
    exact hother hf nofun fun _ => he

/-- Settles O5: closed words, each decoded by evaluation. -/
theorem wordsOfTheSpecDecodeAsListed : Obligations.WordsOfTheSpecDecodeAsListed := by
  unfold Obligations.WordsOfTheSpecDecodeAsListed
  decide

/-- Settles O36: the row's meaning is `emit`, and OUT_BYTE's word is its kind with the byte in the payload. -/
theorem outputSymbolsAreAppendedToBusOut : Obligations.OutputSymbolsAreAppendedToBusOut :=
  fun _ b => ⟨rfl, rfl, rfl, rfl, rfl, (or_setWidth_eq_makeWord 0xA b).symm⟩

end Sys2Proof.Proofs

/-! PROOFS. The issuers of R90, R129 and R165: commands, the FIFO port and fe_cmd(NACK) in and out of their context; the
bus faults (R122, R123). -/

namespace Sys2Proof.Proofs

open Sys2Proof Sys2Proof.Machine Sys2Proof.Laws

section

variable {s : State}

/-! ### Rows outside their context have no step (R90, R165) -/

theorem issueFgOnly_of_no_issuer (hi : s.issuer = none) (w : Word) (rule : State) :
    s.issueFgOnly w rule = .refused .noStep := by
  rw [State.issueFgOnly, hi]

theorem issueData_of_no_issuer (hi : s.issuer = none) (rule : Ctx → State) : s.issueData rule = .refused .noStep := by
  rw [State.issueData, hi]

theorem exec_illegal_of_no_issuer (hi : s.issuer = none) (w : Word) : exec (.illegal w) s = .refused .noStep := by
  show execIllegal w s = _
  rw [execIllegal, hi]

theorem exec_read_of_run (hs : s.svState = .run) : exec .read s = .refused .noStep := by
  show execRead s = _
  rw [execRead, if_neg (by simp [hs]), issueData_of_no_issuer (issuer_none.mpr (.inl hs))]

theorem engineOp_of_branch (hs : s.svState = .run) (hn : s.svNext = 5) (op : State × FifoReply) :
    s.engineOp op = .next (State.withReply op) := if_pos (inRxdatavBranch_iff.mpr ⟨hs, hn⟩)

theorem engineOp_of_not_branch (h : s.svState ≠ .run ∨ s.svNext ≠ 5) (op : State × FifoReply) :
    s.engineOp op = .refused .noStep := by
  refine if_neg fun hbranch => ?_
  obtain ⟨hs, hn⟩ := inRxdatavBranch_iff.mp hbranch
  exact h.elim (absurd hs) (absurd hn)

/-! ### The READ port, by context (R92 to R95) -/

theorem execFifoRead_of_idle (hs : s.svState = .idle) : exec .fifoRead s = .next (State.withReply s.fifoGetFg) := by
  show execFifoRead s = _
  rw [execFifoRead, hs]

theorem execFifoRead_of_call_closed (hs : s.svState = .call) (hm : s.fgMicro = .none) :
    exec .fifoRead s = .next (State.withReply s.fifoGet) := by
  show execFifoRead s = _
  rw [execFifoRead, hs]
  exact if_neg (consOpen_iff.not.mpr (not_not.mpr hm))

theorem execFifoRead_of_call_open (hs : s.svState = .call) (hm : s.fgMicro ≠ .none) :
    exec .fifoRead s = .next (s.raiseFault (.consumerRace (encode .read))) := by
  show execFifoRead s = _
  rw [execFifoRead, hs]
  exact if_pos (consOpen_iff.mpr hm)

theorem execFifoRead_of_run (hs : s.svState = .run) : exec .fifoRead s = .refused .noStep := by
  show execFifoRead s = _
  rw [execFifoRead, hs]

theorem execFifoAvailable_of_issuer {ctx : Ctx} (hi : s.issuer = some ctx) :
    exec .fifoAvailable s = .next (State.withReply (s, .count s.count)) := by
  show execFifoAvailable s = _
  rw [execFifoAvailable, hi]

theorem execFifoAvailable_of_no_issuer (hi : s.issuer = none) : exec .fifoAvailable s = .refused .noStep := by
  show execFifoAvailable s = _
  rw [execFifoAvailable, hi]

theorem execFifoClear_of_fg (hi : s.issuer = some .fg) :
    exec .fifoClear s = .next (State.withReply (s.fifoReset, .done)) := by
  show execFifoClear s = _
  rw [execFifoClear, hi]

theorem execFifoClear_of_not_fg (hi : s.issuer ≠ some .fg) : exec .fifoClear s = .refused .noStep := by
  show execFifoClear s = _
  rw [execFifoClear]
  cases h : s.issuer with
  | none => rfl
  | some ctx =>
    cases ctx with
    | fg => exact absurd h hi
    | cb k => rfl

/-! ### fe_cmd(NACK), an equation per case (R129) -/

theorem feCmdNack_of_hold (h : s.phase ∈ [Phase.aholdW, .rxhold, .aholdR]) :
    s.feCmdNack = { s with busOut := s.busOut ++ [.nack], phase := .nacked } := by
  unfold State.feCmdNack
  generalize s.phase = p at h
  fin_cases h <;> rfl

theorem feCmdNack_of_other (h : s.phase ∈ [Phase.off, .idle, .rx, .txbusy, .txhold, .nacked]) : s.feCmdNack = s := by
  unfold State.feCmdNack
  generalize s.phase = p at h
  fin_cases h <;> rfl

theorem exec_feNack_of_full (hs : s.svState = .run) (hn : s.svNext = 5) (hc : s.count = s.params.fifoCap) :
    exec .feNack s = .next s.feCmdNack := by
  refine if_pos ?_
  rw [inRxdatavBranch_iff.mpr ⟨hs, hn⟩, isFull_iff.mpr hc]
  rfl

theorem exec_feNack_of_not_full (h : s.svState ≠ .run ∨ s.svNext ≠ 5 ∨ s.count ≠ s.params.fifoCap) :
    exec .feNack s = .refused .noStep := by
  refine if_neg fun hc => ?_
  obtain ⟨hbranch, hfull⟩ := Bool.and_eq_true_iff.mp hc
  obtain ⟨hs, hn⟩ := inRxdatavBranch_iff.mp hbranch
  exact h.elim (absurd hs) fun h => h.elim (absurd hn) (absurd (isFull_iff.mp hfull))

/-- A full FIFO is full in the serviced state too: the RXDATAV branch is then fe_cmd(NACK) (R149). -/
theorem exec_ifRxdatav_of_full (hs : s.svState = .run) (hc : s.count = s.params.fifoCap) :
    exec .ifRxdatav s = .next (serviced s .rxdatav).feCmdNack := by
  have hfull : (serviced s .rxdatav).isFull = true := isFull_iff.mpr hc
  rw [← rxdatavBranch_of_full hfull]
  exact exec_branchOf_of_run hs .rxdatav

end

/-! ### The obligations -/

/-- Settles O27: in neither kind of state is there an issuer; READ differs only while a foreground READ is open. -/
theorem commandsNeedAnIssuer : Obligations.CommandsNeedAnIssuer := by
  intro s x w h
  have hi : s.issuer = none := issuer_none.mpr h
  refine ⟨fun i hmem => ?_, exec_read_of_run⟩
  fin_cases hmem
  · exact issueFgOnly_of_no_issuer hi _ _
  · exact issueFgOnly_of_no_issuer hi _ _
  · exact issueFgOnly_of_no_issuer hi _ _
  · exact issueData_of_no_issuer hi _
  · exact issueData_of_no_issuer hi _
  · exact issueFgOnly_of_no_issuer hi _ _
  · exact issueFgOnly_of_no_issuer hi _ _
  · exact exec_illegal_of_no_issuer hi w

/-- Settles O33: the two symbols are `busFault` with their flag. -/
theorem busFaultsAbortTheFrontEnd : Obligations.BusFaultsAbortTheFrontEnd := fun s h =>
  ⟨⟨_, exec_arblost_of_ne_off h, rfl, setFlag_readIF s .arblost⟩,
    ⟨_, exec_buserr_of_ne_off h, rfl, setFlag_readIF s .buserr⟩⟩

/-- Settles O35: each clause is one equation of `feCmdNack`, or the row outside its context. -/
theorem frontEndNackByPhase : Obligations.FrontEndNackByPhase := by
  refine ⟨by decide, fun s => ⟨fun hs hn hc => ⟨fun hp => ?_, fun hp => ?_⟩, exec_feNack_of_not_full, fun hs hc => ?_⟩⟩
  · rw [exec_feNack_of_full hs hn hc, feCmdNack_of_hold hp]
  · rw [exec_feNack_of_full hs hn hc, feCmdNack_of_other hp]
  · refine ⟨_, exec_ifRxdatav_of_full hs hc, ?_⟩
    rw [feCmdNack_ifReg]
    exact exec_feNack_of_full (s := serviced s .rxdatav) hs rfl hc

/-- Settles O50: by the context, then by FULL. -/
theorem storeWritesOneSlotOrRejects : Obligations.StoreWritesOneSlotOrRejects := by
  refine fun s => ⟨fun h => engineOp_of_not_branch h _, fun hs hn hc => ?_, fun hs hn hc hwf => ?_⟩
  · refine (engineOp_of_branch hs hn _).trans ?_
    rw [fifoPut_full (isFull_iff.mpr hc)]; rfl
  · have hroom : s.isFull = false := Bool.eq_false_iff.mpr (isFull_iff.not.mpr hc)
    refine ⟨_, engineOp_of_branch hs hn _, ?_⟩
    rw [fifoPut_ok hroom]
    exact ⟨rfl, write_wf hwf _ _, stored_read hwf s.rxData⟩

/-- Settles O51: each clause is one equation of the port's READ, by SV_STATE and FG_MICRO. -/
theorem readPortFollowsTheContext : Obligations.ReadPortFollowsTheContext := by
  refine fun s => ⟨execFifoRead_of_run, fun hs hm hf => ?_, fun hs hm hne => ?_, fun hs hm he => ?_, fun hs hm hne => ?_,
    fun r hs hm => ?_, fun r b hs hm => ?_⟩
  · rw [execFifoRead_of_call_open hs hm, raiseFault_of_none hf]; rfl
  · rw [execFifoRead_of_call_closed hs hm, fifoGet_of_nonempty hne]; rfl
  · cases hst : s.svState with
    | run => exact absurd hst hs
    | idle => rw [execFifoRead_of_idle hst, fifoGetFg_of_empty hm he]; simp only [State.withReply, hst]
    | call => rw [execFifoRead_of_call_closed hst hm, fifoGet_of_empty he]; simp only [State.withReply, hst]
  · rw [execFifoRead_of_idle hs, fifoGetFg_of_nonempty hm hne]; rfl
  · rw [execFifoRead_of_idle hs, fifoGetFg_of_open1 hm]; rfl
  · rw [execFifoRead_of_idle hs, fifoGetFg_of_open2 hm]; rfl

/-- Settles O52: each operation in its issuer's context, and out of it. -/
theorem availableIsfullAndClearPorts : Obligations.AvailableIsfullAndClearPorts :=
  fun _ => ⟨fun _ => execFifoAvailable_of_issuer, execFifoAvailable_of_no_issuer, fun hs hn => engineOp_of_branch hs hn _,
    fun h => engineOp_of_not_branch h _, execFifoClear_of_fg, execFifoClear_of_not_fg⟩

end Sys2Proof.Proofs

/-! PROOFS. The agents' steps (44_client_ops.md section 1, 43_event_service.md, 60_exceptions.md R197): which row an agent
issues, what the sequencer does, and what an interrupt leaves of the foreground. -/

namespace Sys2Proof.Proofs

open Sys2Proof Sys2Proof.Machine Sys2Proof.Laws

section

variable {i : Instr} {s t : State} {a : AgentTurn}

/-! ### Which row an agent issues -/

/-- The row that an agent's step runs, with where its word was fetched (R78, R144, R151, R165). -/
inductive Issued (s : State) : AgentTurn → Instr → Prop where
  | openRead (hs : s.svState = .idle) (hm : s.fgMicro ≠ .none) : Issued s .fg .read
  | command (hs : s.svState = .idle) (hm : s.fgMicro = .none) (w : Word) (hw : s.fgWord = some w) :
      Issued s .fg (decodeCmd w)
  | branch (hs : s.svState = .run) (f : Flag) (hd : decodeFlags s.svcWord = .instr (branchOf f)) :
      Issued s .svc (branchOf f)
  | callback (hs : s.svState = .call) (w : Word) (hw : s.cbWord = some w) : Issued s .cb (decodeCmd w)
  | symbol (w : Word) (i : Instr) (hd : decodeBus w = .instr i) (hi : i.isInputSymbol = true) : Issued s (.bus w) i

/-- A step of an agent: the row it issues, or one of the sequencer's own steps (R142, R152, R154). -/
inductive AgentStep (s t : State) (a : AgentTurn) : Prop where
  | runs (i : Instr) (hi : Issued s a i) (h : exec i s = .next t)
  | entry (ha : a = .svc) (hs : s.svState = .idle) (hq : s.irq = true) (h : t = s.serviceEntry)
  | exit (ha : a = .svc) (hs : s.svState = .run) (h : t = s.serviceExit)
  | returns (ha : a = .cb) (hs : s.svState = .call) (hw : s.cbWord = none) (h : t = s.callbackReturn)

theorem agentStep_cases (h : s.agentStep a = .next t) : AgentStep s t a := by
  cases a with
  | fg =>
    obtain ⟨hs, ⟨hm, hexec⟩ | ⟨hm, w, hw, hexec⟩⟩ := fgStep_next h
    · exact .runs _ (.openRead hs hm) hexec
    · exact .runs _ (.command hs hm w hw) hexec
  | svc =>
    obtain ⟨hs, hq, ht⟩ | ⟨hs, i, hd, hexec⟩ | ⟨hs, _, ht⟩ := svcStep_next h
    · exact .entry rfl hs hq ht
    · obtain ⟨f, rfl⟩ := decodeFlags_branchOf hd
      exact .runs _ (.branch hs f hd) hexec
    · exact .exit rfl hs ht
  | cb =>
    obtain ⟨hs, ⟨w, hw, hexec⟩ | ⟨hw, ht⟩⟩ := cbStep_next h
    · exact .runs _ (.callback hs w hw) hexec
    · exact .returns rfl hs hw ht
  | bus w =>
    obtain ⟨i, hd, hi, hexec⟩ := busStep_next h
    exact .runs _ (.symbol w i hd hi) hexec

theorem svcStep_of_branch {f : Flag} (hs : s.svState = .run) (hd : decodeFlags s.svcWord = .instr (branchOf f)) :
    s.svcStep = exec (branchOf f) s := by
  rw [State.svcStep, hs, hd]

theorem svcStep_of_no_flag {e : DecodeError} (hs : s.svState = .run) (hd : decodeFlags s.svcWord = .rejected e) :
    s.svcStep = .next s.serviceExit := by
  rw [State.svcStep, hs, hd]

theorem cbStep_of_word {w : Word} (hs : s.svState = .call) (hw : s.cbWord = some w) :
    s.cbStep = exec (decodeCmd w) s := by
  rw [State.cbStep, hs, hw]

theorem cbStep_of_end (hs : s.svState = .call) (hw : s.cbWord = none) : s.cbStep = .next s.callbackReturn := by
  rw [State.cbStep, hs, hw]

theorem cbWord_of_handler {prog : List Word} (h : s.handlerOf s.cbHid = some prog) : s.cbWord = prog[s.cbPc]? := by
  rw [State.cbWord, h, Option.getD_some]

theorem busStep_of_symbol {w : Word} (hd : decodeBus w = .instr i) (hi : i.isInputSymbol = true) :
    s.busStep w = exec i s := by
  rw [State.busStep, hd]; exact if_pos hi

theorem busStep_of_output {w : Word} (hd : decodeBus w = .instr i) (hi : i.isInputSymbol = false) :
    s.busStep w = .refused .reservedSymbol := by
  rw [State.busStep, hd]; exact if_neg (by simp [hi])

theorem isInputSymbol_of_isInternal (h : i.isInternal = true) : i.isInputSymbol = false := by
  cases i <;> cases h <;> rfl

/-! ### The lowest bit of a snapshot (R82, R144) -/

/-- The lowest flag of a word selects its branch. -/
theorem decodeFlags_of_lowest {w : Word} {f : Flag} (hf : w.getLsbD f.bit.val = true)
    (hlow : ∀ g : Flag, w.getLsbD g.bit.val = true → f.bit ≤ g.bit) : decodeFlags w = .instr (branchOf f) := by
  have hlower (g : Flag) (hg : g.bit < f.bit) : w.getLsbD g.bit.val = false :=
    Bool.eq_false_iff.mpr fun hbit => absurd (hlow g hbit) (not_le.mpr hg)
  have h0 : _ → w.getLsbD 0 = false := hlower .arblost
  have h1 : _ → w.getLsbD 1 = false := hlower .buserr
  have h2 : _ → w.getLsbD 2 = false := hlower .sstop
  have h3 : _ → w.getLsbD 3 = false := hlower .addr
  have h4 : _ → w.getLsbD 4 = false := hlower .rxdatav
  unfold decodeFlags
  cases f
  case arblost => exact if_pos hf
  case buserr => rw [h0 (by decide)]; exact if_pos hf
  case sstop => rw [h0 (by decide), h1 (by decide)]; exact if_pos hf
  case addr => rw [h0 (by decide), h1 (by decide), h2 (by decide)]; exact if_pos hf
  case rxdatav => rw [h0 (by decide), h1 (by decide), h2 (by decide), h3 (by decide)]; exact if_pos hf
  case ack => rw [h0 (by decide), h1 (by decide), h2 (by decide), h3 (by decide), h4 (by decide)]; exact if_pos hf

theorem decodeFlags_of_none {w : Word} (h : ∀ f : Flag, w.getLsbD f.bit.val = false) :
    decodeFlags w = .rejected .noFlag := by
  have h0 : w.getLsbD 0 = false := h .arblost
  have h1 : w.getLsbD 1 = false := h .buserr
  have h2 : w.getLsbD 2 = false := h .sstop
  have h3 : w.getLsbD 3 = false := h .addr
  have h4 : w.getLsbD 4 = false := h .rxdatav
  have h5 : w.getLsbD 5 = false := h .ack
  simp only [decodeFlags, h0, h1, h2, h3, h4, h5, Bool.false_eq_true, if_false]

theorem svcWord_flag (s : State) (f : Flag) :
    s.svcWord.getLsbD f.bit.val = true ↔ s.svNext.val ≤ f.bit.val ∧ s.svSnap.getLsbD f.bit.val = true := by
  rw [svcWord_getLsbD s _ f.bit.isLt, Bool.and_eq_true, decide_eq_true_eq]

/-- A branch that SVC issues is one that SV_NEXT has not passed (R144). -/
theorem svNext_le_of_decodeFlags {f : Flag} (hd : decodeFlags s.svcWord = .instr (branchOf f)) :
    s.svNext.val ≤ f.bit.val := by
  obtain ⟨g, hg, hi⟩ := decodeFlags_instr hd
  have hfg : f = g := by cases f <;> cases g <;> cases hi <;> rfl
  exact ((svcWord_flag s f).mp (hfg ▸ hg)).1

/-! ### What a row does to the sequencer (R144, R207) -/

theorem svSnap_not_mem_writes (i : Instr) : .svSnap ∉ writes i := by
  cases i <;> simp [writes]

theorem branchEffect_svNext (s : State) (f : Flag) : (branchEffect f s).svNext = s.svNext := by
  cases f
  case arblost | buserr | sstop => rfl
  case ack => exact callHandler_svNext _ _ _
  case addr =>
    cases hdir : s.addrStatus.getLsbD 0
    · rw [branchEffect, addrBranch_of_write hdir]; exact feCmdAck_svNext _
    · rw [branchEffect, addrBranch_of_read hdir]; exact callHandler_svNext _ _ _
  case rxdatav =>
    rw [branchEffect, State.rxdatavBranch]
    split
    · exact feCmdNack_svNext s
    · rcases fifoPut_cases s s.rxData with ⟨_, hput⟩ | ⟨_, hput⟩ <;> rw [hput] <;> simp

/-- A service step moves SV_NEXT just past its bit (R144). -/
theorem exec_branchOf_svNext {f : Flag} (h : exec (branchOf f) s = .next t) : t.svNext = f.bit.succ := by
  rw [exec_branchOf] at h
  obtain ⟨_, rfl⟩ := serviceStep_next h
  exact branchEffect_svNext (serviced s f) f

/-- A service step ends in SV_RUN or SV_CALL (R207). -/
theorem exec_branchOf_svState {f : Flag} (h : exec (branchOf f) s = .next t) :
    t.svState = .run ∨ t.svState = .call := by
  by_cases hw : .svState ∈ writes (branchOf f)
  · exact (exec_callingBranch_svState (svState_mem_writes.mp hw) h).2
  · have hrun : s.svState = .run := by
      rw [exec_branchOf] at h
      exact (serviceStep_next h).1
    exact .inl ((exec_frame h .svState hw).trans hrun)

/-- A row of the command port or of the bus leaves the sequencer where it is. -/
theorem sequencer_not_mem_writes (hi : i.format ≠ .if8) : .svState ∉ writes i ∧ .svNext ∉ writes i := by
  cases i
  case ifArblost | ifBuserr | ifSstop | ifAddr | ifRxdatav | ifAck => exact absurd rfl hi
  all_goals simp [writes]

theorem format_of_isInputSymbol (h : i.isInputSymbol = true) : i.format = .bus16 := by
  cases i <;> cases h <;> rfl

theorem isInternal_branchOf (f : Flag) : (branchOf f).isInternal = false := by cases f <;> rfl

theorem isInternal_of_isInputSymbol (h : i.isInputSymbol = true) : i.isInternal = false := by
  cases i <;> cases h <;> rfl

/-- No agent issues an internal row (R6). -/
theorem Issued.not_internal (h : Issued s a i) : i.isInternal = false := by
  cases h with
  | openRead => rfl
  | command _ _ w _ => exact decodeCmd_not_internal w
  | branch _ f _ => exact isInternal_branchOf f
  | callback _ w _ => exact decodeCmd_not_internal w
  | symbol _ i _ hi => exact isInternal_of_isInputSymbol hi

/-! ### A command from a callback (R156, R165) -/

/-- What a command does in SV_CALL: it is stopped by a fault or the refusal, or it returns to the callback, having moved at
most the front end and RD. -/
inductive CallbackCommand (s t : State) : Prop where
  | faulted (r : FaultRecord) (h : t = s.raiseFault r)
  | refused (r : RefusedReason) (h : t = s.refuse r)
  | returned (u : State) (v : Word) (hu : Frame (.rd :: frontEndWrites) s u) (h : t = u.result (.cb s.cbKind) v)

theorem exec_command_of_call (hs : s.svState = .call) (hi : i.format = .cmd16) (h : exec i s = .next t) :
    CallbackCommand s t := by
  have hnotIdle : s.svState ≠ .idle := by simp [hs]
  have hissuer : s.issuer = some (.cb s.cbKind) := issuer_cb.mpr ⟨hs, rfl⟩
  have hfgOnly {w : Word} {rule : State} (h : s.issueFgOnly w rule = .next t) : CallbackCommand s t := by
    rcases issueFgOnly_next h with ⟨hidle, _⟩ | ⟨_, ht⟩
    · exact absurd hidle hnotIdle
    · exact .faulted _ ht
  have hdata {rule : Ctx → State} (h : s.issueData rule = .next t)
      (hrule : t = rule (.cb s.cbKind) → CallbackCommand s t) : CallbackCommand s t := by
    obtain ⟨ctx, hctx, ⟨_, ht⟩ | ⟨_, ht⟩⟩ := issueData_next h
    · exact .refused _ ht
    · cases hctx.symm.trans hissuer
      exact hrule ht
  cases i <;> cases hi
  case activateL | activateF | deactivate | onReceive | onRequest => exact hfgOnly h
  case illegal w => obtain ⟨_, _, ht⟩ := exec_next _ _ _ h; exact .faulted _ ht
  case available => exact hdata h fun ht => .returned s _ .self ht
  case write b =>
    refine hdata h fun ht => ?_
    rcases writeRule_cases s b (.cb s.cbKind) with ⟨_, hw⟩ | ⟨_, _, hw⟩ | ⟨_, _, _, hw⟩ | ⟨_, _, _, hw⟩
    · exact .returned s _ .self (ht.trans hw)
    · exact .faulted _ (ht.trans hw)
    · have hack : Frame frontEndWrites s (queued s b).feCmdAck :=
        (queued_frame b).trans (ackEffect_frame (feCmdAck_cases _))
      exact .returned _ _ (hack.mono fun _ => List.mem_cons_of_mem _) (ht.trans hw)
    · exact .returned s _ .self (ht.trans hw)
  case read =>
    rw [exec_read_of_issuer hissuer] at h
    refine hdata h fun ht => ?_
    rcases readRule_cb_cases s s.cbKind with ⟨_, hr⟩ | ⟨_, _, hr⟩ | ⟨_, _, hr⟩
    · exact .faulted _ (ht.trans hr)
    · exact .returned s _ .self (ht.trans hr)
    · exact .returned _ _ ((setRd_frame (s.advance s.rd)).mono (by simp)) (ht.trans hr)

/-! ### What an interrupt leaves of the foreground (R202 to R204) -/

/-- FG_PC, FG_MICRO and FG_RES are as before. -/
def KeepsForeground (s t : State) : Prop := t.fgPc = s.fgPc ∧ t.fgMicro = s.fgMicro ∧ t.fgRes = s.fgRes

theorem Frame.keepsForeground {W : List Field} (h : Frame W s t) (hpc : .fgPc ∉ W) (hm : .fgMicro ∉ W)
    (hres : .fgRes ∉ W) : KeepsForeground s t := ⟨h _ hpc, h _ hm, h _ hres⟩

theorem CallbackCommand.keepsForeground (h : CallbackCommand s t) : KeepsForeground s t := by
  cases h with
  | faulted r h => rw [h]; exact ⟨rfl, rfl, rfl⟩
  | refused r h => rw [h]; exact ⟨rfl, rfl, rfl⟩
  | returned u v hu h => rw [h]; exact hu.keepsForeground (by simp) (by simp) (by simp)

theorem foreground_not_mem_writes (hi : i.format = .if8 ∨ i.format = .bus16) :
    .fgPc ∉ writes i ∧ .fgMicro ∉ writes i ∧ .fgRes ∉ writes i := by
  cases i <;> simp [Instr.format] at hi <;> simp [writes]

theorem format_branchOf (f : Flag) : (branchOf f).format = .if8 := by cases f <;> rfl

theorem Issued.keepsForeground (hi : Issued s a i) (ha : a ≠ .fg) (h : exec i s = .next t) : KeepsForeground s t := by
  have hframe (hf : i.format = .if8 ∨ i.format = .bus16) : KeepsForeground s t := by
    obtain ⟨hpc, hm, hres⟩ := foreground_not_mem_writes hf
    exact (exec_frame h).keepsForeground hpc hm hres
  cases hi with
  | openRead => exact absurd rfl ha
  | command => exact absurd rfl ha
  | branch _ f _ => exact hframe (.inl (format_branchOf f))
  | callback hs w _ => exact (exec_command_of_call hs (decodeCmd_format w) h).keepsForeground
  | symbol _ _ _ hin => exact hframe (.inr (format_of_isInputSymbol hin))

end

end Sys2Proof.Proofs

/-! PROOFS. The event service over a run (43_event_service.md, 60_exceptions.md): the order of service, the callback's return,
the bound of an invocation, and R155's return to the foreground. -/

namespace Sys2Proof.Proofs

open Sys2Proof Sys2Proof.Machine Sys2Proof.Laws

/-! ### Single steps -/

/-- Settles O6: FG, CB, SVC and BUS by the equation of their step, and the converse by the inversion of a step. -/
theorem aStepRunsTheDecodedInstruction : Obligations.AStepRunsTheDecodedInstruction := by
  intro s hf hr
  have hstep (a : AgentTurn) (ha : s.nextTurn = a) : step s = s.takeTurn.agentStep a := ha ▸ step_live hf hr
  refine ⟨fun w ha hs hm hw => (hstep _ ha).trans (fgStep_of_word (s := s.takeTurn) hs hm hw),
    fun ha hs hm => (hstep _ ha).trans (fgStep_of_open (s := s.takeTurn) hs hm), fun prog w ha hs hprog hw => ?_,
    fun i ha hs hd => ?_, fun w i ha hd hin => (hstep _ ha).trans (busStep_of_symbol hd hin),
    fun w i ha hd hin => (hstep _ ha).trans (busStep_of_output hd (isInputSymbol_of_isInternal hin)), fun t ht => ?_⟩
  · have hword : s.takeTurn.cbWord = some w := (cbWord_of_handler (s := s.takeTurn) hprog).trans hw
    exact (hstep _ ha).trans (cbStep_of_word (s := s.takeTurn) hs hword)
  · obtain ⟨f, rfl⟩ := decodeFlags_branchOf hd
    exact (hstep _ ha).trans (svcStep_of_branch (s := s.takeTurn) hs hd)
  · obtain ⟨_, _, hturn⟩ := step_next ht
    cases agentStep_cases hturn with
    | runs i hi hexec => exact .inl ⟨i, hi.not_internal, hexec⟩
    | entry ha hs _ h => exact .inr (.inl ⟨ha, hs, h⟩)
    | exit ha hs h => exact .inr (.inr (.inl ⟨ha, hs, h⟩))
    | returns ha hs _ h => exact .inr (.inr (.inr ⟨ha, hs, h⟩))

/-- Settles O41: the bits of SVC's word are the snapshot's from SV_NEXT on, and the decoder takes the lowest. -/
theorem serviceTakesTheLowestRemainingFlag : Obligations.ServiceTakesTheLowestRemainingFlag := by
  refine fun s hs => ⟨fun f hf hn hlow => ?_, fun hnone => ?_⟩
  · have hd : decodeFlags s.svcWord = .instr (branchOf f) := by
      refine decodeFlags_of_lowest ((svcWord_flag s f).mpr ⟨hn, hf⟩) fun g hg => ?_
      obtain ⟨hgn, hgs⟩ := (svcWord_flag s g).mp hg
      exact hlow g hgs hgn
    refine (svcStep_of_branch hs hd).trans ?_
    cases f <;> rfl
  · have hd : decodeFlags s.svcWord = .rejected .noFlag := by
      refine decodeFlags_of_none fun f => Bool.eq_false_iff.mpr fun hbit => ?_
      obtain ⟨hn, hset⟩ := (svcWord_flag s f).mp hbit
      exact Bool.false_ne_true ((hnone f hn).symm.trans hset)
    exact svcStep_of_no_flag hs hd

/-- A command leaves SV_STATE (R207). -/
theorem exec_decodeCmd_svState {s t : State} {w : Word} (h : exec (decodeCmd w) s = .next t) : t.svState = s.svState :=
  exec_frame h .svState (sequencer_not_mem_writes (by simp [decodeCmd_format])).1

/-- Settles O46: the word at CB_PC decides between a command and the return. -/
theorem callbacksReturnAtTheEndOfTheProgram : Obligations.CallbacksReturnAtTheEndOfTheProgram := by
  intro s prog hs hprog
  have hword : s.cbWord = prog[s.cbPc]? := cbWord_of_handler hprog
  refine ⟨fun hend => ?_, fun w hw => cbStep_of_word hs (hword.trans hw), fun t hlt h => ?_⟩
  · exact cbStep_of_end hs (hword.trans (List.getElem?_eq_none hend.ge))
  · have hw : s.cbWord = some prog[s.cbPc] := hword.trans (List.getElem?_eq_getElem hlt)
    have hexec : exec (decodeCmd prog[s.cbPc]) s = .next t := (cbStep_of_word hs hw).symm.trans h
    exact (exec_decodeCmd_svState hexec).trans hs

/-! ### The bound of an invocation (R143, R205) -/

/-- What a step can do to the sequencer of an engine that is not idle: exit; a service branch, past its bit; a return; or,
by CB and BUS, nothing. -/
inductive InvocationStep (s t : State) (a : AgentTurn) : Prop where
  | exit (ha : a = .svc) (h : t = s.serviceExit)
  | branch (ha : a = .svc) (hlt : s.svNext < t.svNext) (hsnap : t.svSnap = s.svSnap)
      (ht : t.svState = .run ∨ t.svState = .call)
  | returns (ha : a = .cb) (hs : s.svState = .call) (h : t = s.callbackReturn)
  | command (ha : a = .cb) (hs : s.svState = .call) (w : Word) (hw : s.cbWord = some w)
      (h : exec (decodeCmd w) s = .next t)
  | symbol (w : Word) (ha : a = .bus w) (i : Instr) (hi : i.isInputSymbol = true) (h : exec i s = .next t)

theorem invocationStep_of_agentStep {s t : State} {a : AgentTurn} (hs : s.svState ≠ .idle)
    (h : s.agentStep a = .next t) : InvocationStep s t a := by
  cases agentStep_cases h with
  | entry _ hidle _ _ => exact absurd hidle hs
  | exit ha _ ht => exact .exit ha ht
  | returns ha hcall _ ht => exact .returns ha hcall ht
  | runs i hi hexec =>
    cases hi with
    | openRead hidle _ => exact absurd hidle hs
    | command hidle _ _ _ => exact absurd hidle hs
    | callback hcall w hw => exact .command rfl hcall w hw hexec
    | symbol w i _ hin => exact .symbol w rfl i hin hexec
    | branch _ f hd =>
      have hlt : s.svNext < t.svNext := by
        rw [exec_branchOf_svNext hexec, Fin.lt_def, Fin.val_succ]
        exact Nat.lt_succ_of_le (svNext_le_of_decodeFlags hd)
      exact .branch rfl hlt (exec_frame hexec .svSnap (svSnap_not_mem_writes _)) (exec_branchOf_svState hexec)

/-- A command or an input symbol leaves the sequencer (R207). -/
theorem exec_keeps_sequencer {s t : State} {i : Instr} (hi : i.format ≠ .if8) (h : exec i s = .next t) :
    t.svState = s.svState ∧ t.svSnap = s.svSnap ∧ t.svNext = s.svNext := by
  obtain ⟨hstate, hnext⟩ := sequencer_not_mem_writes hi
  exact ⟨exec_frame h _ hstate, exec_frame h _ (svSnap_not_mem_writes i), exec_frame h _ hnext⟩

/-- Settles O47: the exit clears, a branch moves SV_NEXT on, and the other steps keep the sequencer's registers. -/
theorem invocationsDoNotNestAndAreBounded : Obligations.InvocationsDoNotNestAndAreBounded := by
  intro s t h hs
  obtain ⟨_, _, hturn⟩ := step_next h
  have hkept {i : Instr} (hi : i.format ≠ .if8) (hexec : exec i s.takeTurn = .next t) :
      t.svState ≠ .idle ∧ t.svSnap = s.svSnap ∧ s.svNext ≤ t.svNext := by
    obtain ⟨hstate, hsnap, hnext⟩ := exec_keeps_sequencer hi hexec
    exact ⟨fun ht => hs (hstate.symm.trans ht), hsnap, hnext.ge⟩
  cases invocationStep_of_agentStep (s := s.takeTurn) hs hturn with
  | exit ha ht => exact .inl ⟨ht ▸ rfl, ht ▸ rfl, ht ▸ rfl, ha⟩
  | branch ha hlt hsnap ht =>
    have hactive : t.svState ≠ .idle := by rcases ht with ht | ht <;> simp [ht]
    exact .inr ⟨hactive, hsnap, hlt.le, fun _ => hlt⟩
  | returns ha hcall ht => exact .inr ⟨ht ▸ nofun, ht ▸ rfl, ht ▸ le_rfl, fun hsvc => by simp [ha] at hsvc⟩
  | command ha _ w _ hexec =>
    obtain ⟨hstate, hsnap, hnext⟩ := hkept (by simp [decodeCmd_format]) hexec
    exact .inr ⟨hstate, hsnap, hnext, fun hsvc => by simp [ha] at hsvc⟩
  | symbol w ha i hin hexec =>
    obtain ⟨hstate, hsnap, hnext⟩ := hkept (by simp [format_of_isInputSymbol hin]) hexec
    exact .inr ⟨hstate, hsnap, hnext, fun hsvc => by simp [ha] at hsvc⟩

/-- Settles O48: no row that another agent issues writes the foreground's fields, and the sequencer's own steps do not. -/
theorem interruptContextPreservesTheForeground : Obligations.InterruptContextPreservesTheForeground := by
  rintro s t a rfl ha h
  obtain ⟨_, _, hturn⟩ := step_next h
  cases agentStep_cases hturn with
  | runs i hi hexec => exact hi.keepsForeground ha hexec
  | entry _ _ _ ht => rw [ht]; exact ⟨rfl, rfl, rfl⟩
  | exit _ _ ht => rw [ht]; exact ⟨rfl, rfl, rfl⟩
  | returns _ _ _ ht => rw [ht]; exact ⟨rfl, rfl, rfl⟩

/-! ### R155: the measure of an invocation, and the run back to SV_IDLE (R208) -/

/-- What an invocation has left: the bits SV_NEXT has not passed, then the words of a running callback and its return. -/
def invocationMeasure (s : State) : ℕ ×ₗ ℕ :=
  toLex (7 - s.svNext.val,
    if s.svState = .call then ((s.handlerOf s.cbHid).getD []).length - s.cbPc + 1 else 0)

/-- The agent that has the next step of an invocation. -/
def invocationAgent (s : State) : AgentTurn := if s.svState = .call then .cb else .svc

/-- A BUS step changes nothing that the invocation's progress rests on. -/
theorem exec_symbol_keeps_invocation {s t : State} {i : Instr} (hi : i.isInputSymbol = true) (h : exec i s = .next t) :
    t.svState = s.svState ∧ invocationMeasure t = invocationMeasure s := by
  have hkept : t.svState = s.svState ∧ t.svNext = s.svNext ∧ t.cbHid = s.cbHid ∧ t.cbPc = s.cbPc ∧
      t.params = s.params := by
    have hout : .svState ∉ writes i ∧ .svNext ∉ writes i ∧ .cbHid ∉ writes i ∧ .cbPc ∉ writes i := by
      cases i <;> cases hi <;> simp [writes]
    obtain ⟨h1, h2, h3, h4⟩ := hout
    exact ⟨exec_frame h _ h1, exec_frame h _ h2, exec_frame h _ h3, exec_frame h _ h4,
      exec_frame h _ (params_not_mem_writes i)⟩
  obtain ⟨hstate, hnext, hhid, hpc, hparams⟩ := hkept
  exact ⟨hstate, by simp only [invocationMeasure, State.handlerOf, hstate, hnext, hhid, hpc, hparams]⟩

/-- A command of a callback that leaves no fault and no refusal is one word of the program done. -/
theorem exec_command_measure_lt {s t : State} {w : Word} (hs : s.svState = .call) (hw : s.cbWord = some w)
    (h : exec (decodeCmd w) s = .next t) (hf : t.fault = none) (hr : t.refused = none) :
    invocationMeasure t < invocationMeasure s := by
  have hlt : s.cbPc < ((s.handlerOf s.cbHid).getD []).length := (List.getElem?_eq_some_iff.mp hw).1
  cases exec_command_of_call hs (decodeCmd_format w) h with
  | faulted r ht =>
    have hsome : (s.raiseFault r).fault ≠ none := by cases hq : s.fault <;> simp [State.raiseFault, hq]
    exact absurd (ht ▸ hf) hsome
  | refused r ht =>
    have hsome : (s.refuse r).refused ≠ none := by cases hq : s.refused <;> simp [State.refuse, hq]
    exact absurd (ht ▸ hr) hsome
  | returned u v hu ht =>
    have hstate : u.svState = .call := (hu .svState (by simp)).trans hs
    have hnext : u.svNext = s.svNext := hu .svNext (by simp)
    have hpc : u.cbPc = s.cbPc := hu .cbPc (by simp)
    have hhid : u.cbHid = s.cbHid := hu .cbHid (by simp)
    have hparams : u.params = s.params := hu .params (by simp)
    rw [ht]
    simp only [invocationMeasure, State.result, State.handlerOf, hstate, hs, hnext, hpc, hhid, hparams, if_true,
      Prod.Lex.toLex_lt_toLex]
    simp only [State.handlerOf] at hlt
    exact .inr ⟨trivial, by omega⟩

/-- Every step of SVC or CB in an invocation ends it or brings its end nearer. -/
theorem idle_or_measure_lt {s t : State} {a : AgentTurn} (hs : s.svState ≠ .idle) (ha : ∀ w, a ≠ .bus w)
    (h : s.agentStep a = .next t) (hf : t.fault = none) (hr : t.refused = none) :
    t.svState = .idle ∨ invocationMeasure t < invocationMeasure s := by
  cases invocationStep_of_agentStep hs h with
  | exit _ ht => exact .inl (ht ▸ rfl)
  | branch _ hlt _ _ =>
    have hpast : 7 - t.svNext.val < 7 - s.svNext.val := by
      have := t.svNext.isLt
      have := Fin.lt_def.mp hlt
      omega
    exact .inr (Prod.Lex.toLex_lt_toLex.mpr (.inl hpast))
  | returns _ hcall ht =>
    rw [ht]
    refine .inr (Prod.Lex.toLex_lt_toLex.mpr (.inr ⟨rfl, ?_⟩))
    simp [hcall, State.callbackReturn]
  | command _ hcall w hw hexec => exact .inr (exec_command_measure_lt hcall hw hexec hf hr)
  | symbol w hbus => exact absurd hbus (ha w)

section

variable {r : Nat → State} {c : Nat → AgentTurn}

/-- BUS steps alone leave an invocation where it is. -/
theorem run_keeps_invocation (hrun : IsRun r c) {n m : Nat} (hnm : n ≤ m)
    (hbus : ∀ k, n ≤ k → k < m → ∃ w, c k = .bus w) :
    (r m).svState = (r n).svState ∧ invocationMeasure (r m) = invocationMeasure (r n) := by
  induction m, hnm using Nat.le_induction with
  | base => exact ⟨rfl, rfl⟩
  | succ m hnm ih =>
    obtain ⟨hstate, hmeasure⟩ := ih fun k hk hlt => hbus k hk (Nat.lt_succ_of_lt hlt)
    obtain ⟨w, hw⟩ := hbus m hnm (Nat.lt_succ_self m)
    obtain ⟨_, _, hstep⟩ := hrun m
    rw [hw] at hstep
    obtain ⟨i, _, hin, hexec⟩ := busStep_next hstep
    obtain ⟨hstate', hmeasure'⟩ := exec_symbol_keeps_invocation hin hexec
    exact ⟨hstate'.trans hstate, hmeasure'.trans hmeasure⟩

theorem enabled_invocationAgent {s : State} (hf : s.fault = none) (hr : s.refused = none) (hs : s.svState ≠ .idle) :
    Enabled s (invocationAgent s) := by
  refine ⟨hf, hr, ?_⟩
  cases hst : s.svState with
  | idle => exact absurd hst hs
  | run => simp [invocationAgent, hst]
  | call => simp [invocationAgent, hst]

/-- Fairness: in an active engine some agent but BUS has a turn, for its own stays enabled under BUS steps (R208). -/
theorem exists_turn_not_bus (hrun : IsRun r c) (hfair : IsFair r c) {n : Nat} (hs : (r n).svState ≠ .idle) :
    ∃ m, n ≤ m ∧ ∀ w, c m ≠ .bus w := by
  by_contra hnone
  have hbus (k : Nat) (hk : n ≤ k) : ∃ w, c k = .bus w := by
    by_contra hk'
    exact hnone ⟨k, hk, fun w hw => hk' ⟨w, hw⟩⟩
  have hstay (m : Nat) (hm : n ≤ m) : Enabled (r m) (invocationAgent (r n)) := by
    obtain ⟨hstate, _⟩ := run_keeps_invocation hrun hm fun k hk _ => hbus k hk
    obtain ⟨hf, hr, _⟩ := hrun m
    have hagent : invocationAgent (r m) = invocationAgent (r n) := by simp only [invocationAgent, hstate]
    exact hagent ▸ enabled_invocationAgent hf hr (hstate ▸ hs)
  have hmem : invocationAgent (r n) ∈ [AgentTurn.svc, .cb, .fg] := by
    unfold invocationAgent
    split <;> simp
  obtain ⟨m, hm, hturn⟩ := hfair _ hmem n hstay
  obtain ⟨w, hw⟩ := hbus m hm
  rw [hw] at hturn
  simp [← hturn] at hmem

/-- The first step after `n` that is not BUS's ends the invocation or brings its end nearer. -/
theorem exists_idle_or_measure_lt (hrun : IsRun r c) (hfair : IsFair r c) {n : Nat} (hs : (r n).svState ≠ .idle) :
    ∃ m, n ≤ m ∧ ((r m).svState = .idle ∨ invocationMeasure (r m) < invocationMeasure (r n)) := by
  classical
  have hexists := exists_turn_not_bus hrun hfair hs
  obtain ⟨hm, hturn⟩ := Nat.find_spec hexists
  generalize hfirst : Nat.find hexists = m at hm hturn
  have hbus (k : Nat) (hk : n ≤ k) (hlt : k < m) : ∃ w, c k = .bus w := by
    by_contra hk'
    exact Nat.find_min hexists (hfirst ▸ hlt) ⟨hk, fun w hw => hk' ⟨w, hw⟩⟩
  obtain ⟨hstate, hmeasure⟩ := run_keeps_invocation hrun hm hbus
  obtain ⟨_, _, hstep⟩ := hrun m
  obtain ⟨hf, hr, _⟩ := hrun (m + 1)
  have hprogress := idle_or_measure_lt (hstate ▸ hs) hturn hstep hf hr
  exact ⟨m + 1, Nat.le_succ_of_le hm, hmeasure ▸ hprogress⟩

end

/-- Settles O49: by induction on what the invocation has left. -/
theorem fairRunsReturnToTheForeground : Obligations.FairRunsReturnToTheForeground := by
  intro r c hrun hfair n
  induction hμ : invocationMeasure (r n) using WellFoundedLT.induction generalizing n with
  | ind μ ih =>
    by_cases hs : (r n).svState = .idle
    · exact ⟨n, le_rfl, hs⟩
    · obtain ⟨m, hnm, hidle | hlt⟩ := exists_idle_or_measure_lt hrun hfair hs
      · exact ⟨m, hnm, hidle⟩
      · obtain ⟨k, hmk, hidle⟩ := ih _ (hμ ▸ hlt) m rfl
        exact ⟨k, hnm.trans hmk, hidle⟩

end Sys2Proof.Proofs

/-! PROOFS. The invariant (10_state.md R48, R35, R37, R52): it falls into a part of the front end, a part of the FIFO and a
part of the service engine, and each row keeps each part. -/

namespace Sys2Proof.Proofs

open Sys2Proof Sys2Proof.Machine Sys2Proof.Laws

/-! ### The parts -/

/-- The phases of a transaction the block takes part in (R48 f). -/
def transactionPhases : List Phase := [.aholdW, .aholdR, .rx, .rxhold, .txbusy, .txhold]

/-- R48 (a), (b), (d) and (f) but for COUNT, and no match while OFF. -/
structure FrontSound (s : State) : Prop where
  outOfFollower : s.role ≠ .follower →
    s.phase = .off ∧ s.readIEN = 0 ∧ s.readIF = 0 ∧ s.ftip = false ∧ s.txq = []
  inFollower : s.role = .follower → s.phase ≠ .off ∧ s.readIEN = 0x3F
  txqRange : s.txq.length ≤ s.params.txDepth
  addressedPhases : s.phase ∈ transactionPhases → s.addressed = true
  offNotAddressed : s.phase = .off → s.addressed = false

/-- R48 (c), the index ranges, the storage form and the open READ. -/
structure FifoSound (s : State) : Prop where
  countRange : s.count ≤ s.params.fifoCap
  wrRange : s.wr.toNat < 2 * s.params.fifoCap
  rdRange : s.rd.toNat < 2 * s.params.fifoCap
  memory : Memory.fits s.fifoMem s.params.fifoCap
  openRead : s.openReadSound

/-- COUNT's part of R48 (a). -/
def EmptyOutOfFollower (s : State) : Prop := s.role ≠ .follower → s.count = 0

/-- R48 (e), the cleared sequencer of an idle engine, and the running handler. -/
structure EngineSound (s : State) : Prop where
  engineInFollower : s.svState ≠ .idle → s.role = .follower
  idleCleared : s.svState = .idle → s.svSnap = 0 ∧ s.svNext = 0
  handlerExists : s.svState = .call → (s.handlerOf s.cbHid).isSome = true

section

variable {s t u : State} {i : Instr}

theorem inv_of_parts (hfront : FrontSound s) (hfifo : FifoSound s) (hempty : EmptyOutOfFollower s)
    (hengine : EngineSound s) : Inv s where
  outOfFollower hr := by
    obtain ⟨hp, hien, hif, hftip, hq⟩ := hfront.outOfFollower hr
    exact ⟨hp, hien, hif, hftip, hq, hempty hr⟩
  inFollower := hfront.inFollower
  countRange := hfifo.countRange
  txqRange := hfront.txqRange
  engineInFollower := hengine.engineInFollower
  addressedPhases := hfront.addressedPhases
  wrRange := hfifo.wrRange
  rdRange := hfifo.rdRange
  memory := hfifo.memory
  openRead := hfifo.openRead
  idleCleared := hengine.idleCleared
  handlerExists := hengine.handlerExists
  offNotAddressed := hfront.offNotAddressed

theorem frontSound_of_inv (h : Inv s) : FrontSound s where
  outOfFollower hr := by
    obtain ⟨hp, hien, hif, hftip, hq, _⟩ := h.outOfFollower hr
    exact ⟨hp, hien, hif, hftip, hq⟩
  inFollower := h.inFollower
  txqRange := h.txqRange
  addressedPhases := h.addressedPhases
  offNotAddressed := h.offNotAddressed

theorem fifoSound_of_inv (h : Inv s) : FifoSound s := ⟨h.countRange, h.wrRange, h.rdRange, h.memory, h.openRead⟩

theorem emptyOutOfFollower_of_inv (h : Inv s) : EmptyOutOfFollower s := fun hr => by
  obtain ⟨_, _, _, _, _, hcount⟩ := h.outOfFollower hr
  exact hcount

theorem engineSound_of_inv (h : Inv s) : EngineSound s := ⟨h.engineInFollower, h.idleCleared, h.handlerExists⟩

/-! ### What each part depends on -/

/-- The fields of the front end's part. -/
def frontFields : List Field := [.role, .phase, .ifReg, .ien, .ftip, .txq, .addressed, .params]

/-- The fields of the FIFO's part. -/
def fifoFields : List Field := [.fifoMem, .wr, .rd, .fgMicro, .params]

theorem FrontSound.of_kept (h : FrontSound s) (hkept : ∀ f ∈ frontFields, Kept s t f) : FrontSound t := by
  have hrole : t.role = s.role := hkept .role (by simp [frontFields])
  have hphase : t.phase = s.phase := hkept .phase (by simp [frontFields])
  have hif : t.ifReg = s.ifReg := hkept .ifReg (by simp [frontFields])
  have hien : t.ien = s.ien := hkept .ien (by simp [frontFields])
  have hftip : t.ftip = s.ftip := hkept .ftip (by simp [frontFields])
  have hq : t.txq = s.txq := hkept .txq (by simp [frontFields])
  have ha : t.addressed = s.addressed := hkept .addressed (by simp [frontFields])
  have hparams : t.params = s.params := hkept .params (by simp [frontFields])
  constructor
  · rw [hrole, hphase, State.readIEN, hien, State.readIF, hif, hftip, hq]; exact h.outOfFollower
  · rw [hrole, hphase, State.readIEN, hien]; exact h.inFollower
  · rw [hq, hparams]; exact h.txqRange
  · rw [hphase, ha]; exact h.addressedPhases
  · rw [hphase, ha]; exact h.offNotAddressed

theorem FifoSound.of_kept (h : FifoSound s) (hkept : ∀ f ∈ fifoFields, Kept s t f) : FifoSound t := by
  have hmem : t.fifoMem = s.fifoMem := hkept .fifoMem (by simp [fifoFields])
  have hwr : t.wr = s.wr := hkept .wr (by simp [fifoFields])
  have hrd : t.rd = s.rd := hkept .rd (by simp [fifoFields])
  have hm : t.fgMicro = s.fgMicro := hkept .fgMicro (by simp [fifoFields])
  have hparams : t.params = s.params := hkept .params (by simp [fifoFields])
  constructor
  · rw [State.count, hwr, hrd, hparams]; exact h.countRange
  · rw [hwr, hparams]; exact h.wrRange
  · rw [hrd, hparams]; exact h.rdRange
  · rw [hmem, hparams]; exact h.memory
  · simp only [State.openReadSound, State.memRead, State.slot, hm, hrd, hwr, hmem, hparams]; exact h.openRead

/-- A row that writes none of a part's fields keeps the part. -/
theorem exec_kept {fields : List Field} (h : exec i s = .next t) (hout : ∀ f ∈ fields, f ∉ writes i) :
    ∀ f ∈ fields, Kept s t f := fun f hf => exec_frame h f (hout f hf)

theorem Frame.kept {W fields : List Field} (h : Frame W s t) (hout : ∀ f ∈ fields, f ∉ W) : ∀ f ∈ fields, Kept s t f :=
  fun f hf => h f (hout f hf)

/-! ### The front end's part (R48 a, b, d, f) -/

theorem FrontSound.follower_of_phase (h : FrontSound s) (hp : s.phase ≠ .off) : s.role = .follower := by
  by_contra hr
  exact hp (h.outOfFollower hr).1

theorem FrontSound.follower_of_ftip (h : FrontSound s) (hf : s.ftip = true) : s.role = .follower := by
  by_contra hr
  obtain ⟨_, _, _, hftip, _⟩ := h.outOfFollower hr
  simp [hftip] at hf

/-- In FOLLOWER a change of the front end is sound if the phase is on, TXQ within T, and a transaction's phase addressed. -/
theorem FrontSound.of_follower (h : FrontSound s) (hs : s.role = .follower) (hrole : t.role = s.role)
    (hien : t.ien = s.ien) (hp : t.phase ≠ .off) (hq : t.txq.length ≤ t.params.txDepth)
    (ha : t.phase ∈ transactionPhases → t.addressed = true) : FrontSound t where
  outOfFollower hr := absurd (hrole.trans hs) hr
  inFollower _ := ⟨hp, by rw [State.readIEN, hien]; exact (h.inFollower hs).2⟩
  txqRange := hq
  addressedPhases := ha
  offNotAddressed hoff := absurd hoff hp

theorem ackEffect_frontSound (hack : AckEffect s t) (h : FrontSound s) : FrontSound t := by
  have hq := h.txqRange
  rcases hack with rfl | ⟨hp, rfl⟩ | ⟨b, rest, hp, hcons, rfl⟩ | ⟨b, rest, hp, hcons, rfl⟩
  · exact h
  · have hin : s.phase ∈ transactionPhases := by rcases hp with hp | hp <;> simp [hp, transactionPhases]
    have hon : s.phase ≠ .off := by rcases hp with hp | hp <;> simp [hp]
    exact h.of_follower (h.follower_of_phase hon) rfl rfl nofun hq fun _ => h.addressedPhases hin
  · rw [hcons] at hq
    exact h.of_follower (h.follower_of_phase (by simp [hp])) rfl rfl nofun (Nat.le_of_succ_le hq)
      fun _ => h.addressedPhases (by simp [hp, transactionPhases])
  · rw [hcons] at hq
    exact h.of_follower (h.follower_of_phase (by simp [hp])) rfl rfl nofun (Nat.le_of_succ_le hq)
      fun _ => h.addressedPhases (by simp [hp, transactionPhases])

theorem callEffect_frontSound {k : CbKind} {arg : Word} (hcall : CallEffect s t k arg) (h : FrontSound s) : FrontSound t :=
  h.of_kept ((callEffect_frame hcall).kept (by simp [frontFields]))

/-- In FOLLOWER the flags and FTIP are free, as is everything that is no part of the front end. -/
theorem FrontSound.of_flags (h : FrontSound s) (hs : s.role = .follower)
    (hkept : Frame [.ifReg, .ftip, .svNext, .fifoMem, .wr] s t) : FrontSound t := by
  have hphase : t.phase = s.phase := hkept .phase (by simp)
  have hq : t.txq = s.txq := hkept .txq (by simp)
  have hparams : t.params = s.params := hkept .params (by simp)
  have ha : t.addressed = s.addressed := hkept .addressed (by simp)
  refine h.of_follower hs (hkept .role (by simp)) (hkept .ien (by simp)) ?_ ?_ ?_
  · rw [hphase]; exact (h.inFollower hs).1
  · rw [hq, hparams]; exact h.txqRange
  · rw [hphase, ha]; exact h.addressedPhases

/-- An input symbol keeps the front end's part: one with an effect finds the phase on, so FOLLOWER. -/
theorem exec_symbol_frontSound (hi : i.isInputSymbol = true) (hfront : FrontSound s) (h : exec i s = .next t) :
    FrontSound t := by
  have he := exec_next i s t h
  have hq := hfront.txqRange
  -- the symbols that end in IDLE or NACKED, where nothing is asked of ADDRESSED
  have hends (hon : s.phase ≠ .off) (hrole : t.role = s.role) (hien : t.ien = s.ien)
      (ht : t.phase = .idle ∨ t.phase = .nacked) (hq : t.txq.length ≤ t.params.txDepth) : FrontSound t :=
    hfront.of_follower (hfront.follower_of_phase hon) hrole hien (by rcases ht with ht | ht <;> simp [ht]) hq
      fun hin => by rcases ht with ht | ht <;> simp [ht, transactionPhases] at hin
  have hon {p q r : Phase} (hp : s.phase = p ∨ s.phase = q ∨ s.phase = r) (hne : Phase.off ∉ [p, q, r]) :
      s.phase ≠ .off := fun hoff => hne (by rw [hoff] at hp; simpa using hp)
  cases i <;> cases hi
  case startAddr a d =>
    rcases he with ⟨_, rfl⟩ | ⟨hp, ⟨_, rfl⟩ | ⟨_, rfl⟩⟩
    · exact hfront
    · refine hfront.of_follower (hfront.follower_of_phase (hon hp (by simp))) rfl rfl ?_ (Nat.zero_le _) fun _ => rfl
      cases d <;> simp
    · exact hends (hon hp (by simp)) rfl rfl (.inl rfl) hq
  case wbyte b =>
    rcases he with ⟨_, rfl⟩ | ⟨hp, rfl⟩
    · exact hfront
    · exact hfront.of_follower (hfront.follower_of_phase (by simp [hp])) rfl rfl nofun hq
        fun _ => hfront.addressedPhases (by simp [hp, transactionPhases])
  case cack =>
    rcases he with ⟨_, rfl⟩ | ⟨hp, ⟨_, rfl⟩ | ⟨b, rest, hcons, rfl⟩⟩
    · exact hfront
    · exact hfront.of_follower (hfront.follower_of_phase (by simp [hp])) rfl rfl nofun hq
        fun _ => hfront.addressedPhases (by simp [hp, transactionPhases])
    · rw [hcons] at hq
      exact hfront.of_follower (hfront.follower_of_phase (by simp [hp])) rfl rfl nofun (Nat.le_of_succ_le hq)
        fun _ => hfront.addressedPhases (by simp [hp, transactionPhases])
  case cnack =>
    rcases he with ⟨_, rfl⟩ | ⟨hp, rfl⟩
    · exact hfront
    · exact hends (by simp [hp]) rfl rfl (.inr rfl) hq
  case stop =>
    rcases he with ⟨_, rfl⟩ | ⟨hp, ⟨_, rfl⟩ | ⟨_, rfl⟩⟩
    · exact hfront
    · exact hends (hon hp (by simp)) rfl rfl (.inl rfl) (Nat.zero_le _)
    · exact hends (hon hp (by simp)) rfl rfl (.inl rfl) (Nat.zero_le _)
  case arblost | buserr =>
    rcases he with ⟨_, rfl⟩ | ⟨hp, rfl⟩
    · exact hfront
    · exact hends hp rfl rfl (.inl rfl) (Nat.zero_le _)

/-- fe_cmd(NACK) ends a hold in NACKED. -/
theorem feCmdNack_frontSound (hfront : FrontSound s) : FrontSound s.feCmdNack := by
  rcases feCmdNack_cases s with hn | ⟨hp, hn⟩ <;> rw [hn]
  · exact hfront
  · have hon : s.phase ≠ .off := by rcases hp with hp | hp | hp <;> simp [hp]
    exact hfront.of_follower (hfront.follower_of_phase hon) rfl rfl nofun hfront.txqRange
      fun hin => by simp [transactionPhases] at hin

theorem exec_feNack_next (h : exec .feNack s = .next t) : t = s.feCmdNack := by
  change execFeNack s = _ at h
  unfold execFeNack at h
  split at h <;> cases h
  rfl

/-- A service branch keeps the front end's part: the engine runs in FOLLOWER only. -/
theorem branchEffect_frontSound (hfront : FrontSound s) (hs : s.role = .follower) (f : Flag) :
    FrontSound (branchEffect f s) := by
  cases f
  case arblost | buserr | sstop => exact hfront.of_flags hs ((setFtip_frame false).mono (by simp))
  case addr =>
    have hftip : FrontSound (withFtip s) := hfront.of_flags hs ((setFtip_frame true).mono (by simp))
    cases hdir : s.addrStatus.getLsbD 0
    · rw [branchEffect, addrBranch_of_write hdir]
      exact ackEffect_frontSound (feCmdAck_cases _) hftip
    · rw [branchEffect, addrBranch_of_read hdir]
      exact callEffect_frontSound (callHandler_cases _ _ _) hftip
  case rxdatav =>
    rw [branchEffect, State.rxdatavBranch]
    split
    · exact feCmdNack_frontSound hfront
    · have hput : FrontSound (s.fifoPut s.rxData).1 := by
        rcases fifoPut_cases s s.rxData with ⟨_, hput⟩ | ⟨_, hput⟩ <;> rw [hput]
        · exact hfront
        · exact hfront.of_flags hs ((stored_frame s.rxData).mono (by simp))
      exact callEffect_frontSound (callHandler_cases _ _ _) (ackEffect_frontSound (feCmdAck_cases _) hput)
  case ack => exact callEffect_frontSound (callHandler_cases _ _ _) hfront

theorem exec_branchOf_frontSound {f : Flag} (hfront : FrontSound s) (hengine : EngineSound s)
    (h : exec (branchOf f) s = .next t) : FrontSound t := by
  rw [exec_branchOf] at h
  obtain ⟨hrun, rfl⟩ := serviceStep_next h
  have hs : s.role = .follower := hengine.engineInFollower (by simp [hrun])
  exact branchEffect_frontSound (hfront.of_flags hs ((serviced_frame f).mono (by simp))) hs f

theorem exec_write_frontSound {b : Byte} (hfront : FrontSound s) (h : exec (.write b) s = .next t) : FrontSound t := by
  obtain ⟨ctx, _, ⟨_, rfl⟩ | ⟨_, ⟨_, rfl⟩ | ⟨_, _, rfl⟩ | ⟨hftip, _, hroom, u, hack, rfl⟩ | ⟨_, _, _, rfl⟩⟩⟩ :=
    exec_next _ s t h
  · exact hfront.of_kept ((refuse_frame (W := []) _).kept (by simp))
  · exact hfront.of_kept ((result_frame ctx _).kept (by simp [frontFields]))
  · exact hfront.of_kept ((raiseFault_frame (W := []) _).kept (by simp))
  · have hs := hfront.follower_of_ftip hftip
    have hqueued : FrontSound (queued s b) := by
      refine hfront.of_follower hs rfl rfl (hfront.inFollower hs).1 ?_ hfront.addressedPhases
      simpa [queued] using hroom
    exact (ackEffect_frontSound hack hqueued).of_kept ((result_frame (.cb .req) 1).kept (by simp [frontFields]))
  · exact hfront.of_kept ((result_frame (.cb .req) 0).kept (by simp [frontFields]))

/-- ACTIVATE_F enables every flag (R167). -/
theorem readIEN_eq_flagBits (h : s.ien = 0x3F) : s.readIEN = 0x3F := by
  rw [State.readIEN, h]; rfl

theorem exec_roleCommand_frontSound (hi : i = .activateL ∨ i = .deactivate ∨ ∃ addr, i = .activateF addr)
    (hfront : FrontSound s) (h : exec i s = .next t) : FrontSound t := by
  have he := exec_next i s t h
  have hresult : FrontSound { s with fgRes := s.fgRes ++ [0], fgPc := s.fgPc + 1 } :=
    hfront.of_kept ((result_frame .fg 0).kept (by simp [frontFields]))
  have hfault (r : FaultRecord) : FrontSound (s.raiseFault r) :=
    hfront.of_kept ((raiseFault_frame (W := []) r).kept (by simp))
  rcases hi with rfl | rfl | ⟨addr, rfl⟩
  · rcases he with ⟨_, _, ⟨hr, rfl⟩ | ⟨_, rfl⟩⟩ | ⟨_, rfl⟩
    · obtain ⟨hout, _, hq, ha, hoff⟩ := hfront
      exact ⟨fun _ => hout (by simp [hr]), nofun, hq, ha, hoff⟩
    · exact hresult
    · exact hfault _
  · rcases he with ⟨_, _, rfl⟩ | ⟨_, _, rfl⟩
    · exact ⟨fun _ => ⟨rfl, readIEN_eq_zero rfl, readIF_eq_zero rfl, rfl, rfl⟩, nofun, Nat.zero_le _,
        fun hin => by simp [transactionPhases] at hin, fun _ => rfl⟩
    · exact hfault _
  · rcases he with ⟨_, _, ⟨_, rfl⟩ | ⟨_, rfl⟩⟩ | ⟨_, _, rfl⟩
    · exact ⟨fun hr => absurd rfl hr, fun _ => ⟨nofun, readIEN_eq_flagBits rfl⟩, Nat.zero_le _,
        fun hin => by simp [transactionPhases] at hin, nofun⟩
    · exact hresult
    · exact hfault _

/-- Every row keeps the front end's part. -/
theorem exec_frontSound (hfront : FrontSound s) (hengine : EngineSound s) (h : exec i s = .next t) : FrontSound t := by
  cases i
  case activateL => exact exec_roleCommand_frontSound (.inl rfl) hfront h
  case deactivate => exact exec_roleCommand_frontSound (.inr (.inl rfl)) hfront h
  case activateF addr => exact exec_roleCommand_frontSound (.inr (.inr ⟨addr, rfl⟩)) hfront h
  case write => exact exec_write_frontSound hfront h
  case startAddr | wbyte | cack | cnack | stop | arblost | buserr => exact exec_symbol_frontSound rfl hfront h
  case ifArblost => exact exec_branchOf_frontSound (f := .arblost) hfront hengine h
  case ifBuserr => exact exec_branchOf_frontSound (f := .buserr) hfront hengine h
  case ifSstop => exact exec_branchOf_frontSound (f := .sstop) hfront hengine h
  case ifAddr => exact exec_branchOf_frontSound (f := .addr) hfront hengine h
  case ifRxdatav => exact exec_branchOf_frontSound (f := .rxdatav) hfront hengine h
  case ifAck => exact exec_branchOf_frontSound (f := .ack) hfront hengine h
  case feAck => exact ackEffect_frontSound (exec_next _ _ _ h) hfront
  case feNack => exact exec_feNack_next h ▸ feCmdNack_frontSound hfront
  all_goals exact hfront.of_kept (exec_kept h (by simp [frontFields, writes]))

/-! ### The FIFO's part (R48 c, R35, R37, R52) -/

theorem FifoSound.inRange (h : FifoSound s) : InRange s := ⟨h.wrRange, h.rdRange⟩

theorem openReadSound_of_none (h : s.fgMicro = .none) : s.openReadSound := by
  rw [State.openReadSound, h]; trivial

/-- An open READ has found a byte, and holds RD (R37). -/
theorem FifoSound.openRead_index (h : FifoSound s) (hm : s.fgMicro ≠ .none) : s.wr ≠ s.rd := by
  have hopen := h.openRead
  unfold State.openReadSound at hopen
  split at hopen
  · exact absurd ‹_› hm
  · exact hopen.2
  · exact hopen.2.1

theorem FifoSound.of_open1 {r : Word} (h : FifoSound s) (hm : s.fgMicro = .open1 r) : s.rd = r := by
  have hopen := h.openRead
  rw [State.openReadSound, hm] at hopen
  exact hopen.1

theorem FifoSound.of_open2 {r : Word} {b : Byte} (h : FifoSound s) (hm : s.fgMicro = .open2 r b) :
    s.rd = r ∧ b = s.memRead (s.slot s.rd) := by
  have hopen := h.openRead
  rw [State.openReadSound, hm] at hopen
  exact ⟨hopen.1, hopen.2.2⟩

/-- STORE below N writes another slot than an open READ's (R94, R100). -/
theorem stored_fifoSound (h : FifoSound s) (hc : s.count < s.params.fifoCap) (b : Byte) : FifoSound (stored s b) := by
  have hcount : (stored s b).count = s.count + 1 := stored_count h.inRange hc b
  have hwr : (stored s b).wr.toNat < 2 * (stored s b).params.fifoCap := advance_lt h.wrRange
  have hrange : InRange (stored s b) := ⟨hwr, h.rdRange⟩
  refine ⟨by rw [hcount]; exact hc, hwr, h.rdRange, write_fits h.memory (s.slot s.wr).isLt b, ?_⟩
  have hne : (stored s b).wr ≠ s.rd := fun he => by simp [(count_eq_zero hrange).mpr he] at hcount
  cases hm : s.fgMicro with
  | none => exact openReadSound_of_none hm
  | open1 r =>
    show (stored s b).openReadSound
    rw [State.openReadSound, show (stored s b).fgMicro = _ from hm]
    exact ⟨h.of_open1 hm, hne⟩
  | open2 r x =>
    obtain ⟨hr, hx⟩ := h.of_open2 hm
    have hold : s.wr ≠ s.rd := h.openRead_index (by simp [hm])
    have hpos : 0 < s.count := Nat.pos_of_ne_zero fun h0 => hold ((count_eq_zero h.inRange).mp h0)
    have hslot := unread_slot_ne h.inRange hc hpos
    rw [Nat.add_zero, Nat.mod_eq_of_lt h.rdRange] at hslot
    show (stored s b).openReadSound
    rw [State.openReadSound, show (stored s b).fgMicro = _ from hm]
    refine ⟨hr, hne, hx.trans ?_⟩
    exact ((read_write h.memory.1 _ b _).trans (if_neg hslot)).symm

/-- Taking the oldest byte (R92, R95). -/
theorem taken_fifoSound (h : FifoSound s) (hne : s.wr ≠ s.rd) :
    FifoSound { s with rd := s.advance s.rd, fgMicro := .none } := by
  have hcount := count_advance_rd (t := { s with rd := s.advance s.rd, fgMicro := .none }) h.inRange hne rfl rfl rfl
  refine ⟨?_, h.wrRange, advance_lt h.rdRange, h.memory, openReadSound_of_none rfl⟩
  exact (Nat.le_of_succ_le hcount.le).trans h.countRange

/-- Equal indices mean an empty FIFO whatever they were before (R98). -/
theorem count_of_cleared (hwr : s.wr = 0) (hrd : s.rd = 0) : s.count = 0 := by
  have hpos : 0 < 2 * s.params.fifoCap := Nat.mul_pos Nat.two_pos s.params.fifoCap_pos
  exact (count_eq_zero ⟨by rw [hwr]; exact hpos, by rw [hrd]; exact hpos⟩).mpr (hwr.trans hrd.symm)

/-- CLEAR with no READ open (R98, R105). -/
theorem cleared_fifoSound (h : FifoSound s) (hm : s.fgMicro = .none) : FifoSound { s with wr := 0, rd := 0 } := by
  have hpos : 0 < 2 * s.params.fifoCap := Nat.mul_pos Nat.two_pos s.params.fifoCap_pos
  have hcount : ({ s with wr := 0, rd := 0 } : State).count = 0 := count_of_cleared rfl rfl
  exact ⟨hcount ▸ Nat.zero_le _, hpos, hpos, h.memory, openReadSound_of_none hm⟩

/-- C1 and C2 (R93, R94). -/
theorem opened1_fifoSound (h : FifoSound s) (hne : s.wr ≠ s.rd) : FifoSound { s with fgMicro := .open1 s.rd } :=
  ⟨h.countRange, h.wrRange, h.rdRange, h.memory, rfl, hne⟩

theorem opened2_fifoSound {r : Word} (h : FifoSound s) (hm : s.fgMicro = .open1 r) :
    FifoSound { s with fgMicro := .open2 r (s.memRead (s.slot r)) } := by
  have hne := h.openRead_index (by simp [hm])
  obtain rfl := h.of_open1 hm
  exact ⟨h.countRange, h.wrRange, h.rdRange, h.memory, rfl, hne, rfl⟩

theorem fifoGet_fifoSound (h : FifoSound s) (hm : s.fgMicro = .none) : FifoSound s.fifoGet.1 := by
  by_cases he : s.wr = s.rd
  · rw [fifoGet_of_empty he]; exact h
  · rw [fifoGet_of_nonempty he]
    refine (taken_fifoSound h he).of_kept fun f hf => ?_
    cases f <;> try rfl
    exact hm

theorem fifoGetFg_fifoSound (h : FifoSound s) : FifoSound s.fifoGetFg.1 := by
  cases hm : s.fgMicro with
  | none =>
    by_cases he : s.wr = s.rd
    · rw [fifoGetFg_of_empty hm he]; exact h
    · rw [fifoGetFg_of_nonempty hm he]; exact opened1_fifoSound h he
  | open1 r => rw [fifoGetFg_of_open1 hm]; exact opened2_fifoSound h hm
  | open2 r b =>
    rw [fifoGetFg_of_open2 hm, ← (h.of_open2 hm).1]
    exact taken_fifoSound h (h.openRead_index (by simp [hm]))

theorem result_fifoSound (ctx : Ctx) (v : Word) (h : FifoSound s) : FifoSound (s.result ctx v) :=
  h.of_kept ((result_frame ctx v).kept (by simp [fifoFields]))

theorem readResult_fifoSound (ctx : Ctx) {p : State × FifoReply} (h : FifoSound p.1) :
    FifoSound (State.readResult ctx p) := by
  unfold State.readResult
  split
  · exact result_fifoSound ctx _ h
  · exact result_fifoSound ctx _ h
  · exact h

theorem withReply_fifoSound {p : State × FifoReply} (h : FifoSound p.1) : FifoSound (State.withReply p) :=
  h.of_kept fun f _ => by cases f <;> rfl

theorem raiseFault_fifoSound (r : FaultRecord) (h : FifoSound s) : FifoSound (s.raiseFault r) :=
  h.of_kept ((raiseFault_frame (W := []) r).kept (by simp))

theorem refuse_fifoSound (r : RefusedReason) (h : FifoSound s) : FifoSound (s.refuse r) :=
  h.of_kept ((refuse_frame (W := []) r).kept (by simp))

theorem exec_read_fifoSound (hfifo : FifoSound s) (h : exec .read s = .next t) : FifoSound t := by
  rcases execRead_next h with ⟨_, rfl, _⟩ | ⟨_, _, _, rfl⟩ | ⟨_, _, rfl⟩ | ⟨_, _, rfl⟩
  · exact readResult_fifoSound .fg (fifoGetFg_fifoSound hfifo)
  · exact refuse_fifoSound _ hfifo
  · exact refuse_fifoSound _ hfifo
  · rw [State.readRule]
    split
    · exact raiseFault_fifoSound _ hfifo
    · rename_i hopen
      exact readResult_fifoSound _ (fifoGet_fifoSound hfifo (not_not.mp (consOpen_iff.not.mp hopen)))

theorem exec_fifoRead_fifoSound (hfifo : FifoSound s) (h : exec .fifoRead s = .next t) : FifoSound t := by
  change execFifoRead s = _ at h
  unfold execFifoRead at h
  split at h
  · cases h; exact withReply_fifoSound (fifoGetFg_fifoSound hfifo)
  · split at h <;> cases h
    · exact raiseFault_fifoSound _ hfifo
    · rename_i hopen
      exact withReply_fifoSound (fifoGet_fifoSound hfifo (not_not.mp (consOpen_iff.not.mp hopen)))
  · cases h

theorem fifoPut_fifoSound (b : Byte) (h : FifoSound s) : FifoSound (s.fifoPut b).1 := by
  rcases h.countRange.eq_or_lt with hfull | hroom
  · rw [fifoPut_full (isFull_iff.mpr hfull)]; exact h
  · rw [fifoPut_ok ((not_full_iff h.countRange).mpr hroom)]
    exact stored_fifoSound h hroom b

theorem exec_fifoStore_fifoSound (hfifo : FifoSound s) (h : exec .fifoStore s = .next t) : FifoSound t := by
  obtain ⟨_, rfl⟩ := engineOp_next h
  exact withReply_fifoSound (fifoPut_fifoSound _ hfifo)

theorem exec_ifRxdatav_fifoSound (hfifo : FifoSound s) (h : exec .ifRxdatav s = .next t) : FifoSound t := by
  obtain ⟨_, rfl⟩ := serviceStep_next h
  have hserviced : FifoSound (serviced s .rxdatav) :=
    hfifo.of_kept ((serviced_frame .rxdatav).kept (by simp [fifoFields]))
  show FifoSound (serviced s .rxdatav).rxdatavBranch
  unfold State.rxdatavBranch
  split
  · rcases feCmdNack_cases (serviced s .rxdatav) with hn | ⟨_, hn⟩ <;> rw [hn]
    · exact hserviced
    · exact hserviced.of_kept (by simp [fifoFields, Kept])
  · have hack := (fifoPut_fifoSound (serviced s .rxdatav).rxData hserviced).of_kept
      ((ackEffect_frame (feCmdAck_cases _)).kept (by simp [fifoFields]))
    exact hack.of_kept ((callEffect_frame (callHandler_cases _ _ _)).kept (by simp [fifoFields]))

/-- The role commands keep the FIFO or clear it with no READ open (R90, R105). -/
theorem exec_clear_fifoSound (hi : i = .deactivate ∨ i = .fifoClear ∨ ∃ addr, i = .activateF addr) (hfifo : FifoSound s)
    (h : exec i s = .next t) : FifoSound t := by
  have he := exec_next i s t h
  rcases hi with rfl | rfl | ⟨addr, rfl⟩
  · rcases he with ⟨_, hm, rfl⟩ | ⟨_, _, rfl⟩
    · exact (cleared_fifoSound hfifo hm).of_kept (by simp [fifoFields, Kept])
    · exact raiseFault_fifoSound _ hfifo
  · obtain ⟨_, hm, rfl⟩ := he
    exact (cleared_fifoSound hfifo hm).of_kept (by simp [fifoFields, Kept])
  · rcases he with ⟨_, hm, ⟨_, rfl⟩ | ⟨_, rfl⟩⟩ | ⟨_, _, rfl⟩
    · exact (cleared_fifoSound hfifo hm).of_kept (by simp [fifoFields, Kept])
    · exact hfifo.of_kept (by simp [fifoFields, Kept])
    · exact raiseFault_fifoSound _ hfifo

/-- Every row keeps the FIFO's part. -/
theorem exec_fifoSound (hfifo : FifoSound s) (h : exec i s = .next t) : FifoSound t := by
  cases i
  case read => exact exec_read_fifoSound hfifo h
  case fifoRead => exact exec_fifoRead_fifoSound hfifo h
  case fifoStore => exact exec_fifoStore_fifoSound hfifo h
  case ifRxdatav => exact exec_ifRxdatav_fifoSound hfifo h
  case deactivate => exact exec_clear_fifoSound (.inl rfl) hfifo h
  case fifoClear => exact exec_clear_fifoSound (.inr (.inl rfl)) hfifo h
  case activateF addr => exact exec_clear_fifoSound (.inr (.inr ⟨addr, rfl⟩)) hfifo h
  all_goals exact hfifo.of_kept (exec_kept h (by simp [fifoFields, writes]))

/-! ### COUNT out of FOLLOWER (R48 a) -/

/-- FOLLOWER is left by DEACTIVATE only (R166 to R168). -/
theorem follower_of_exec (h : exec i s = .next t) (hs : s.role = .follower) (hi : i ≠ .deactivate) :
    t.role = .follower := by
  by_cases hw : .role ∈ writes i
  · have he := exec_next i s t h
    rcases role_mem_writes.mp hw with rfl | rfl | ⟨addr, rfl⟩
    · rcases he with ⟨_, _, ⟨hr, _⟩ | ⟨_, rfl⟩⟩ | ⟨_, rfl⟩
      · simp [hr] at hs
      · exact hs
      · exact hs
    · exact absurd rfl hi
    · rcases he with ⟨_, _, ⟨_, rfl⟩ | ⟨_, rfl⟩⟩ | ⟨_, _, rfl⟩
      · rfl
      · exact hs
      · exact hs
  · exact (exec_frame h _ hw).trans hs

/-- While the engine is active FOLLOWER is not left at all: DEACTIVATE needs SV_IDLE (R156, R168). -/
theorem follower_of_exec_active (h : exec i s = .next t) (hs : s.role = .follower) (hactive : s.svState ≠ .idle) :
    t.role = .follower := by
  by_cases hi : i = .deactivate
  · subst hi
    rcases exec_next _ s t h with ⟨hidle, _⟩ | ⟨_, _, rfl⟩
    · exact absurd hidle hactive
    · exact hs
  · exact follower_of_exec h hs hi

theorem count_of_kept (hwr : t.wr = s.wr) (hrd : t.rd = s.rd) (hparams : t.params = s.params) : t.count = s.count := by
  simp only [State.count, hwr, hrd, hparams]

/-- ACTIVATE_F and CLEAR leave COUNT 0 or as it is. -/
theorem exec_clear_count (hi : i = .fifoClear ∨ ∃ addr, i = .activateF addr)
    (h : exec i s = .next t) : t.count = s.count ∨ t.count = 0 := by
  have he := exec_next i s t h
  rcases hi with rfl | ⟨addr, rfl⟩
  · obtain ⟨_, _, rfl⟩ := he
    exact .inr (count_of_cleared rfl rfl)
  · rcases he with ⟨_, _, ⟨_, rfl⟩ | ⟨_, rfl⟩⟩ | ⟨_, _, rfl⟩
    · exact .inr (count_of_cleared rfl rfl)
    · exact .inl rfl
    · exact .inl rfl

theorem exec_deactivate_emptyOutOfFollower (hempty : EmptyOutOfFollower s) (h : exec .deactivate s = .next t) :
    EmptyOutOfFollower t := by
  rcases exec_next _ s t h with ⟨_, _, rfl⟩ | ⟨_, _, rfl⟩
  · exact fun _ => count_of_cleared rfl rfl
  · exact hempty

/-- A READ of an empty FIFO keeps RD (R92, R93). -/
theorem exec_read_rd_of_empty (hfifo : FifoSound s) (hc : s.count = 0) (hi : i = .read ∨ i = .fifoRead)
    (h : exec i s = .next t) : t.rd = s.rd := by
  have hempty : s.wr = s.rd := (count_eq_zero hfifo.inRange).mp hc
  have hclosed : s.fgMicro = .none := by_contra fun hm => hfifo.openRead_index hm hempty
  have hopen {m : FgMicro} (hm : s.fgMicro = m) (hne : m ≠ .none) : False := hne (hm.symm.trans hclosed)
  rcases hi with rfl | rfl
  · rcases exec_next _ s t h with
      ⟨_, _, ⟨_, _, rfl⟩ | ⟨_, _, rfl⟩ | ⟨_, hm, _⟩ | ⟨_, _, hm, _⟩⟩ | ⟨_, _, _, rfl⟩ | ⟨_, _, rfl⟩ |
      ⟨_, _, ⟨_, rfl⟩ | ⟨_, _, rfl⟩ | ⟨_, hne, _⟩⟩
    · exact result_rd s _ _
    · rfl
    · exact (hopen hm nofun).elim
    · exact (hopen hm nofun).elim
    · rfl
    · rfl
    · rfl
    · rfl
    · exact absurd hempty hne
  · rcases exec_next _ s t h with ⟨_, ⟨_, _, rfl⟩ | ⟨_, _, rfl⟩ | ⟨_, hm, _⟩ | ⟨_, _, hm, _⟩⟩ |
      ⟨_, ⟨_, rfl⟩ | ⟨_, _, rfl⟩ | ⟨_, hne, _⟩⟩
    · rfl
    · rfl
    · exact (hopen hm nofun).elim
    · exact (hopen hm nofun).elim
    · rfl
    · rfl
    · exact absurd hempty hne

/-- The producer is the running engine, so it is in FOLLOWER (R48 e). -/
theorem exec_store_follower (hengine : EngineSound s) (hi : i = .ifRxdatav ∨ i = .fifoStore) (h : exec i s = .next t) :
    t.role = .follower := by
  have hrun : s.svState = .run := by
    rcases hi with rfl | rfl
    · exact (serviceStep_next h).1
    · exact (engineOp_next h).1.1
  refine follower_of_exec h (hengine.engineInFollower (by simp [hrun])) ?_
  rcases hi with rfl | rfl <;> simp

/-- Every row keeps COUNT 0 out of FOLLOWER: what fills the FIFO runs in FOLLOWER, and what leaves FOLLOWER empties it. -/
theorem exec_emptyOutOfFollower (hfifo : FifoSound s) (hempty : EmptyOutOfFollower s) (hengine : EngineSound s)
    (h : exec i s = .next t) : EmptyOutOfFollower t := by
  intro hr
  have hs (hi : i ≠ .deactivate) : s.count = 0 := hempty fun hs => hr (follower_of_exec h hs hi)
  have hclear (hi : i = .fifoClear ∨ ∃ addr, i = .activateF addr) (hc : s.count = 0) : t.count = 0 :=
    (exec_clear_count hi h).elim (·.trans hc) id
  have hread (hi : i = .read ∨ i = .fifoRead) : t.count = 0 := by
    have hc : s.count = 0 := hs (by rcases hi with rfl | rfl <;> simp)
    have hwr : .wr ∉ writes i := by rcases hi with rfl | rfl <;> simp [writes]
    have hrd := exec_read_rd_of_empty hfifo hc hi h
    exact (count_of_kept (exec_frame h _ hwr) hrd (exec_frame h _ (params_not_mem_writes i))).trans hc
  cases i
  case read => exact hread (.inl rfl)
  case fifoRead => exact hread (.inr rfl)
  case ifRxdatav => exact absurd (exec_store_follower hengine (.inl rfl) h) hr
  case fifoStore => exact absurd (exec_store_follower hengine (.inr rfl) h) hr
  case fifoClear => exact hclear (.inl rfl) (hs (by simp))
  case activateF addr => exact hclear (.inr ⟨addr, rfl⟩) (hs (by simp))
  case deactivate => exact exec_deactivate_emptyOutOfFollower hempty h hr
  all_goals
    refine (count_of_kept (exec_frame h .wr ?_) (exec_frame h .rd ?_)
      (exec_frame h .params (params_not_mem_writes _))).trans (hs (by simp)) <;> simp [writes]

/-! ### The engine's part (R48 e, R39, R151) -/

/-- What a call leaves runs a handler that exists. -/
theorem callEffect_handler {k : CbKind} {arg : Word} (h : CallEffect s t k arg) (hs : s.svState ≠ .call)
    (ht : t.svState = .call) : (t.handlerOf t.cbHid).isSome = true := by
  rcases h with ⟨_, rfl⟩ | ⟨hsome, rfl⟩
  · exact absurd ht hs
  · exact hsome

theorem exec_branchOf_handler {f : Flag} (h : exec (branchOf f) s = .next t) (ht : t.svState = .call) :
    (t.handlerOf t.cbHid).isSome = true := by
  have he := exec_next _ s t h
  cases f
  case arblost | buserr | sstop => obtain ⟨hs, rfl⟩ := he; cases hs.symm.trans ht
  case addr =>
    obtain ⟨hs, hack | hcall⟩ := he
    · have hrun : t.svState = .run := (ackEffect_frame hack .svState (by simp)).trans hs
      cases hrun.symm.trans ht
    · exact callEffect_handler hcall (fun hc => by cases hs.symm.trans hc) ht
  case rxdatav =>
    obtain ⟨hs, ⟨_, rfl | ⟨_, rfl⟩⟩ | ⟨_, u, _, hack, hcall⟩⟩ := he
    · cases hs.symm.trans ht
    · cases hs.symm.trans ht
    · have hrun : u.svState = .run := (ackEffect_frame hack .svState (by simp)).trans hs
      exact callEffect_handler hcall (fun hc => by cases hrun.symm.trans hc) ht
  case ack =>
    obtain ⟨hs, hcall⟩ := he
    exact callEffect_handler hcall (fun hc => by cases hs.symm.trans hc) ht

/-- A branch leaves the engine active, in FOLLOWER. -/
theorem exec_branchOf_engineSound {f : Flag} (hengine : EngineSound s) (h : exec (branchOf f) s = .next t) :
    EngineSound t := by
  have hrun : s.svState = .run := by
    rw [exec_branchOf] at h
    exact (serviceStep_next h).1
  have hactive : s.svState ≠ .idle := by simp [hrun]
  have hrole : t.role = .follower := follower_of_exec_active h (hengine.engineInFollower hactive) hactive
  refine ⟨fun _ => hrole, fun hidle => ?_, exec_branchOf_handler h⟩
  rcases exec_branchOf_svState h with ht | ht <;> cases ht.symm.trans hidle

/-- Every other row leaves the engine; the role commands change ROLE in SV_IDLE only. -/
theorem exec_engineSound_of_format (hi : i.format ≠ .if8) (hengine : EngineSound s) (h : exec i s = .next t) :
    EngineSound t := by
  obtain ⟨hstate, hsnap, hnext⟩ := exec_keeps_sequencer hi h
  have hparams : t.params = s.params := exec_frame h _ (params_not_mem_writes i)
  have hhid : t.cbHid = s.cbHid := by
    refine exec_frame h .cbHid ?_
    cases i <;> simp [Instr.format] at hi <;> simp [writes]
  refine ⟨fun hactive => ?_, ?_, ?_⟩
  · rw [hstate] at hactive
    exact follower_of_exec_active h (hengine.engineInFollower hactive) hactive
  · rw [hstate, hsnap, hnext]; exact hengine.idleCleared
  · rw [hstate, State.handlerOf, hparams, hhid]; exact hengine.handlerExists

theorem exec_engineSound (hengine : EngineSound s) (h : exec i s = .next t) : EngineSound t := by
  cases i
  case ifArblost => exact exec_branchOf_engineSound (f := .arblost) hengine h
  case ifBuserr => exact exec_branchOf_engineSound (f := .buserr) hengine h
  case ifSstop => exact exec_branchOf_engineSound (f := .sstop) hengine h
  case ifAddr => exact exec_branchOf_engineSound (f := .addr) hengine h
  case ifRxdatav => exact exec_branchOf_engineSound (f := .rxdatav) hengine h
  case ifAck => exact exec_branchOf_engineSound (f := .ack) hengine h
  all_goals exact exec_engineSound_of_format (by simp [Instr.format]) hengine h

/-! ### Every step (R48) -/

theorem exec_inv (hinv : Inv s) (h : exec i s = .next t) : Inv t :=
  inv_of_parts (exec_frontSound (frontSound_of_inv hinv) (engineSound_of_inv hinv) h) (exec_fifoSound (fifoSound_of_inv hinv) h)
    (exec_emptyOutOfFollower (fifoSound_of_inv hinv) (emptyOutOfFollower_of_inv hinv) (engineSound_of_inv hinv) h) (exec_engineSound (engineSound_of_inv hinv) h)

/-- A step of the sequencer alone keeps the invariant if it keeps the engine's part. -/
theorem inv_of_engine (hinv : Inv s) (hkept : Frame [.svState, .svSnap, .svNext] s t) (hengine : EngineSound t) : Inv t := by
  refine inv_of_parts ((frontSound_of_inv hinv).of_kept (hkept.kept (by simp [frontFields])))
    ((fifoSound_of_inv hinv).of_kept (hkept.kept (by simp [fifoFields]))) (fun hr => ?_) hengine
  have hrole : t.role = s.role := hkept .role (by simp)
  have hcount : t.count = s.count := count_of_kept (hkept .wr (by simp)) (hkept .rd (by simp)) (hkept .params (by simp))
  exact hcount.trans (emptyOutOfFollower_of_inv hinv (hrole ▸ hr))

/-- A request is an enabled flag, and IEN is 0 out of FOLLOWER (R48 a). -/
theorem follower_of_irq (hinv : Inv s) (hq : s.irq = true) : s.role = .follower := by
  by_contra hr
  obtain ⟨_, hien, _⟩ := hinv.outOfFollower hr
  simp [State.irq, hien] at hq

theorem takeTurn_inv (hinv : Inv s) : Inv s.takeTurn := by
  have hkept : Frame [] s s.takeTurn := fun f _ => by cases f <;> rfl
  obtain ⟨hfollower, hcleared, hhandler⟩ := engineSound_of_inv hinv
  exact inv_of_engine hinv (hkept.mono (by simp)) ⟨hfollower, hcleared, hhandler⟩

theorem agentStep_inv {a : AgentTurn} (hinv : Inv s) (h : s.agentStep a = .next t) : Inv t := by
  have hsequencer {v : SvState} {b : BitVec 6} {n : Fin 7} :
      Frame [.svState, .svSnap, .svNext] s { s with svState := v, svSnap := b, svNext := n } := fun f hf => by
    cases f <;> try rfl
    all_goals exact absurd (by simp) hf
  cases agentStep_cases h with
  | runs i _ hexec => exact exec_inv hinv hexec
  | entry _ _ hq ht =>
    have hs : s.role = .follower := follower_of_irq hinv hq
    exact ht ▸ inv_of_engine hinv hsequencer ⟨fun _ => hs, nofun, nofun⟩
  | exit _ _ ht =>
    subst ht
    exact inv_of_engine hinv hsequencer ⟨fun hne => absurd rfl hne, fun _ => ⟨rfl, rfl⟩, nofun⟩
  | returns _ hs _ ht =>
    subst ht
    exact inv_of_engine hinv hsequencer ⟨fun _ => hinv.engineInFollower (by simp [hs]), nofun, nofun⟩

theorem step_inv (hinv : Inv s) (h : step s = .next t) : Inv t := by
  obtain ⟨_, _, hturn⟩ := step_next h
  exact agentStep_inv (takeTurn_inv hinv) hturn

/-! ### Reset and reachable states (R46, R216) -/

theorem resetWith_inv {p : Params} {m : List Host.Cell} (q : List AgentTurn) (hm : Memory.fits m p.fifoCap) :
    Inv (State.resetWith p m q) := by
  have hpos : 0 < 2 * p.fifoCap := Nat.mul_pos Nat.two_pos p.fifoCap_pos
  have hcount : (State.resetWith p m q).count = 0 := count_of_cleared rfl rfl
  refine inv_of_parts ?_ ⟨hcount ▸ Nat.zero_le _, hpos, hpos, hm, openReadSound_of_none rfl⟩ (fun _ => hcount)
    ⟨fun hne => absurd rfl hne, fun _ => ⟨rfl, rfl⟩, nofun⟩
  exact ⟨fun _ => ⟨rfl, readIEN_eq_zero rfl, readIF_eq_zero rfl, rfl, rfl⟩, nofun, Nat.zero_le _,
    fun hin => by simp [State.resetWith, transactionPhases] at hin, fun _ => rfl⟩

theorem reachable_inv (h : Reachable s) : Inv s := by
  induction h with
  | reset p m q hm => exact resetWith_inv q hm
  | step _ h ih => exact step_inv ih h

end

/-- Settles O14: a row keeps each part of the invariant, and the sequencer's own steps touch the engine's part alone. -/
theorem everyStepKeepsTheInvariant : Obligations.EveryStepKeepsTheInvariant := by
  exact fun s t hinv h => step_inv hinv h

/-- Settles O13: reset is OFF, empty and idle. -/
theorem theInvariantHoldsAtReset : Obligations.TheInvariantHoldsAtReset :=
  ⟨resetWith_inv [] ⟨rfl, by simp⟩, fun _ _ q hm => resetWith_inv q hm⟩

/-- Settles O15: by induction on the run; R48 is the first part of the invariant. -/
theorem everyReachableStateMeetsR48 : Obligations.EveryReachableStateMeetsR48 := by
  exact fun s h => (reachable_inv h).toRule48

end Sys2Proof.Proofs

/-! PROOFS. The front end over every row (42_bus_protocol.md): what moves PHASE, TXQ and BUS_OUT together, who writes FTIP and
ADDRESSED, and what a hold allows (R134). -/

namespace Sys2Proof.Proofs

open Sys2Proof Sys2Proof.Machine Sys2Proof.Laws

section

variable {s t u : State} {i : Instr}

/-! ### PHASE, TXQ and BUS_OUT, moved together -/

/-- What an acknowledgement sends when TXQ holds `q` (R118, R128): nothing, OUT_ACK, OUT_ACK and the head, or the head. -/
inductive Sent (q : List Byte) (s t : State) : Prop where
  | nothing (hp : t.phase = s.phase) (hq : t.txq = q) (ho : t.busOut = s.busOut)
  | ack (hs : s.phase ∈ [Phase.aholdW, .rxhold]) (hp : t.phase = .rx) (hq : t.txq = q)
      (ho : t.busOut = s.busOut ++ [.ack])
  | ackByte (b : Byte) (hs : s.phase = .aholdR) (hp : t.phase = .txbusy) (hq : q = b :: t.txq)
      (ho : t.busOut = s.busOut ++ [.ack, .byte b])
  | byte (b : Byte) (hs : s.phase ∈ [Phase.txhold, .txbusy]) (hp : t.phase = .txbusy) (hq : q = b :: t.txq)
      (ho : t.busOut = s.busOut ++ [.byte b])

/-- The rows that are an output symbol (R79). -/
def outputRows (i : Instr) : Prop := i = .outAck ∨ i = .outNack ∨ ∃ b, i = .outByte b

/-- What a row can do to PHASE, TXQ and BUS_OUT. -/
inductive FrontChange (s t : State) (i : Instr) : Prop where
  | kept (hp : t.phase = s.phase) (hq : t.txq = s.txq) (ho : t.busOut = s.busOut)
  | queued (b : Byte) (hi : i = .write b) (h : Sent (s.txq ++ [b]) s t)
  | sent (hi : i ∈ [Instr.feAck, .cack, .ifAddr, .ifRxdatav]) (h : Sent s.txq s t)
  | nacked (hi : i ∈ [Instr.feNack, .ifRxdatav]) (hs : s.phase ∈ [Phase.aholdW, .rxhold, .aholdR])
      (hfull : s.isFull = true) (hp : t.phase = .nacked) (hq : t.txq = s.txq) (ho : t.busOut = s.busOut ++ [.nack])
  | moved (hs : s.phase.hold = false) (hq : t.txq = s.txq) (ho : t.busOut = s.busOut)
  | ended (hi : i = .stop ∨ ∃ d, i = .startAddr s.ownAddr d) (hs : s.phase.hold = false) (hq : t.txq = [])
      (ho : t.busOut = s.busOut)
  | aborted (hi : i ∈ [Instr.arblost, .buserr]) (hp : t.phase = .idle) (hq : t.txq = []) (ho : t.busOut = s.busOut)
  | left (hi : i = .deactivate) (hp : t.phase = .off) (hq : t.txq = []) (ho : t.busOut = s.busOut)
  | activated (addr : Addr7) (hi : i = .activateF addr) (hr : s.role = .uninit) (hp : t.phase = .idle) (hq : t.txq = [])
      (ho : t.busOut = s.busOut)
  | emitted (hi : outputRows i) (hp : t.phase = s.phase) (hq : t.txq = s.txq)

theorem sent_of_ackEffect (h : AckEffect s t) : Sent s.txq s t := by
  rcases h with rfl | ⟨hp, rfl⟩ | ⟨b, rest, hp, hq, rfl⟩ | ⟨b, rest, hp, hq, rfl⟩
  · exact .nothing rfl rfl rfl
  · exact .ack (List.mem_pair.mpr hp) rfl rfl rfl
  · exact .ackByte b hp rfl hq rfl
  · exact .byte b (by simp [hp]) rfl hq rfl

/-- What is sent depends on PHASE, TXQ and BUS_OUT only. -/
theorem Sent.of_kept {q : List Byte} {s' t' : State} (h : Sent q s t) (hsp : s'.phase = s.phase)
    (hso : s'.busOut = s.busOut) (htp : t'.phase = t.phase) (htq : t'.txq = t.txq) (hto : t'.busOut = t.busOut) :
    Sent q s' t' := by
  cases h with
  | nothing hp hq ho => exact .nothing (by rw [htp, hp, hsp]) (htq.trans hq) (by rw [hto, ho, hso])
  | ack hs hp hq ho => exact .ack (hsp ▸ hs) (htp.trans hp) (htq.trans hq) (by rw [hto, ho, hso])
  | ackByte b hs hp hq ho => exact .ackByte b (hsp.trans hs) (htp.trans hp) (by rw [htq, hq]) (by rw [hto, ho, hso])
  | byte b hs hp hq ho => exact .byte b (hsp ▸ hs) (htp.trans hp) (by rw [htq, hq]) (by rw [hto, ho, hso])

/-- A call does not touch the front end. -/
theorem callEffect_front {k : CbKind} {arg : Word} (h : CallEffect s t k arg) :
    t.phase = s.phase ∧ t.txq = s.txq ∧ t.busOut = s.busOut :=
  ⟨callEffect_frame h .phase (by simp), callEffect_frame h .txq (by simp), callEffect_frame h .busOut (by simp)⟩

theorem frontChange_of_not_writes (h : exec i s = .next t) (hp : .phase ∉ writes i) (hq : .txq ∉ writes i)
    (ho : .busOut ∉ writes i) : FrontChange s t i :=
  .kept (exec_frame h _ hp) (exec_frame h _ hq) (exec_frame h _ ho)

theorem exec_symbol_frontChange (hi : i.isInputSymbol = true) (h : exec i s = .next t) : FrontChange s t i := by
  have he := exec_next i s t h
  have hmoved (hs : s.phase = .idle ∨ s.phase = .rx ∨ s.phase = .nacked) : s.phase.hold = false := by
    rcases hs with hs | hs | hs <;> rw [hs] <;> rfl
  cases i <;> cases hi
  case startAddr a d =>
    rcases he with ⟨_, rfl⟩ | ⟨hs, ⟨rfl, rfl⟩ | ⟨_, rfl⟩⟩
    · exact .kept rfl rfl rfl
    · exact .ended (.inr ⟨d, rfl⟩) (hmoved hs) rfl rfl
    · exact .moved (hmoved hs) rfl rfl
  case wbyte b =>
    rcases he with ⟨_, rfl⟩ | ⟨hs, rfl⟩
    · exact .kept rfl rfl rfl
    · exact .moved (by rw [hs]; rfl) rfl rfl
  case cack =>
    rcases he with ⟨_, rfl⟩ | ⟨hs, ⟨_, rfl⟩ | ⟨b, rest, hq, rfl⟩⟩
    · exact .kept rfl rfl rfl
    · exact .moved (by rw [hs]; rfl) rfl rfl
    · exact .sent (by simp) (.byte b (by simp [hs]) rfl hq rfl)
  case cnack =>
    rcases he with ⟨_, rfl⟩ | ⟨hs, rfl⟩
    · exact .kept rfl rfl rfl
    · exact .moved (by rw [hs]; rfl) rfl rfl
  case stop =>
    rcases he with ⟨_, rfl⟩ | ⟨hs, ⟨_, rfl⟩ | ⟨_, rfl⟩⟩
    · exact .kept rfl rfl rfl
    · exact .ended (.inl rfl) (hmoved hs) rfl rfl
    · exact .ended (.inl rfl) (hmoved hs) rfl rfl
  case arblost | buserr =>
    rcases he with ⟨_, rfl⟩ | ⟨_, rfl⟩
    · exact .kept rfl rfl rfl
    · exact .aborted (by simp) rfl rfl rfl

theorem exec_ifAddr_frontChange (h : exec .ifAddr s = .next t) : FrontChange s t .ifAddr := by
  obtain ⟨_, hack | hcall⟩ := exec_next _ s t h
  · exact .sent (by simp) ((sent_of_ackEffect hack).of_kept rfl rfl rfl rfl rfl)
  · obtain ⟨hp, hq, ho⟩ := callEffect_front hcall
    exact .kept hp hq ho

theorem exec_ifRxdatav_frontChange (h : exec .ifRxdatav s = .next t) : FrontChange s t .ifRxdatav := by
  obtain ⟨_, ⟨hfull, rfl | ⟨hs, rfl⟩⟩ | ⟨_, u, _, hack, hcall⟩⟩ := exec_next _ s t h
  · exact .kept rfl rfl rfl
  · exact .nacked (by simp) (by simpa using hs) hfull rfl rfl rfl
  · obtain ⟨hp, hq, ho⟩ := callEffect_front hcall
    exact .sent (by simp) ((sent_of_ackEffect hack).of_kept rfl rfl hp hq ho)

theorem exec_write_frontChange {b : Byte} (h : exec (.write b) s = .next t) : FrontChange s t (.write b) := by
  have hresult (ctx : Ctx) (v : Word) : FrontChange s (s.result ctx v) (.write b) :=
    .kept (result_phase s ctx v) (result_txq s ctx v) (result_busOut s ctx v)
  obtain ⟨ctx, _, ⟨_, rfl⟩ | ⟨_, ⟨_, rfl⟩ | ⟨_, _, rfl⟩ | ⟨_, _, _, u, hack, rfl⟩ | ⟨_, _, _, rfl⟩⟩⟩ := exec_next _ s t h
  · exact .kept rfl rfl rfl
  · exact hresult ctx _
  · exact .kept rfl rfl rfl
  · exact .queued b rfl ((sent_of_ackEffect hack).of_kept rfl rfl rfl rfl rfl)
  · exact hresult (.cb .req) 0

theorem exec_feNack_frontChange (h : exec .feNack s = .next t) : FrontChange s t .feNack := by
  obtain ⟨_, _, hfull, rfl | ⟨hs, rfl⟩⟩ := exec_next _ s t h
  · exact .kept rfl rfl rfl
  · exact .nacked (by simp) (by simpa using hs) hfull rfl rfl rfl

/-- Every row's part in the front end. -/
theorem exec_frontChange (h : exec i s = .next t) : FrontChange s t i := by
  cases i
  case startAddr | wbyte | cack | cnack | stop | arblost | buserr => exact exec_symbol_frontChange rfl h
  case ifAddr => exact exec_ifAddr_frontChange h
  case ifRxdatav => exact exec_ifRxdatav_frontChange h
  case write b => exact exec_write_frontChange h
  case feAck => exact .sent (by simp) (sent_of_ackEffect (exec_next _ s t h))
  case feNack => exact exec_feNack_frontChange h
  case deactivate =>
    rcases exec_next _ s t h with ⟨_, _, rfl⟩ | ⟨_, _, rfl⟩
    · exact .left rfl rfl rfl rfl
    · exact .kept rfl rfl rfl
  case activateF addr =>
    rcases exec_next _ s t h with ⟨_, _, ⟨hr, rfl⟩ | ⟨_, rfl⟩⟩ | ⟨_, _, rfl⟩
    · exact .activated addr rfl hr rfl rfl rfl
    · exact .kept rfl rfl rfl
    · exact .kept rfl rfl rfl
  case outAck => exact .emitted (.inl rfl) (exec_frame h .phase (by simp [writes])) (exec_frame h .txq (by simp [writes]))
  case outNack =>
    exact .emitted (.inr (.inl rfl)) (exec_frame h .phase (by simp [writes])) (exec_frame h .txq (by simp [writes]))
  case outByte b =>
    exact .emitted (.inr (.inr ⟨b, rfl⟩)) (exec_frame h .phase (by simp [writes])) (exec_frame h .txq (by simp [writes]))
  all_goals exact frontChange_of_not_writes h (by simp [writes]) (by simp [writes]) (by simp [writes])

/-! ### FTIP and ADDRESSED (R32, R34) -/

theorem ftip_mem_writes : .ftip ∈ writes i ↔
    i = .ifAddr ∨ i ∈ [Instr.ifArblost, .ifBuserr, .ifSstop, .deactivate] ∨ ∃ addr, i = .activateF addr := by
  cases i <;> simp [writes]

theorem addressed_mem_writes : .addressed ∈ writes i ↔ (∃ a d, i = .startAddr a d) ∨
    i ∈ [Instr.stop, .arblost, .buserr, .deactivate] ∨ ∃ addr, i = .activateF addr := by
  cases i <;> simp [writes]

theorem exec_ifAddr_ftip (h : exec .ifAddr s = .next t) : t.ftip = true := by
  obtain ⟨_, hack | hcall⟩ := exec_next _ s t h
  · exact ackEffect_frame hack .ftip (by simp)
  · exact callEffect_frame hcall .ftip (by simp)

/-- The other writers of FTIP clear it. -/
theorem exec_ftip_of_clearing
    (hi : i ∈ [Instr.ifArblost, .ifBuserr, .ifSstop, .deactivate] ∨ ∃ addr, i = .activateF addr)
    (h : exec i s = .next t) (ht : t.ftip = true) : s.ftip = true := by
  have he := exec_next i s t h
  rcases hi with hi | ⟨addr, rfl⟩
  · fin_cases hi
    · obtain ⟨_, rfl⟩ := he; cases ht
    · obtain ⟨_, rfl⟩ := he; cases ht
    · obtain ⟨_, rfl⟩ := he; cases ht
    · rcases he with ⟨_, _, rfl⟩ | ⟨_, _, rfl⟩
      · cases ht
      · exact ht
  · rcases he with ⟨_, _, ⟨_, rfl⟩ | ⟨_, rfl⟩⟩ | ⟨_, _, rfl⟩
    · cases ht
    · exact ht
    · exact ht

/-- START_ADDR sets ADDRESSED on a match, and never clears it. -/
theorem exec_startAddr_addressed {a : Addr7} {d : Dir} (h : exec (.startAddr a d) s = .next t) :
    t.addressed = s.addressed ∨ (t.addressed = true ∧ a = s.ownAddr) := by
  rcases exec_next _ s t h with ⟨_, rfl⟩ | ⟨_, ⟨ha, rfl⟩ | ⟨_, rfl⟩⟩
  · exact .inl rfl
  · exact .inr ⟨rfl, ha⟩
  · exact .inl rfl

/-- The other writers of ADDRESSED clear it. -/
theorem exec_addressed_of_clearing
    (hi : i ∈ [Instr.stop, .arblost, .buserr, .deactivate] ∨ ∃ addr, i = .activateF addr)
    (h : exec i s = .next t) (ht : t.addressed = true) : s.addressed = true := by
  have he := exec_next i s t h
  rcases hi with hi | ⟨addr, rfl⟩
  · fin_cases hi
    · rcases he with ⟨_, rfl⟩ | ⟨_, ⟨_, rfl⟩ | ⟨_, rfl⟩⟩
      · exact ht
      · cases ht
      · cases ht
    · rcases he with ⟨_, rfl⟩ | ⟨_, rfl⟩
      · exact ht
      · cases ht
    · rcases he with ⟨_, rfl⟩ | ⟨_, rfl⟩
      · exact ht
      · cases ht
    · rcases he with ⟨_, _, rfl⟩ | ⟨_, _, rfl⟩
      · cases ht
      · exact ht
  · rcases he with ⟨_, _, ⟨_, rfl⟩ | ⟨_, rfl⟩⟩ | ⟨_, _, rfl⟩
    · cases ht
    · exact ht
    · exact ht

/-! ### A byte that leaves TXQ (R127) -/

theorem mem_drop_append {l x : List BusOut} {o : BusOut} (h : o ∈ x) : o ∈ (l ++ x).drop l.length := by
  rwa [List.drop_left]

/-- What is sent leaves TXQ, or takes its head to BUS_OUT. -/
theorem Sent.txq {q : List Byte} (h : Sent q s t) :
    t.txq = q ∨ ∃ b, q = b :: t.txq ∧ BusOut.byte b ∈ t.busOut.drop s.busOut.length := by
  cases h with
  | nothing _ hq _ => exact .inl hq
  | ack _ _ hq _ => exact .inl hq
  | ackByte b _ _ hq ho => exact .inr ⟨b, hq, by rw [ho]; exact mem_drop_append (by simp)⟩
  | byte b _ _ hq ho => exact .inr ⟨b, hq, by rw [ho]; exact mem_drop_append (by simp)⟩

end

/-- Settles O56: the writers of FTIP and ADDRESSED with the value they write; TXQ is the front end's change. -/
theorem transactionStateHasOnlyItsWriters : Obligations.TransactionStateHasOnlyItsWriters := by
  intro i s t h
  have hchanged {b c : Bool} (hc : c = true) (hb : b = false) : c ≠ b := by simp [hc, hb]
  refine ⟨fun ht hs => ?_, fun ht hs => ?_, fun ht hs => ?_, fun ht hs => ?_, ?_⟩
  · rcases ftip_mem_writes.mp (mem_writes_of_changed h (f := .ftip) (hchanged ht hs)) with hi | hi
    · exact hi
    · simp [exec_ftip_of_clearing hi h ht] at hs
  · rcases ftip_mem_writes.mp (mem_writes_of_changed h (f := .ftip) (hchanged hs ht).symm) with rfl | hi
    · simp [exec_ifAddr_ftip h] at ht
    · exact hi
  · rcases addressed_mem_writes.mp (mem_writes_of_changed h (f := .addressed) (hchanged ht hs)) with ⟨a, d, rfl⟩ | hi
    · obtain ⟨_, rfl⟩ := (exec_startAddr_addressed h).resolve_left (hchanged ht hs)
      exact ⟨d, rfl⟩
    · simp [exec_addressed_of_clearing hi h ht] at hs
  · rcases addressed_mem_writes.mp (mem_writes_of_changed h (f := .addressed) (hchanged hs ht).symm) with ⟨a, d, rfl⟩ | hi
    · obtain ⟨hset, _⟩ := (exec_startAddr_addressed h).resolve_left (hchanged hs ht).symm
      simp [hset] at ht
    · exact hi
  · cases exec_frontChange h with
    | kept _ hq _ => exact .inl hq
    | moved _ hq _ => exact .inl hq
    | nacked _ _ _ _ hq _ => exact .inl hq
    | emitted _ _ hq => exact .inl hq
    | queued b hi hsent =>
      rcases hsent.txq with hq | ⟨x, hq, hx⟩
      · exact .inr (.inl ⟨b, hi, hq⟩)
      · exact .inr (.inr (.inl ⟨b, x, hi, hq, hx⟩))
    | sent hi hsent =>
      rcases hsent.txq with hq | ⟨x, hq, hx⟩
      · exact .inl hq
      · exact .inr (.inr (.inr (.inl ⟨x, hi, hq, hx⟩)))
    | ended hi _ hq _ =>
      refine .inr (.inr (.inr (.inr ⟨hq, ?_⟩)))
      rcases hi with rfl | hd
      · exact .inl (by simp)
      · exact .inr (.inr hd)
    | aborted hi _ hq _ =>
      refine .inr (.inr (.inr (.inr ⟨hq, .inl ?_⟩)))
      fin_cases hi <;> simp
    | left hi _ hq _ => exact .inr (.inr (.inr (.inr ⟨hq, .inl (by simp [hi])⟩)))
    | activated addr hi _ _ hq _ => exact .inr (.inr (.inr (.inr ⟨hq, .inr (.inl ⟨addr, hi⟩)⟩)))

end Sys2Proof.Proofs

/-! PROOFS. What a step shows (10_state.md R42 to R45, 42_bus_protocol.md R134): a hold and its end, and the observation
lists. -/

namespace Sys2Proof.Proofs

open Sys2Proof Sys2Proof.Machine Sys2Proof.Laws

section

variable {s t u : State} {i : Instr}

/-! ### A hold (R112, R134) -/

/-- Of the symbols only a bus fault has a step while the bus is held (R112). -/
theorem not_exec_of_hold (hhold : s.phase.hold = true) {a : Addr7} {d : Dir} {b : Byte}
    (hi : i ∈ [Instr.startAddr a d, .wbyte b, .cack, .cnack, .stop]) : exec i s ≠ .next t := by
  rw [exec_of_notAdmitted (symbolAdmission_of_hold hhold a d b i hi)]
  nofun

/-- Out of FOLLOWER there is no hold (R48 a). -/
theorem follower_of_hold (hinv : Inv s) (hhold : s.phase.hold = true) : s.role = .follower := by
  by_contra hr
  obtain ⟨hoff, _⟩ := hinv.outOfFollower hr
  simp [hoff, Phase.hold] at hhold

/-- PHASE after an answer: as before, or the transaction goes on. -/
theorem Sent.phase {q : List Byte} (h : Sent q s t) : t.phase = s.phase ∨ t.phase = .rx ∨ t.phase = .txbusy := by
  cases h with
  | nothing hp _ _ => exact .inl hp
  | ack _ hp _ _ => exact .inr (.inl hp)
  | ackByte _ _ hp _ _ => exact .inr (.inr hp)
  | byte _ _ hp _ _ => exact .inr (.inr hp)

end

/-- Settles O37: the front end's change in a hold, and the one symbol that raises each flag. -/
theorem aHoldEndsOnlyByAnAnswerOrAFault : Obligations.AHoldEndsOnlyByAnAnswerOrAFault := by
  intro i s t hinv hhold h
  have hfollower := follower_of_hold hinv hhold
  have hnot {a : Addr7} {d : Dir} {b : Byte} (hi : i ∈ [Instr.startAddr a d, .wbyte b, .cack, .cnack, .stop]) : False :=
    not_exec_of_hold hhold hi h
  refine ⟨?_, fun f ht hs => ?_⟩
  · cases exec_frontChange h with
    | kept hp _ _ => exact .inl hp
    | emitted _ hp _ => exact .inl hp
    | moved hs _ _ => simp [hs] at hhold
    | ended _ hs _ _ => simp [hs] at hhold
    | aborted hi hp _ _ => exact .inr (.inl ⟨hi, hp⟩)
    | left hi hp _ _ => exact .inr (.inr (.inl ⟨hi, hp⟩))
    | activated _ _ hr _ _ _ => simp [hr] at hfollower
    | nacked hi _ _ hp _ _ => exact .inr (.inr (.inr (.inr ⟨hi, hp⟩)))
    | queued b hi hsent =>
      exact hsent.phase.imp_right fun hp => .inr (.inr (.inl ⟨.inr ⟨b, hi⟩, hp⟩))
    | sent hi hsent =>
      have hrow : i ∈ [Instr.feAck, .ifAddr, .ifRxdatav] := by
        have hcack : i ≠ .cack := fun hi => hnot (a := 0) (d := .read) (b := 0) (by simp [hi])
        simpa [hcack] using hi
      exact hsent.phase.imp_right fun hp => .inr (.inr (.inl ⟨.inl hrow, hp⟩))
  · have hraised := raisedBy_of_flag_set h f ht hs
    cases f
    case arblost => exact .inl ⟨rfl, hraised⟩
    case buserr => exact .inr ⟨rfl, hraised⟩
    case sstop => exact (hnot (a := 0) (d := .read) (b := 0) (by simp [show i = .stop from hraised])).elim
    case addr => obtain ⟨d, hi⟩ := hraised; exact (hnot (a := s.ownAddr) (d := d) (b := 0) (by simp [hi])).elim
    case rxdatav => obtain ⟨b, hi, _⟩ := hraised; exact (hnot (a := 0) (d := .read) (b := b) (by simp [hi])).elim
    case ack => exact (hnot (a := 0) (d := .read) (b := 0) (by simp [show i = .cack from hraised])).elim

section

variable {s t u : State} {i : Instr}

/-! ### The lists of calls and results (R43, R45) -/

/-- A list has gained at most one entry, at its end. -/
def Grows {α : Type} (l l' : List α) : Prop := ∃ x, l' = l ++ x ∧ x.length ≤ 1

theorem grows_self {α : Type} (l : List α) : Grows l l := ⟨[], by simp⟩

theorem grows_append {α : Type} (l : List α) (a : α) : Grows l (l ++ [a]) := ⟨[a], rfl, le_rfl⟩

theorem grows_of_eq {α : Type} {l l' : List α} (h : l' = l) : Grows l l' := h ▸ grows_self l

/-- CB_LOG, FG_RES and CB_RES have gained at most one entry each. -/
structure ListsGrow (s t : State) : Prop where
  cbLog : Grows s.cbLog t.cbLog
  fgRes : Grows s.fgRes t.fgRes
  cbRes : Grows s.cbRes t.cbRes

theorem ListsGrow.of_kept (hlog : t.cbLog = s.cbLog) (hfg : t.fgRes = s.fgRes) (hcb : t.cbRes = s.cbRes) :
    ListsGrow s t := ⟨grows_of_eq hlog, grows_of_eq hfg, grows_of_eq hcb⟩

/-- A returned command adds its result to the list of its context. -/
theorem ListsGrow.of_result (ctx : Ctx) (v : Word) (hlog : u.cbLog = s.cbLog) (hfg : u.fgRes = s.fgRes)
    (hcb : u.cbRes = s.cbRes) : ListsGrow s (u.result ctx v) := by
  cases ctx with
  | fg => exact ⟨grows_of_eq hlog, hfg ▸ grows_append _ v, grows_of_eq hcb⟩
  | cb k => exact ⟨grows_of_eq hlog, grows_of_eq hfg, hcb ▸ grows_append _ v⟩

theorem ListsGrow.of_call {k : CbKind} {arg : Word} (h : CallEffect u t k arg) (hlog : u.cbLog = s.cbLog)
    (hfg : u.fgRes = s.fgRes) (hcb : u.cbRes = s.cbRes) : ListsGrow s t := by
  rcases h with ⟨_, rfl⟩ | ⟨_, rfl⟩
  · exact .of_kept hlog hfg hcb
  · exact ⟨hlog ▸ grows_append _ _, grows_of_eq hfg, grows_of_eq hcb⟩

theorem ackEffect_lists (h : AckEffect u t) : t.cbLog = u.cbLog ∧ t.fgRes = u.fgRes ∧ t.cbRes = u.cbRes :=
  ⟨ackEffect_frame h .cbLog (by simp), ackEffect_frame h .fgRes (by simp), ackEffect_frame h .cbRes (by simp)⟩

theorem exec_read_listsGrow (h : exec .read s = .next t) : ListsGrow s t := by
  rcases exec_next _ s t h with
    ⟨_, _, ⟨_, _, rfl⟩ | ⟨_, _, rfl⟩ | ⟨_, _, rfl⟩ | ⟨r, b, _, rfl⟩⟩ | ⟨_, _, _, rfl⟩ | ⟨_, _, rfl⟩ |
    ⟨_, _, ⟨_, rfl⟩ | ⟨_, _, rfl⟩ | ⟨_, _, rfl⟩⟩
  · exact .of_result .fg _ rfl rfl rfl
  · exact .of_kept rfl rfl rfl
  · exact .of_kept rfl rfl rfl
  · exact .of_result (u := { s with rd := s.advance r, fgMicro := .none }) .fg _ rfl rfl rfl
  · exact .of_kept rfl rfl rfl
  · exact .of_kept rfl rfl rfl
  · exact .of_kept rfl rfl rfl
  · exact .of_result (u := s) (.cb s.cbKind) _ rfl rfl rfl
  · exact .of_result (u := { s with rd := s.advance s.rd }) (.cb s.cbKind) _ rfl rfl rfl

theorem exec_write_listsGrow {b : Byte} (h : exec (.write b) s = .next t) : ListsGrow s t := by
  obtain ⟨ctx, _, ⟨_, rfl⟩ | ⟨_, ⟨_, rfl⟩ | ⟨_, _, rfl⟩ | ⟨_, _, _, u, hack, rfl⟩ | ⟨_, _, _, rfl⟩⟩⟩ := exec_next _ s t h
  · exact .of_kept rfl rfl rfl
  · exact .of_result ctx _ rfl rfl rfl
  · exact .of_kept rfl rfl rfl
  · obtain ⟨hlog, hfg, hcb⟩ := ackEffect_lists hack
    exact .of_result (u := u) (.cb .req) _ hlog hfg hcb
  · exact .of_result (u := s) (.cb .req) _ rfl rfl rfl

/-- The commands of the foreground add one result there, and nothing in a callback. -/
theorem exec_fgOnly_listsGrow (hi : isFgOnly i = true) (h : exec i s = .next t) : ListsGrow s t := by
  have hone {u : State} (hlog : u.cbLog = s.cbLog) (hfg : u.fgRes = s.fgRes ++ [0]) (hcb : u.cbRes = s.cbRes) :
      ListsGrow s u := ⟨grows_of_eq hlog, hfg ▸ grows_append _ _, grows_of_eq hcb⟩
  have he := exec_next i s t h
  cases i <;> cases hi
  case activateL =>
    rcases he with ⟨_, _, ⟨_, rfl⟩ | ⟨_, rfl⟩⟩ | ⟨_, rfl⟩
    · exact hone rfl rfl rfl
    · exact hone rfl rfl rfl
    · exact .of_kept rfl rfl rfl
  case activateF =>
    rcases he with ⟨_, _, ⟨_, rfl⟩ | ⟨_, rfl⟩⟩ | ⟨_, _, rfl⟩
    · exact hone rfl rfl rfl
    · exact hone rfl rfl rfl
    · exact .of_kept rfl rfl rfl
  case deactivate | onReceive | onRequest =>
    rcases he with ⟨_, _, rfl⟩ | ⟨_, _, rfl⟩
    · exact hone rfl rfl rfl
    · exact .of_kept rfl rfl rfl

/-- A row adds at most one entry to each of the three lists. -/
theorem exec_listsGrow (h : exec i s = .next t) : ListsGrow s t := by
  cases i
  case activateL | activateF | deactivate | onReceive | onRequest => exact exec_fgOnly_listsGrow rfl h
  case read => exact exec_read_listsGrow h
  case write => exact exec_write_listsGrow h
  case available =>
    obtain ⟨ctx, _, ⟨_, rfl⟩ | ⟨_, rfl⟩⟩ := exec_next _ s t h
    · exact .of_kept rfl rfl rfl
    · exact .of_result ctx _ rfl rfl rfl
  case ifAddr =>
    obtain ⟨_, hack | hcall⟩ := exec_next _ s t h
    · obtain ⟨hlog, hfg, hcb⟩ := ackEffect_lists hack
      exact .of_kept hlog hfg hcb
    · exact .of_call hcall rfl rfl rfl
  case ifRxdatav =>
    obtain ⟨_, ⟨_, rfl | ⟨_, rfl⟩⟩ | ⟨_, u, _, hack, hcall⟩⟩ := exec_next _ s t h
    · exact .of_kept rfl rfl rfl
    · exact .of_kept rfl rfl rfl
    · obtain ⟨hlog, hfg, hcb⟩ := ackEffect_lists hack
      exact .of_call hcall hlog hfg hcb
  case ifAck => exact .of_call (exec_next _ s t h).2 rfl rfl rfl
  all_goals
    exact .of_kept (exec_frame h .cbLog (by simp [writes])) (exec_frame h .fgRes (by simp [writes]))
      (exec_frame h .cbRes (by simp [writes]))

theorem agentStep_listsGrow {a : AgentTurn} (h : s.agentStep a = .next t) : ListsGrow s t := by
  cases agentStep_cases h with
  | runs i _ hexec => exact exec_listsGrow hexec
  | entry _ _ _ ht => exact ht ▸ .of_kept rfl rfl rfl
  | exit _ _ ht => exact ht ▸ .of_kept rfl rfl rfl
  | returns _ _ _ ht => exact ht ▸ .of_kept rfl rfl rfl

/-! ### BUS_OUT (R42, R131) -/

/-- What a step adds to BUS_OUT, with the phases it moves between. -/
inductive BusOutChange (s t : State) (a : AgentTurn) : Prop where
  | nothing (ho : t.busOut = s.busOut) (hp : s.phase.hold = true → t.phase ∈ [s.phase, .idle, .off])
  | ack (ho : t.busOut = s.busOut ++ [.ack]) (hs : s.phase ∈ [Phase.aholdW, .rxhold]) (hp : t.phase = .rx)
  | ackByte (b : Byte) (ho : t.busOut = s.busOut ++ [.ack, .byte b]) (hs : s.phase = .aholdR) (hp : t.phase = .txbusy)
  | byte (b : Byte) (ho : t.busOut = s.busOut ++ [.byte b]) (hs : s.phase ∈ [Phase.txhold, .txbusy])
      (hp : t.phase = .txbusy)
  | nack (ho : t.busOut = s.busOut ++ [.nack]) (hs : s.phase ∈ [Phase.aholdW, .rxhold, .aholdR]) (hp : t.phase = .nacked)
      (hfull : s.count = s.params.fifoCap) (ha : a = .svc) (hd : decode .if8 s.svcWord = .instr .ifRxdatav)

theorem Sent.busOutChange {q : List Byte} {a : AgentTurn} (h : Sent q s t) : BusOutChange s t a := by
  cases h with
  | nothing hp _ ho => exact .nothing ho fun _ => by simp [hp]
  | ack hs hp _ ho => exact .ack ho hs hp
  | ackByte b hs hp _ ho => exact .ackByte b ho hs hp
  | byte b hs hp _ ho => exact .byte b ho hs hp

/-- A service branch is SVC's, at its bit of the snapshot. -/
theorem Issued.of_branch {a : AgentTurn} {f : Flag} (h : Issued s a (branchOf f)) :
    a = .svc ∧ decodeFlags s.svcWord = .instr (branchOf f) := by
  generalize hi : branchOf f = i at h
  have hcommand {w : Word} (hw : branchOf f = decodeCmd w) : False := by
    have hformat := format_branchOf f
    rw [hw, decodeCmd_format] at hformat
    cases hformat
  cases h with
  | openRead => cases f <;> cases hi
  | command _ _ w _ => exact (hcommand hi).elim
  | callback _ w _ => exact (hcommand hi).elim
  | symbol _ _ _ hin =>
    have hformat := format_branchOf f
    rw [hi, format_of_isInputSymbol hin] at hformat
    cases hformat
  | branch _ g hd => exact ⟨rfl, hd⟩

theorem Issued.busOutChange {a : AgentTurn} (hi : Issued s a i) (h : exec i s = .next t) : BusOutChange s t a := by
  have hinternal := hi.not_internal
  cases exec_frontChange h with
  | kept hp _ ho => exact .nothing ho fun _ => by simp [hp]
  | queued _ _ hsent => exact hsent.busOutChange
  | sent _ hsent => exact hsent.busOutChange
  | moved hs _ ho => exact .nothing ho fun hhold => by simp [hs] at hhold
  | ended _ hs _ ho => exact .nothing ho fun hhold => by simp [hs] at hhold
  | aborted _ hp _ ho => exact .nothing ho fun _ => by simp [hp]
  | left _ hp _ ho => exact .nothing ho fun _ => by simp [hp]
  | activated _ _ _ hp _ ho => exact .nothing ho fun _ => by simp [hp]
  | emitted hout _ _ => rcases hout with rfl | rfl | ⟨_, rfl⟩ <;> cases hinternal
  | nacked hrow hs hfull hp _ ho =>
    obtain rfl : i = .ifRxdatav := by
      fin_cases hrow
      · cases hinternal
      · rfl
    obtain ⟨ha, hd⟩ := Issued.of_branch (f := .rxdatav) hi
    exact .nack ho hs hp (isFull_iff.mp hfull) ha hd

theorem agentStep_busOutChange {a : AgentTurn} (h : s.agentStep a = .next t) : BusOutChange s t a := by
  cases agentStep_cases h with
  | runs i hi hexec => exact hi.busOutChange hexec
  | entry _ _ _ ht => exact ht ▸ .nothing rfl fun _ => List.mem_cons_self
  | exit _ _ ht => exact ht ▸ .nothing rfl fun _ => List.mem_cons_self
  | returns _ _ _ ht => exact ht ▸ .nothing rfl fun _ => List.mem_cons_self

end

/-- Settles O57: BUS_OUT by the front end's change, the other three by what a row returns or calls. -/
theorem observationListsOnlyGrow : Obligations.ObservationListsOnlyGrow := by
  intro s t h
  obtain ⟨_, _, hturn⟩ := step_next h
  obtain ⟨hlog, hfg, hcb⟩ := agentStep_listsGrow hturn
  refine ⟨?_, hlog, hfg, hcb⟩
  cases agentStep_busOutChange hturn with
  | nothing ho hp => exact ⟨[], by simpa using ho, .inl ⟨rfl, hp⟩⟩
  | ack ho hs hp => exact ⟨_, ho, .inr (.inl ⟨rfl, hs, hp⟩)⟩
  | ackByte b ho hs hp => exact ⟨_, ho, .inr (.inr (.inl ⟨b, rfl, hs, hp⟩))⟩
  | byte b ho hs hp => exact ⟨_, ho, .inr (.inr (.inr (.inl ⟨b, rfl, hs, hp⟩)))⟩
  | nack ho hs hp hfull ha hd => exact ⟨_, ho, .inr (.inr (.inr (.inr ⟨rfl, hs, hp, hfull, ha, hd⟩)))⟩

end Sys2Proof.Proofs

/-! PROOFS. The FIFO as a queue over every step (41_ring_buffer.md R64, R100, R102). -/

namespace Sys2Proof.Proofs

open Sys2Proof Sys2Proof.Machine Sys2Proof.Laws

section

variable {s t : State} {i : Instr}

/-! ### What each row does to the queue -/

/-- A step that writes no slot and no index leaves the unread bytes. -/
theorem queue_of_frame {W : List Field} (h : Frame W s t) (hmem : .fifoMem ∉ W) (hwr : .wr ∉ W) (hrd : .rd ∉ W)
    (hparams : .params ∉ W) : t.queue = s.queue :=
  queue_congr (h .params hparams) (h .wr hwr) (h .rd hrd) (h .fifoMem hmem)

/-- The foreground's READ takes the oldest byte at C3 and returns the byte C2 saw, which is that one (R94, R95). -/
theorem exec_read_fg_queue (hfifo : FifoSound s) (hs : s.svState = .idle) (h : exec .read s = .next t) :
    t.queue = s.queue ∨ ∃ b : Byte, s.queue = b :: t.queue ∧ t.fgRes = s.fgRes ++ [b.setWidth 16] := by
  have hnotCall : s.svState ≠ .call := by simp [hs]
  rcases exec_next _ s t h with
    ⟨_, _, ⟨_, _, rfl⟩ | ⟨_, _, rfl⟩ | ⟨_, _, rfl⟩ | ⟨r, b, hm, rfl⟩⟩ | ⟨_, _, _, rfl⟩ | ⟨hcall, _⟩ | ⟨hcall, _⟩
  · exact .inl rfl
  · exact .inl rfl
  · exact .inl rfl
  · obtain ⟨rfl, hb⟩ := hfifo.of_open2 hm
    have hne := hfifo.openRead_index (by simp [hm])
    refine .inr ⟨b, ?_, rfl⟩
    rw [hb]
    exact queue_get hfifo.inRange hne rfl rfl rfl rfl
  · exact .inl rfl
  · exact absurd hcall hnotCall
  · exact absurd hcall hnotCall

/-- A callback's READ takes and returns the oldest byte in one step (R92). -/
theorem exec_read_cb_queue (hfifo : FifoSound s) (hs : s.svState = .call) (h : exec .read s = .next t) :
    t.queue = s.queue ∨ ∃ b : Byte, s.queue = b :: t.queue ∧ t.cbRes = s.cbRes ++ [b.setWidth 16] := by
  have hnotIdle : s.svState ≠ .idle := by simp [hs]
  rcases exec_next _ s t h with ⟨hidle, _⟩ | ⟨hidle, _⟩ | ⟨_, _, rfl⟩ |
    ⟨_, _, ⟨_, rfl⟩ | ⟨_, _, rfl⟩ | ⟨_, hne, rfl⟩⟩
  · exact absurd hidle hnotIdle
  · exact absurd hidle hnotIdle
  · exact .inl rfl
  · exact .inl rfl
  · exact .inl rfl
  · exact .inr ⟨_, queue_get hfifo.inRange hne rfl rfl rfl rfl, rfl⟩

/-- The RXDATAV branch appends the received byte, or refuses it on a full FIFO (R91, R149). -/
theorem exec_ifRxdatav_queue (hfifo : FifoSound s) (h : exec .ifRxdatav s = .next t) :
    t.queue = s.queue ∨ (t.queue = s.queue ++ [s.rxData] ∧ s.queue.length < s.params.fifoCap) := by
  obtain ⟨_, ⟨_, rfl | ⟨_, rfl⟩⟩ | ⟨hroom, u, _, hack, hcall⟩⟩ := exec_next _ s t h
  · exact .inl rfl
  · exact .inl rfl
  · have hlt : s.count < s.params.fifoCap := (not_full_iff hfifo.countRange).mp hroom
    have hput : (stored (serviced s .rxdatav) s.rxData).queue = s.queue ++ [s.rxData] :=
      queue_put hfifo.inRange hfifo.memory.1 hlt rfl rfl rfl rfl
    have hu : u.queue = (stored (serviced s .rxdatav) s.rxData).queue :=
      queue_of_frame (ackEffect_frame hack) (by simp) (by simp) (by simp) (by simp)
    have ht : t.queue = u.queue := queue_of_frame (callEffect_frame hcall) (by simp) (by simp) (by simp) (by simp)
    exact .inr ⟨ht.trans (hu.trans hput), by rw [queue_length]; exact hlt⟩

/-- DEACTIVATE, and ACTIVATE_F in UNINIT, clear the queue with no READ open; else they leave it (R90, R105). -/
theorem exec_roleCommand_queue (hi : i = .deactivate ∨ ∃ addr, i = .activateF addr) (h : exec i s = .next t) :
    t.queue = s.queue ∨ (t.queue = [] ∧ s.svState = .idle ∧ s.fgMicro = .none ∧ t.fgMicro = .none ∧
      (i = .deactivate ∨ (s.role = .uninit ∧ ∃ addr, i = .activateF addr))) := by
  have hempty {u : State} (hwr : u.wr = 0) (hrd : u.rd = 0) : u.queue = [] :=
    List.length_eq_zero_iff.mp ((queue_length u).trans (count_of_cleared hwr hrd))
  have he := exec_next i s t h
  rcases hi with rfl | ⟨addr, rfl⟩
  · rcases he with ⟨hs, hm, rfl⟩ | ⟨_, _, rfl⟩
    · exact .inr ⟨hempty rfl rfl, hs, hm, hm, .inl rfl⟩
    · exact .inl rfl
  · rcases he with ⟨hs, hm, ⟨hr, rfl⟩ | ⟨_, rfl⟩⟩ | ⟨_, _, rfl⟩
    · exact .inr ⟨hempty rfl rfl, hs, hm, hm, .inr ⟨hr, addr, rfl⟩⟩
    · exact .inl rfl
    · exact .inl rfl

/-- A command other than READ leaves the queue, or is one of the two that clear it. -/
theorem exec_command_queue (hformat : i.format = .cmd16) (hread : i ≠ .read) (h : exec i s = .next t) :
    t.queue = s.queue ∨ (t.queue = [] ∧ s.svState = .idle ∧ s.fgMicro = .none ∧ t.fgMicro = .none ∧
      (i = .deactivate ∨ (s.role = .uninit ∧ ∃ addr, i = .activateF addr))) := by
  by_cases hclear : i = .deactivate ∨ ∃ addr, i = .activateF addr
  · exact exec_roleCommand_queue hclear h
  · have hout : .fifoMem ∉ writes i ∧ .wr ∉ writes i ∧ .rd ∉ writes i := by
      cases i <;> cases hformat
      case read => exact absurd rfl hread
      case deactivate | activateF => simp at hclear
      all_goals simp [writes]
    obtain ⟨hmem, hwr, hrd⟩ := hout
    exact .inl (queue_of_frame (exec_frame h) hmem hwr hrd (params_not_mem_writes i))

theorem exec_symbol_queue (hi : i.isInputSymbol = true) (h : exec i s = .next t) : t.queue = s.queue := by
  have hout : .fifoMem ∉ writes i ∧ .wr ∉ writes i ∧ .rd ∉ writes i := by
    cases i <;> cases hi <;> simp [writes]
  obtain ⟨hmem, hwr, hrd⟩ := hout
  exact queue_of_frame (exec_frame h) hmem hwr hrd (params_not_mem_writes i)

/-- A branch other than RXDATAV's leaves the queue. -/
theorem exec_branchOf_queue {f : Flag} (hf : f ≠ .rxdatav) (h : exec (branchOf f) s = .next t) : t.queue = s.queue := by
  cases f
  case rxdatav => exact absurd rfl hf
  all_goals
    exact queue_of_frame (exec_frame h) (by simp [branchOf, writes]) (by simp [branchOf, writes])
      (by simp [branchOf, writes]) (params_not_mem_writes _)

/-! ### What each agent does to the queue -/

/-- What a step does to the queue (R63, R90, R105). -/
inductive QueueStep (s t : State) (a : AgentTurn) : Prop where
  | kept (h : t.queue = s.queue)
  | put (h : t.queue = s.queue ++ [s.rxData]) (hlt : s.queue.length < s.params.fifoCap) (ha : a = .svc)
      (hs : s.svState = .run) (hd : decode .if8 s.svcWord = .instr .ifRxdatav)
  | gotFg (b : Byte) (h : s.queue = b :: t.queue) (ha : a = .fg) (hres : t.fgRes = s.fgRes ++ [b.setWidth 16])
  | gotCb (b : Byte) (h : s.queue = b :: t.queue) (ha : a = .cb) (hres : t.cbRes = s.cbRes ++ [b.setWidth 16])
  | cleared (h : t.queue = []) (ha : a = .fg) (hs : s.svState = .idle) (ht : t.fgMicro = .none) (hm : s.fgMicro = .none)
      (w : Word) (hw : s.fgWord = some w)
      (hi : decodeCmd w = .deactivate ∨ (s.role = .uninit ∧ ∃ addr, decodeCmd w = .activateF addr))

/-- A command of the foreground: a READ, a clearing command, or one that leaves the queue. -/
theorem queueStep_of_command {w : Word} (hfifo : FifoSound s) (hs : s.svState = .idle) (hw : s.fgWord = some w)
    (h : exec (decodeCmd w) s = .next t) : QueueStep s t .fg := by
  by_cases hread : decodeCmd w = .read
  · rw [hread] at h
    rcases exec_read_fg_queue hfifo hs h with hq | ⟨b, hq, hres⟩
    · exact .kept hq
    · exact .gotFg b hq rfl hres
  · rcases exec_command_queue (decodeCmd_format w) hread h with hq | ⟨hq, _, hm, ht, hi⟩
    · exact .kept hq
    · exact .cleared hq rfl hs ht hm w hw hi

/-- A command of a callback: a READ, or one that leaves the queue. -/
theorem queueStep_of_callback {w : Word} (hfifo : FifoSound s) (hs : s.svState = .call)
    (h : exec (decodeCmd w) s = .next t) : QueueStep s t .cb := by
  by_cases hread : decodeCmd w = .read
  · rw [hread] at h
    rcases exec_read_cb_queue hfifo hs h with hq | ⟨b, hq, hres⟩
    · exact .kept hq
    · exact .gotCb b hq rfl hres
  · rcases exec_command_queue (decodeCmd_format w) hread h with hq | ⟨_, hidle, _⟩
    · exact .kept hq
    · cases hs.symm.trans hidle

theorem queueStep_of_branch {f : Flag} (hfifo : FifoSound s) (hs : s.svState = .run)
    (hd : decodeFlags s.svcWord = .instr (branchOf f)) (h : exec (branchOf f) s = .next t) : QueueStep s t .svc := by
  by_cases hf : f = .rxdatav
  · subst hf
    rcases exec_ifRxdatav_queue hfifo h with hq | ⟨hq, hlt⟩
    · exact .kept hq
    · exact .put hq hlt rfl hs hd
  · exact .kept (exec_branchOf_queue hf h)

theorem agentStep_queueStep {a : AgentTurn} (hfifo : FifoSound s) (h : s.agentStep a = .next t) : QueueStep s t a := by
  cases agentStep_cases h with
  | entry _ _ _ ht => exact .kept (ht ▸ rfl)
  | exit _ _ ht => exact .kept (ht ▸ rfl)
  | returns _ _ _ ht => exact .kept (ht ▸ rfl)
  | runs i hi hexec =>
    cases hi with
    | openRead hs _ =>
      rcases exec_read_fg_queue hfifo hs hexec with hq | ⟨b, hq, hres⟩
      · exact .kept hq
      · exact .gotFg b hq rfl hres
    | command hs _ w hw => exact queueStep_of_command hfifo hs hw hexec
    | callback hs w _ => exact queueStep_of_callback hfifo hs hexec
    | branch hs f hd => exact queueStep_of_branch hfifo hs hd hexec
    | symbol w i _ hin => exact .kept (exec_symbol_queue hin hexec)

end

/-- Settles O53: a step of an agent, with the schedule's part taken off. -/
theorem theFifoIsAQueue : Obligations.TheFifoIsAQueue := by
  intro s t hinv h
  obtain ⟨_, _, hturn⟩ := step_next h
  cases agentStep_queueStep (fifoSound_of_inv (takeTurn_inv hinv)) hturn with
  | kept hq => exact .inl hq
  | put hq hlt ha hs hd => exact .inr (.inl ⟨hq, hlt, ha, hs, hd⟩)
  | gotFg b hq ha hres => exact .inr (.inr (.inl ⟨b, hq, .inl ⟨ha, hres⟩⟩))
  | gotCb b hq ha hres => exact .inr (.inr (.inl ⟨b, hq, .inr ⟨ha, hres⟩⟩))
  | cleared hq ha hs ht hm w hw hi => exact .inr (.inr (.inr ⟨hq, ha, hs, ht, hm, w, hw, hi⟩))

end Sys2Proof.Proofs

/-! PROOFS. The hazards (70_reset_and_hazards.md section 3): one invocation on two pending flags (R224, R226, R228), and the read
that nothing answers (R209, R223). -/

namespace Sys2Proof.Proofs

open Sys2Proof Sys2Proof.Machine Sys2Proof.Laws

section

variable {s t : State}

/-! ### One invocation on two pending flags -/

theorem svcSteps_succ (k : Nat) (h : s.svcStep = .next t) : svcSteps (k + 1) s = svcSteps k t := by
  rw [svcSteps, h]

/-- A snapshot's bits from SV_NEXT on (R144). -/
def remainingBits (snap : BitVec 6) (next : Fin 7) : Word := (snap.setWidth 16 >>> next.val) <<< next.val

theorem svcWord_eq (s : State) : s.svcWord = remainingBits s.svSnap s.svNext := rfl

/-- The snapshot of two pending flags. -/
def pairSnap (f g : Flag) : BitVec 6 := (f.mask ||| g.mask).setWidth 6

theorem decodeFlags_pair_first {f g : Flag} (h : f.bit < g.bit) :
    decodeFlags (remainingBits (pairSnap f g) 0) = .instr (branchOf f) := by
  revert h; cases f <;> cases g <;> decide

theorem decodeFlags_pair_second {f g : Flag} (h : f.bit < g.bit) :
    decodeFlags (remainingBits (pairSnap f g) f.bit.succ) = .instr (branchOf g) := by
  revert h; cases f <;> cases g <;> decide

theorem decodeFlags_pair_end {f g : Flag} (h : f.bit < g.bit) :
    decodeFlags (remainingBits (pairSnap f g) g.bit.succ) = .rejected .noFlag := by
  revert h; cases f <;> cases g <;> decide

/-- The bus fault branches and the stop branch, which clear FTIP (R145 to R147). -/
def clearsFtip (f : Flag) : Prop := f = .arblost ∨ f = .buserr ∨ f = .sstop

theorem branchEffect_of_clearsFtip {f : Flag} (h : clearsFtip f) (s : State) :
    branchEffect f s = { s with ftip := false } := by
  rcases h with rfl | rfl | rfl <;> rfl

/-- The state in which the second branch of a pair runs, the first being one that clears FTIP. -/
def secondServiced (s : State) (f g : Flag) : State :=
  serviced { serviced s.serviceEntry f with ftip := false } g

theorem pair_irq {f g : Flag} (hif : s.readIF = f.mask ||| g.mask) (hien : s.readIEN = 0x3F) : s.irq = true := by
  rw [State.irq, hif, hien]
  cases f <;> cases g <;> decide

/-- Entry, the two branches in the order of their bits, exit: if no branch calls, four SVC steps are the invocation. -/
theorem svcSteps_of_pair {f g : Flag} (hfg : f.bit < g.bit) (hf : clearsFtip f) (hs : s.svState = .idle)
    (hif : s.readIF = f.mask ||| g.mask) (hien : s.readIEN = 0x3F)
    (ht : t = branchEffect g (secondServiced s f g)) (hrun : t.svState = .run) :
    svcSteps 4 s = .next t.serviceExit := by
  have hsnap : s.serviceEntry.svSnap = pairSnap f g := by
    show (s.readIF &&& s.readIEN).setWidth 6 = pairSnap f g
    rw [hif, hien, pairSnap]
    cases f <;> cases g <;> decide
  have hfirst : s.serviceEntry.svcStep = .next { serviced s.serviceEntry f with ftip := false } := by
    have hd : decodeFlags s.serviceEntry.svcWord = .instr (branchOf f) := by
      rw [svcWord_eq, hsnap]; exact decodeFlags_pair_first hfg
    rw [svcStep_of_branch rfl hd, exec_branchOf_of_run rfl, branchEffect_of_clearsFtip hf]
  have hsecond : State.svcStep { serviced s.serviceEntry f with ftip := false } = .next t := by
    have hd : decodeFlags (State.svcWord { serviced s.serviceEntry f with ftip := false }) = .instr (branchOf g) := by
      rw [svcWord_eq, show State.svSnap { serviced s.serviceEntry f with ftip := false } = _ from hsnap]
      exact decodeFlags_pair_second hfg
    rw [svcStep_of_branch rfl hd, exec_branchOf_of_run rfl, ht]; rfl
  have hexec : exec (branchOf g) { serviced s.serviceEntry f with ftip := false } = .next t := by
    rw [exec_branchOf_of_run rfl, ht]; rfl
  have hexit : t.svcStep = .next t.serviceExit := by
    have hkept : t.svSnap = pairSnap f g := (exec_frame hexec .svSnap (svSnap_not_mem_writes _)).trans hsnap
    have hnext : t.svNext = g.bit.succ := exec_branchOf_svNext hexec
    refine svcStep_of_no_flag (e := .noFlag) hrun ?_
    rw [svcWord_eq, hkept, hnext]
    exact decodeFlags_pair_end hfg
  rw [svcSteps_succ 3 (svcStep_of_idle_of_irq hs (pair_irq hif hien)), svcSteps_succ 2 hfirst, svcSteps_succ 1 hsecond,
    svcSteps_succ 0 hexit, svcSteps]

/-- Both flags are cleared once their branches ran (R144). -/
theorem secondServiced_readIF {f g : Flag} (hif : s.readIF = f.mask ||| g.mask) : (secondServiced s f g).readIF = 0 := by
  have hstart : State.readIF { serviced s.serviceEntry f with ftip := false } = s.readIF &&& (flagBits &&& ~~~ f.mask) :=
    serviced_readIF s.serviceEntry f
  rw [secondServiced, serviced_readIF, hstart, hif]
  cases f <;> cases g <;> decide

/-- The ADDR branch, its acknowledgement and the exit leave IF. -/
theorem addr_pair_readIF {f : Flag} (hif : s.readIF = f.mask ||| Flag.addr.mask) :
    (withFtip (secondServiced s f .addr)).feCmdAck.serviceExit.readIF = 0 := by
  rw [serviceExit_readIF, feCmdAck_readIF]
  exact secondServiced_readIF hif

/-- The store and the exit leave IF. -/
theorem rxdatav_pair_readIF {f : Flag} (hif : s.readIF = f.mask ||| Flag.rxdatav.mask) :
    (stored (secondServiced s f .rxdatav) s.rxData).serviceExit.readIF = 0 := by
  rw [serviceExit_readIF]
  exact secondServiced_readIF hif

/-- An idle engine's sequencer is cleared, so the exit restores it (R48's idle clause, R154). -/
theorem serviceExit_of_idle (hinv : Inv s) (hs : s.svState = .idle) : s.serviceExit = s := by
  obtain ⟨hsnap, hnext⟩ := hinv.idleCleared hs
  obtain ⟨⟩ := s
  simp_all [State.serviceExit]

/-- The ADDR branch of a writing controller in the invocation's end state (R148). -/
theorem addr_pair_invocation {f : Flag} (hf : clearsFtip f) (hs : s.svState = .idle)
    (hif : s.readIF = f.mask ||| Flag.addr.mask) (hien : s.readIEN = 0x3F) (hdir : s.addrStatus.getLsbD 0 = false) :
    svcSteps 4 s = .next (withFtip (secondServiced s f .addr)).feCmdAck.serviceExit := by
  have hfg : f.bit < Flag.addr.bit := by rcases hf with rfl | rfl | rfl <;> decide
  refine svcSteps_of_pair hfg hf hs hif hien (addrBranch_of_write (s := secondServiced s f .addr) hdir).symm ?_
  exact feCmdAck_svState _

/-- The RXDATAV branch with room, no handler, and nothing to acknowledge, in the invocation's end state (R149). -/
theorem rxdatav_pair_invocation {f : Flag} (hinv : Inv s) (hf : clearsFtip f) (hs : s.svState = .idle)
    (hif : s.readIF = f.mask ||| Flag.rxdatav.mask) (hien : s.readIEN = 0x3F) (hroom : s.count < s.params.fifoCap)
    (hreg : s.regRx = 0) (hp : s.phase = .idle) :
    svcSteps 4 s = .next (stored (secondServiced s f .rxdatav) s.rxData).serviceExit := by
  have hfg : f.bit < Flag.rxdatav.bit := by rcases hf with rfl | rfl | rfl <;> decide
  have hbranch : (secondServiced s f .rxdatav).rxdatavBranch = stored (secondServiced s f .rxdatav) s.rxData := by
    have hack : (stored (secondServiced s f .rxdatav) s.rxData).feCmdAck = stored (secondServiced s f .rxdatav) s.rxData :=
      feCmdAck_of_not_hold (congrArg Phase.hold hp)
    refine (rxdatavBranch_of_room (s := secondServiced s f .rxdatav) ⟨hinv.wrRange, hinv.rdRange⟩ hroom).trans ?_
    exact (feCmdAck_callHandler_of_no_handler (s := stored (secondServiced s f .rxdatav) s.rxData) (k := .rx) _
      (.inl hreg)).trans hack
  exact svcSteps_of_pair hfg hf hs hif hien hbranch.symm rfl

end

/-- Settles O58: each pair is an invocation whose first branch clears FTIP; the second is the branch's equation. -/
theorem threePendingPairsEndAsTheHazardRulesSay : Obligations.ThreePendingPairsEndAsTheHazardRulesSay := by
  intro s hinv hs hien
  have hexit := serviceExit_of_idle hinv hs
  have haddr {f : Flag} (hf : clearsFtip f) (hif : s.readIF = f.mask ||| Flag.addr.mask)
      (hdir : s.addrStatus.getLsbD 0 = false) (hp : s.phase = .idle) :
      ∃ t, svcSteps 4 s = .next t ∧ t = { s with ifReg := t.ifReg, ftip := true } ∧ t.readIF = 0 := by
    have hack : (withFtip (secondServiced s f .addr)).feCmdAck = withFtip (secondServiced s f .addr) :=
      feCmdAck_of_not_hold (congrArg Phase.hold hp)
    refine ⟨_, addr_pair_invocation hf hs hif hien hdir, ?_, addr_pair_readIF hif⟩
    rw [hack]
    conv_rhs => rw [← hexit]
    rfl
  have hrx {f : Flag} (hf : clearsFtip f) (hif : s.readIF = f.mask ||| Flag.rxdatav.mask)
      (hroom : s.count < s.params.fifoCap) (hreg : s.regRx = 0) (hp : s.phase = .idle) :
      ∃ t, svcSteps 4 s = .next t ∧ t.queue = s.queue ++ [s.rxData] ∧ t.busOut = s.busOut ∧ t.ftip = false ∧
        t.phase = .idle ∧ t.svState = .idle ∧ t.readIF = 0 :=
    ⟨_, rxdatav_pair_invocation hinv hf hs hif hien hroom hreg hp,
      queue_put ⟨hinv.wrRange, hinv.rdRange⟩ hinv.memory.1 hroom rfl rfl rfl rfl, rfl, rfl, hp, rfl,
      rxdatav_pair_readIF hif⟩
  refine ⟨fun hif hdir hp => ?_, fun hif hdir hp => ?_, fun hif hroom hreg hp => ?_⟩
  · have hmask : s.readIF = Flag.sstop.mask ||| Flag.addr.mask := hif.trans (by decide)
    refine ⟨_, addr_pair_invocation (.inr (.inr rfl)) hs hmask hien hdir, ?_, addr_pair_readIF hmask⟩
    rw [feCmdAck_of_writeHold (s := withFtip (secondServiced s .sstop .addr)) (List.mem_pair.mpr (.inl hp))]
    conv_rhs => rw [← hexit]
    rfl
  · rcases hif with hif | hif
    · exact haddr (f := .arblost) (.inl rfl) (hif.trans (by decide)) hdir hp
    · exact haddr (f := .buserr) (.inr (.inl rfl)) (hif.trans (by decide)) hdir hp
  · rcases hif with hif | hif
    · exact hrx (f := .arblost) (.inl rfl) (hif.trans (by decide)) hroom hreg hp
    · exact hrx (f := .buserr) (.inr (.inl rfl)) (hif.trans (by decide)) hroom hreg hp

/-! ### The read that nothing answers (R209, R223) -/

/-- The symbol that a BUS step presents in a hold is a bus fault, and ends in IDLE (R112). -/
theorem busStep_of_hold {s t : State} {w : Word} (hhold : s.phase.hold = true) (h : s.busStep w = .next t) :
    (w = 0x6000 ∨ w = 0x7000) ∧ t.phase = .idle := by
  obtain ⟨i, hd, hin, hexec⟩ := busStep_next h
  have hw : encode i = w := (decodeBus_format_encode hd).2
  have hon : s.phase ≠ .off := by rintro hoff; simp [hoff, Phase.hold] at hhold
  have hnot {a : Addr7} {d : Dir} {b : Byte} (hi : i ∈ [Instr.startAddr a d, .wbyte b, .cack, .cnack, .stop]) : False :=
    not_exec_of_hold hhold hi hexec
  cases i <;> cases hin
  case startAddr a d => exact (hnot (a := a) (d := d) (b := 0) (by simp)).elim
  case wbyte b => exact (hnot (a := 0) (d := .read) (b := b) (by simp)).elim
  case cack | cnack | stop => exact (hnot (a := 0) (d := .read) (b := 0) (by simp)).elim
  case arblost =>
    rw [exec_arblost_of_ne_off hon] at hexec
    cases hexec
    exact ⟨.inl hw.symm, rfl⟩
  case buserr =>
    rw [exec_buserr_of_ne_off hon] at hexec
    cases hexec
    exact ⟨.inr hw.symm, rfl⟩

/-- Settles O59: R197 enables none of the three other agents, and BUS has only a fault. -/
theorem anUnansweredReadIsStuck : Obligations.AnUnansweredReadIsStuck := by
  intro s hf hr hp hs hq hm hend
  have hhold : s.phase.hold = true := by
    generalize s.phase = p at hp
    fin_cases hp <;> rfl
  have hfg : ¬ Enabled s .fg := by
    rintro ⟨_, _, _, hopen | hword⟩
    · exact hopen hm
    · omega
  have hsvc : ¬ Enabled s .svc := by
    rintro ⟨_, _, ⟨_, hirq⟩ | hrun⟩
    · simp [hq] at hirq
    · simp [hs] at hrun
  have hcb : ¬ Enabled s .cb := by
    rintro ⟨_, _, hcall⟩
    simp [hs] at hcall
  refine ⟨⟨hf, hr, hhold, hfg, hsvc, hcb⟩, fun hfin => ?_, fun a t h => ?_⟩
  · obtain ⟨_, _, _, _, _, _, hnot⟩ := hfin
    simp [hnot] at hhold
  · have henabled : Enabled s a := (agentStep_isNext_iff hf hr a).mp ⟨t, h⟩
    cases a with
    | fg => exact absurd henabled hfg
    | svc => exact absurd henabled hsvc
    | cb => exact absurd henabled hcb
    | bus w =>
      obtain ⟨hw, ht⟩ := busStep_of_hold hhold h
      exact ⟨by rcases hw with rfl | rfl <;> simp, ht⟩

end Sys2Proof.Proofs

/-! PROOFS. The word placed where it is fetched (NOTES.md log 6, log 9): the next step runs it, or runs the step that issues
it. -/

namespace Sys2Proof.Proofs

open Sys2Proof Sys2Proof.Machine Sys2Proof.Laws

section

variable {s t : State} {i : Instr}

/-! ### A command word, and the foreground's step -/

theorem placeAt_getElem? (prog : List Word) (pc : Nat) (w : Word) : (placeAt prog pc w)[pc]? = some w := by
  have hlen : (prog.take pc ++ List.replicate (pc - prog.length) 0).length = pc := by
    rw [List.length_append, List.length_take, List.length_replicate]
    omega
  rw [placeAt, List.getElem?_append_right hlen.le, hlen, Nat.sub_self]
  rfl

theorem step_withCommand (s : State) (w : Word) :
    step (s.withCommand w) = exec (decodeCmd w) (s.withCommand w).takeTurn := by
  have hw : (s.withCommand w).takeTurn.fgWord = some w := placeAt_getElem? s.params.fgProgram s.fgPc w
  rw [step_live (withCommand_fault s w) (withCommand_refused s w), withCommand_nextTurn]
  exact fgStep_of_word rfl rfl hw

/-- The placed state issues for the foreground. -/
theorem withCommand_issuer (s : State) (w : Word) : (s.withCommand w).takeTurn.issuer = some .fg :=
  issuer_fg.mpr ⟨rfl, rfl⟩

theorem outOfLeader_role (s : State) : s.outOfLeader.role ≠ .leader := by
  rw [State.outOfLeader]
  dsimp only
  split
  · simp
  · assumption

/-! ### A bus word -/

theorem withBusWord_of_not_internal {w : Word} (hd : decodeBus w = .instr i) (hi : i.isInternal = false) :
    s.withBusWord w = s.withSymbol w := by
  rw [State.withBusWord, hd]
  cases i <;> cases hi <;> rfl

theorem step_withSymbol {w : Word} (hd : decodeBus w = .instr i) (hi : i.isInputSymbol = true) :
    step (s.withSymbol w) = exec i (s.withSymbol w).takeTurn := by
  rw [step_live (withSymbol_fault s w) (withSymbol_refused s w), withSymbol_nextTurn]
  exact busStep_of_symbol hd hi

theorem isInputSymbol_of_format (hf : i.format = .bus16) (hi : i.isInternal = false) : i.isInputSymbol = true := by
  cases i <;> cases hf <;> cases hi <;> rfl

/-! ### A flag word, and the service engine's step -/

theorem decodeFlags_congr {v w : Word} (h : ∀ j < 6, v.getLsbD j = w.getLsbD j) : decodeFlags v = decodeFlags w := by
  simp only [decodeFlags, h 0 (by decide), h 1 (by decide), h 2 (by decide), h 3 (by decide), h 4 (by decide),
    h 5 (by decide)]

/-- A state in which SVC's next step runs a placed flag word. -/
structure FlagsPlaced (s : State) (w : Word) : Prop where
  fault : s.fault = none
  refused : s.refused = none
  turn : s.nextTurn = .svc
  run : s.svState = .run
  snap : s.svSnap = w.setWidth 6
  next : s.svNext = 0

theorem withFlags_placed (s : State) (w : Word) : FlagsPlaced (s.withFlags w) w := ⟨rfl, rfl, rfl, rfl, rfl, rfl⟩

/-- The snapshot keeps the six bits that the decoder looks at. -/
theorem FlagsPlaced.decodes {w : Word} (h : FlagsPlaced s w) : decodeFlags s.svcWord = decodeFlags w := by
  refine decodeFlags_congr fun j hj => ?_
  rw [svcWord_getLsbD s j hj, h.snap, h.next, BitVec.getLsbD_setWidth]
  simp [hj]

theorem FlagsPlaced.runs {w : Word} (h : FlagsPlaced s w) {f : Flag} (hd : decodeFlags w = .instr (branchOf f)) :
    step s = exec (branchOf f) s.takeTurn := by
  rw [step_live h.fault h.refused, h.turn]
  exact svcStep_of_branch (s := s.takeTurn) h.run (h.decodes.trans hd)

/-- A placed ADDR flag of a writing controller: the step is the branch's fe_cmd(ACK) (R148). -/
theorem FlagsPlaced.acknowledges (h : FlagsPlaced s (encode .ifAddr)) (hdir : s.addrStatus.getLsbD 0 = false) :
    step s = .next (withFtip (serviced s.takeTurn .addr)).feCmdAck := by
  rw [h.runs (f := .addr) (by decide), exec_branchOf_of_run (s := s.takeTurn) h.run]
  exact congrArg _ (addrBranch_of_write (s := serviced s.takeTurn .addr) hdir)

/-- A placed RXDATAV flag: the step is the branch (R149). -/
theorem FlagsPlaced.receives (h : FlagsPlaced s (encode .ifRxdatav)) :
    step s = .next (serviced s.takeTurn .rxdatav).rxdatavBranch := by
  rw [h.runs (f := .rxdatav) (by decide), exec_branchOf_of_run (s := s.takeTurn) h.run]
  rfl

theorem withWriteMatch_dir (s : State) : s.withWriteMatch.addrStatus.getLsbD 0 = false := by
  show (s.addrStatus &&& 0xFE#8).getLsbD 0 = false
  simp

/-! ### The FIFO of a placed state -/

/-- A FIFO that was filled holds N bytes, wherever RD stands. -/
theorem filled_isFull (s : State) : s.filled.isFull = true := by
  have hpos := s.params.fifoCap_pos
  have hcap := s.params.fifoCap_le
  have hlt : (s.rd.toNat + s.params.fifoCap) % (2 * s.params.fifoCap) < 2 * s.params.fifoCap := Nat.mod_lt _ (by omega)
  refine isFull_iff.mpr ?_
  show modSub (BitVec.ofNat 16 _).toNat s.rd.toNat (2 * s.params.fifoCap) = s.params.fifoCap
  rw [BitVec.toNat_ofNat, Nat.mod_eq_of_lt (by omega : _ < 2 ^ 16), modSub, Int.natCast_emod, Int.emod_sub_emod]
  have hdiff : ((s.rd.toNat + s.params.fifoCap : Nat) : Int) - s.rd.toNat = (s.params.fifoCap : Nat) := by omega
  rw [hdiff, ← Int.natCast_emod, Int.toNat_natCast, Nat.mod_eq_of_lt (by omega)]

/-- A FIFO with equal indices is not full, for N is at least 1 (R7). -/
theorem withRoom_isFull (s : State) : s.withRoom.isFull = false := by
  rw [State.withRoom]
  split
  · have hcount : ({ s with rd := s.wr } : State).count = 0 := by simp [State.count, modSub]
    refine Bool.eq_false_iff.mpr (isFull_iff.not.mpr ?_)
    rw [hcount]
    exact s.params.fifoCap_pos.ne
  · exact Bool.eq_false_iff.mpr ‹_›

@[simp] theorem serviced_isFull (s : State) (f : Flag) : (serviced s f).isFull = s.isFull := rfl

@[simp] theorem takeTurn_isFull (s : State) : s.takeTurn.isFull = s.isFull := rfl

@[simp] theorem withFlags_isFull (s : State) (w : Word) : (s.withFlags w).isFull = s.isFull := rfl

@[simp] theorem withPhase_isFull (s : State) (p : Phase) : ({ s with phase := p } : State).isFull = s.isFull := rfl

/-- The RXDATAV branch on a FIFO with room stores RXDATA, whatever it acknowledges and calls after that (R149). -/
theorem rxdatavBranch_stores (h : s.isFull = false) :
    s.rxdatavBranch.fifoMem = (stored s s.rxData).fifoMem ∧ s.rxdatavBranch.wr = (stored s s.rxData).wr := by
  have hput : s.fifoPut s.rxData = (stored s s.rxData, .ok) := fifoPut_ok h s.rxData
  rw [State.rxdatavBranch, if_neg (Bool.eq_false_iff.mp h), hput]
  simp

/-- IF after the RXDATAV branch is the serviced state's. -/
theorem rxdatavBranch_ifReg (s : State) : s.rxdatavBranch.ifReg = s.ifReg := by
  rw [State.rxdatavBranch]
  split
  · exact feCmdNack_ifReg s
  · rcases fifoPut_cases s s.rxData with ⟨_, hput⟩ | ⟨_, hput⟩ <;> rw [hput] <;> simp

/-! ### The internal rows, each inside the step that issues it (log 3) -/

variable {w : Word}

/-- OUT_ACK: the answer to a held address of a writing controller. -/
theorem outAck_runs_inside (hd : decodeBus w = .instr .outAck) :
    ∃ t, step (s.withBusWord w) = .next t ∧
      exec .outAck { (s.withBusWord w).takeTurn with ftip := true, svNext := 4, ifReg := t.ifReg, phase := .rx } =
        .next t := by
  have hplace : s.withBusWord w = { s.withWriteMatch with phase := .aholdW } := by rw [State.withBusWord, hd]
  have hflags : FlagsPlaced (s.withBusWord w) (encode .ifAddr) := by rw [hplace]; exact ⟨rfl, rfl, rfl, rfl, rfl, rfl⟩
  have hdir : (s.withBusWord w).addrStatus.getLsbD 0 = false := by rw [hplace]; exact withWriteMatch_dir s
  have hp : (s.withBusWord w).phase = .aholdW := by rw [hplace]
  refine ⟨_, hflags.acknowledges hdir, ?_⟩
  rw [feCmdAck_of_writeHold (s := withFtip (serviced (s.withBusWord w).takeTurn .addr)) (List.mem_pair.mpr (.inl hp))]
  rfl

/-- OUT_NACK: the answer to a held byte on a full FIFO. -/
theorem outNack_runs_inside (hd : decodeBus w = .instr .outNack) :
    ∃ t, step (s.withBusWord w) = .next t ∧
      exec .outNack { (s.withBusWord w).takeTurn with svNext := 5, ifReg := t.ifReg, phase := .nacked } = .next t := by
  have hplace : s.withBusWord w = { s.filled.withFlags (encode .ifRxdatav) with phase := .rxhold } := by
    rw [State.withBusWord, hd]
  have hflags : FlagsPlaced (s.withBusWord w) (encode .ifRxdatav) := by rw [hplace]; exact ⟨rfl, rfl, rfl, rfl, rfl, rfl⟩
  have hfull : (serviced (s.withBusWord w).takeTurn .rxdatav).isFull = true := by
    rw [hplace, serviced_isFull, takeTurn_isFull, withPhase_isFull, withFlags_isFull, filled_isFull]
  have hp : (serviced (s.withBusWord w).takeTurn .rxdatav).phase ∈ [Phase.aholdW, .rxhold, .aholdR] := by
    rw [hplace]; exact List.mem_cons_of_mem _ List.mem_cons_self
  have hstep := hflags.receives
  rw [rxdatavBranch_of_full hfull, feCmdNack_of_hold hp] at hstep
  exact ⟨_, hstep, rfl⟩

/-- OUT_BYTE: the byte sent on a CACK. -/
theorem outByte_runs_inside {b : Byte} (hd : decodeBus w = .instr (.outByte b)) :
    ∃ t, step (s.withBusWord w) = .next t ∧
      exec (.outByte b) { (s.withBusWord w).takeTurn with ifReg := t.ifReg, txq := [] } = .next t := by
  have hplace : s.withBusWord w = { s.withSymbol (encode .cack) with phase := .txbusy, txq := [b] } := by
    rw [State.withBusWord, hd]
  have hstep : step (s.withBusWord w) = .next (s.withBusWord w).takeTurn.acknowledged := by
    have hturn : (s.withBusWord w).nextTurn = .bus (encode .cack) := by rw [hplace]; rfl
    rw [step_live (by rw [hplace]; rfl) (by rw [hplace]; rfl), hturn]
    refine (busStep_of_symbol (w := encode .cack) (i := .cack) (by decide) rfl).trans (exec_cack_of_txbusy ?_)
    rw [hplace]; rfl
  rw [hplace] at hstep ⊢
  exact ⟨_, hstep, rfl⟩

theorem feAck_runs_inside (hd : decodeFe w = .instr .feAck) :
    ∃ t, step (s.withFrontEndCode w) = .next t ∧
      exec .feAck { (s.withFrontEndCode w).takeTurn with ftip := true, svNext := 4, ifReg := t.ifReg } = .next t := by
  have hplace : s.withFrontEndCode w = s.withWriteMatch := by rw [State.withFrontEndCode, hd]
  have hflags : FlagsPlaced s.withWriteMatch (encode .ifAddr) := ⟨rfl, rfl, rfl, rfl, rfl, rfl⟩
  rw [hplace]
  refine ⟨_, hflags.acknowledges (withWriteMatch_dir s), ?_⟩
  rw [feCmdAck_ifReg]
  rfl

theorem feNack_runs_inside (hd : decodeFe w = .instr .feNack) :
    ∃ t, step (s.withFrontEndCode w) = .next t ∧
      exec .feNack { (s.withFrontEndCode w).takeTurn with svNext := 5, ifReg := t.ifReg } = .next t := by
  have hplace : s.withFrontEndCode w = s.filled.withFlags (encode .ifRxdatav) := by rw [State.withFrontEndCode, hd]
  have hfull : (serviced (s.filled.withFlags (encode .ifRxdatav)).takeTurn .rxdatav).isFull = true := by
    rw [serviced_isFull, takeTurn_isFull, withFlags_isFull, filled_isFull]
  have hstep := (withFlags_placed s.filled (encode .ifRxdatav)).receives
  rw [rxdatavBranch_of_full hfull] at hstep
  rw [hplace]
  refine ⟨_, hstep, ?_⟩
  rw [feCmdNack_ifReg]
  exact exec_feNack_of_full (s := serviced (s.filled.withFlags (encode .ifRxdatav)).takeTurn .rxdatav) rfl rfl
    (isFull_iff.mp hfull)

theorem fifoStore_runs_inside (hd : decodeFifo w = .instr .fifoStore) :
    ∃ t, step (s.withFifoCode w) = .next t ∧
      ∃ v, exec .fifoStore { (s.withFifoCode w).takeTurn with svNext := 5, ifReg := t.ifReg } = .next v ∧
        v.fifoReply = some .ok ∧ t.fifoMem = v.fifoMem ∧ t.wr = v.wr := by
  have hplace : s.withFifoCode w = s.withRoom.withFlags (encode .ifRxdatav) := by rw [State.withFifoCode, hd]
  rw [hplace]
  generalize hu : (s.withRoom.withFlags (encode .ifRxdatav)).takeTurn = u
  have hroom : (serviced u .rxdatav).isFull = false := by
    rw [← hu, serviced_isFull, takeTurn_isFull, withFlags_isFull, withRoom_isFull]
  have hrun : u.svState = .run := by rw [← hu]; rfl
  have hstep := (withFlags_placed s.withRoom (encode .ifRxdatav)).receives
  rw [hu] at hstep
  obtain ⟨hmem, hwr⟩ := rxdatavBranch_stores hroom
  refine ⟨_, hstep, State.withReply ((serviced u .rxdatav).fifoPut u.rxData), ?_, ?_, ?_, ?_⟩
  · rw [rxdatavBranch_ifReg]
    exact engineOp_of_branch (s := serviced u .rxdatav) hrun rfl _
  · rw [fifoPut_ok hroom]; rfl
  · rw [hmem, fifoPut_ok hroom]; rfl
  · rw [hwr, fifoPut_ok hroom]; rfl

theorem fifoIsfull_runs_inside (hd : decodeFifo w = .instr .fifoIsfull) :
    ∃ u t, u = (s.withFifoCode w).takeTurn ∧ step (s.withFifoCode w) = .next t ∧
      ∃ v full, exec .fifoIsfull { u with svNext := 5, ifReg := t.ifReg } = .next v ∧
        v.fifoReply = some (.full full) ∧
        (full = true → t = State.feCmdNack { u with svNext := 5, ifReg := t.ifReg }) ∧
        (full = false → t.wr = BitVec.ofNat 16 ((u.wr.toNat + 1) % (2 * u.params.fifoCap))) := by
  have hplace : s.withFifoCode w = s.withFlags (encode .ifRxdatav) := by rw [State.withFifoCode, hd]
  rw [hplace]
  generalize hu : (s.withFlags (encode .ifRxdatav)).takeTurn = u
  have hrun : u.svState = .run := by rw [← hu]; rfl
  have hstep := (withFlags_placed s (encode .ifRxdatav)).receives
  rw [hu] at hstep
  refine ⟨u, _, rfl, hstep, State.withReply (serviced u .rxdatav, .full (serviced u .rxdatav).isFull),
    (serviced u .rxdatav).isFull, ?_, rfl, fun hfull => ?_, fun hroom => (rxdatavBranch_stores hroom).2⟩
  · rw [rxdatavBranch_ifReg]
    exact engineOp_of_branch (s := serviced u .rxdatav) hrun rfl _
  · rw [rxdatavBranch_ifReg]
    exact rxdatavBranch_of_full hfull

theorem fifoRead_runs_inside (hd : decodeFifo w = .instr .fifoRead) :
    ∃ t, step (s.withFifoCode w) = .next t ∧
      ∃ v, exec .fifoRead (s.withFifoCode w).takeTurn = .next v ∧ t.rd = v.rd ∧ t.fgMicro = v.fgMicro ∧
        ((v.fifoReply = some .empty ∧ t.fgRes = s.fgRes ++ [0xFFFF]) ∨
          (v.fifoReply = some .pending ∧ t.fgRes = s.fgRes)) := by
  have hplace : s.withFifoCode w = s.outOfLeader.withCommand (encode .read) := by rw [State.withFifoCode, hd]
  rw [hplace, step_withCommand, show decodeCmd (encode .read) = .read by decide]
  generalize hu : (s.outOfLeader.withCommand (encode .read)).takeTurn = u
  have hidle : u.svState = .idle := by rw [← hu]; rfl
  have hclosed : u.fgMicro = .none := by rw [← hu]; rfl
  have hrole : u.role ≠ .leader := by rw [← hu]; exact outOfLeader_role s
  have hres : u.fgRes = s.fgRes := by rw [← hu]; rfl
  refine ⟨_, exec_read_of_idle hidle (.inr hrole), _, execFifoRead_of_idle hidle, ?_⟩
  by_cases he : u.wr = u.rd
  · rw [fifoGetFg_of_empty hclosed he, ← hres]
    exact ⟨rfl, rfl, .inl ⟨rfl, rfl⟩⟩
  · rw [fifoGetFg_of_nonempty hclosed he]
    exact ⟨rfl, rfl, .inr ⟨rfl, hres⟩⟩

theorem fifoAvailable_runs_inside (hd : decodeFifo w = .instr .fifoAvailable) :
    ∃ t, step (s.withFifoCode w) = .next t ∧
      ∃ v c, exec .fifoAvailable (s.withFifoCode w).takeTurn = .next v ∧ v.fifoReply = some (.count c) ∧
        t.fgRes = s.fgRes ++ [BitVec.ofNat 16 c] := by
  have hplace : s.withFifoCode w = s.outOfLeader.withCommand (encode .available) := by rw [State.withFifoCode, hd]
  have hissuer := withCommand_issuer s.outOfLeader (encode .available)
  rw [hplace, step_withCommand, show decodeCmd (encode .available) = .available by decide]
  generalize hu : (s.outOfLeader.withCommand (encode .available)).takeTurn = u at hissuer ⊢
  have hrole : u.role ≠ .leader := by rw [← hu]; exact outOfLeader_role s
  have hres : u.fgRes = s.fgRes := by rw [← hu]; rfl
  have hexec : exec .available u = .next (u.result .fg (countResult u.count)) := issueData_of_not_leader hissuer hrole
  exact ⟨_, hexec, _, _, execFifoAvailable_of_issuer hissuer, rfl, by rw [← hres]; rfl⟩

theorem fifoClear_runs_inside (hd : decodeFifo w = .instr .fifoClear) :
    ∃ t, step (s.withFifoCode w) = .next t ∧
      ∃ v, exec .fifoClear (s.withFifoCode w).takeTurn = .next v ∧ t.wr = v.wr ∧ t.rd = v.rd ∧
        t.fifoMem = v.fifoMem := by
  have hplace : s.withFifoCode w = s.withCommand (encode .deactivate) := by rw [State.withFifoCode, hd]
  have hissuer := withCommand_issuer s (encode .deactivate)
  rw [hplace, step_withCommand, show decodeCmd (encode .deactivate) = .deactivate by decide]
  exact ⟨_, exec_deactivate_of_fg hissuer, _, execFifoClear_of_fg hissuer, rfl, rfl, rfl⟩

/-! ### The rows that are an agent's step -/

theorem step_withWord_of_not_internal {f : Format} (hd : decode f w = .instr i) (hi : i.isInternal = false) :
    step (s.withWord f w) = exec i (s.withWord f w).takeTurn := by
  have hformat : i.format = f := (decodedWordsHaveOneMeaning f w i hd).2.1
  cases f with
  | cmd16 => cases hd; exact step_withCommand s w
  | bus16 =>
    show step (s.withBusWord w) = exec i (s.withBusWord w).takeTurn
    rw [withBusWord_of_not_internal hd hi]
    exact step_withSymbol hd (isInputSymbol_of_format hformat hi)
  | if8 =>
    obtain ⟨f, rfl⟩ := decodeFlags_branchOf hd
    exact (withFlags_placed s w).runs hd
  | fecmd2 | fifoop3 => cases i <;> cases hformat <;> cases hi

/-- A table number is read in the space `tableFormat` picks (log 6). -/
theorem decode_of_decodeTableWord {nbits n : Nat} (h : decodeTableWord nbits n = some i) :
    decode (tableFormat nbits (BitVec.ofNat 16 n)) (BitVec.ofNat 16 n) = .instr i := by
  unfold decodeTableWord at h
  split at h
  · cases h
  · revert h
    cases decode (tableFormat nbits (BitVec.ofNat 16 n)) (BitVec.ofNat 16 n) with
    | instr j => exact fun h => congrArg Decoded.instr (Option.some.inj h)
    | rejected e => exact nofun

end

/-- Settles O7: the rows that are an agent's step by their space, and each internal row inside its issuer's step. -/
theorem aFetchWordIsRunByTheNextStep : Obligations.AFetchWordIsRunByTheNextStep := by
  refine ⟨fun s nbits n i h => ⟨_, decode_of_decodeTableWord h, rfl⟩, fun s f w i hd => ⟨_, rfl,
    step_withWord_of_not_internal hd, fun hi => ?_⟩⟩
  obtain rfl : i.format = f := (decodedWordsHaveOneMeaning f w i hd).2.1
  cases i <;> cases hi
  case outAck =>
    obtain ⟨t, hstep, hrow⟩ := outAck_runs_inside (s := s) hd
    exact ⟨t, hstep, fun _ => hrow, nofun, nofun, nofun, nofun, nofun, nofun, nofun, nofun, nofun⟩
  case outNack =>
    obtain ⟨t, hstep, hrow⟩ := outNack_runs_inside (s := s) hd
    exact ⟨t, hstep, nofun, fun _ => hrow, nofun, nofun, nofun, nofun, nofun, nofun, nofun, nofun⟩
  case outByte b =>
    obtain ⟨t, hstep, hrow⟩ := outByte_runs_inside (s := s) hd
    refine ⟨t, hstep, nofun, nofun, fun b' hb => ?_, nofun, nofun, nofun, nofun, nofun, nofun, nofun⟩
    cases hb
    exact hrow
  case feAck =>
    obtain ⟨t, hstep, hrow⟩ := feAck_runs_inside (s := s) hd
    exact ⟨t, hstep, nofun, nofun, nofun, fun _ => hrow, nofun, nofun, nofun, nofun, nofun, nofun⟩
  case feNack =>
    obtain ⟨t, hstep, hrow⟩ := feNack_runs_inside (s := s) hd
    exact ⟨t, hstep, nofun, nofun, nofun, nofun, fun _ => hrow, nofun, nofun, nofun, nofun, nofun⟩
  case fifoStore =>
    obtain ⟨t, hstep, hrow⟩ := fifoStore_runs_inside (s := s) hd
    exact ⟨t, hstep, nofun, nofun, nofun, nofun, nofun, fun _ => hrow, nofun, nofun, nofun, nofun⟩
  case fifoIsfull =>
    obtain ⟨_, t, rfl, hstep, hrow⟩ := fifoIsfull_runs_inside (s := s) hd
    exact ⟨t, hstep, nofun, nofun, nofun, nofun, nofun, nofun, fun _ => hrow, nofun, nofun, nofun⟩
  case fifoRead =>
    obtain ⟨t, hstep, hrow⟩ := fifoRead_runs_inside (s := s) hd
    exact ⟨t, hstep, nofun, nofun, nofun, nofun, nofun, nofun, nofun, fun _ => hrow, nofun, nofun⟩
  case fifoAvailable =>
    obtain ⟨t, hstep, hrow⟩ := fifoAvailable_runs_inside (s := s) hd
    exact ⟨t, hstep, nofun, nofun, nofun, nofun, nofun, nofun, nofun, nofun, fun _ => hrow, nofun⟩
  case fifoClear =>
    obtain ⟨t, hstep, hrow⟩ := fifoClear_runs_inside (s := s) hd
    exact ⟨t, hstep, nofun, nofun, nofun, nofun, nofun, nofun, nofun, nofun, nofun, fun _ => hrow⟩

end Sys2Proof.Proofs
